-- ==== Sys2Proof/Word.lean ====
section
/-! DEFINITION. The three widths the block works with (00_scope.md R10, R11): bytes of a datagram,
16-bit declared lengths, 32-bit channel-buffer words. Every index, length and offset is an unbounded
natural (R11), so it is a `Nat` and no word. -/

namespace Sys2Proof

/-- A byte of a datagram or of the receive buffer (R10). -/
abbrev Byte := BitVec 8

/-- A header pair's value, a declared length (R59). -/
abbrev HalfWord := BitVec 16

/-- A channel-buffer pixel word (R28, R65). -/
abbrev Word := BitVec 32

end Sys2Proof
end

