-- ==== Sys2Proof/Config.lean ====
section
/-! DEFINITION. The implementation parameters of 00_scope.md R8 and 10_state.md R31, and the values an
implementation fixes for them, which the spec leaves OPEN: constants without a body, so that
nothing can be proved of one value only (log 4). -/

namespace Sys2Proof

/-- `CHANNEL_CONFIG[c]` (R8): handed to the renderer by `INIT_REQ`, read by no rule.
DESIGN CHOICE (log 19): the spec names the three entries and gives no format. Safe: no rule reads one. -/
structure ChannelConfig where
  pixelCount : Nat
  colourOrder : Nat
  brightness : Nat
deriving DecidableEq, Repr, Inhabited

/-- The configuration registers of R31. No step writes one. -/
structure Params where
  /-- `MAX_CHANNELS` (D14). -/
  maxChannels : Nat
  /-- `CAP[0 .. MAX_CHANNELS-1]` (D15). -/
  cap : List Nat
  /-- `MESSAGE_SIZE` (D16). -/
  messageSize : Nat
  /-- `PACE_DELAY` (D17), a duration in a unit the spec does not give; no rule reads it (log 17). -/
  paceDelay : Nat
  /-- `FINALIZE_ON_FATAL` (D10). -/
  finalizeOnFatal : Bool
  /-- `CHANNEL_CONFIG[0 .. MAX_CHANNELS-1]` (D29). -/
  channelConfig : List ChannelConfig
deriving DecidableEq, Repr

/-- `CAP[c]`; a channel that does not exist has no slot. -/
def Params.capOf (p : Params) (c : Nat) : Nat := p.cap.getD c 0

/-- The legal values of R31. -/
abbrev Params.wf (p : Params) : Prop :=
  1 ≤ p.maxChannels ∧ p.cap.length = p.maxChannels ∧ 1 ≤ p.messageSize ∧
    p.channelConfig.length = p.maxChannels

/-- `INIT_PIXELS` (D13) has one word for each slot of each channel. -/
abbrev Params.fits (p : Params) (pixels : List (List Word)) : Prop :=
  pixels.map List.length = p.cap

namespace Config

/-- How many channels the machine has beyond the first (`MAX_CHANNELS >= 1`, D14). -/
opaque extraChannels : Nat

/-- The capacity of each channel buffer (D15). -/
opaque capacity : Nat → Nat

/-- How much larger than one byte the receive buffer is (`MESSAGE_SIZE >= 1`, D16). -/
opaque extraMessageBytes : Nat

/-- The pacing delay (D17). -/
opaque paceDelay : Nat

/-- Whether a render failure is followed by a finalize request (D10). -/
opaque finalizeOnFatal : Bool

/-- What each slot holds before any datagram (D13). -/
opaque initPixel : Nat → Nat → Word

/-- What an entry of `dec.lengths` reads as that the last `DECODE` did not write: unspecified (10_state.md R24; 93 U14),
so a free value for each entry (log 15). -/
opaque openLength : Nat → HalfWord

/-- The configuration record of each channel (D29). -/
opaque channelConfig : Nat → ChannelConfig

/-- The parameters of the machine that `State.reset` describes. -/
def params : Params where
  maxChannels := extraChannels + 1
  cap := (List.range (extraChannels + 1)).map capacity
  messageSize := extraMessageBytes + 1
  paceDelay := paceDelay
  finalizeOnFatal := finalizeOnFatal
  channelConfig := (List.range (extraChannels + 1)).map channelConfig

/-- `INIT_PIXELS[c][i]` for every slot of that machine. -/
def initPixels : List (List Word) :=
  (List.range (extraChannels + 1)).map fun c => (List.range (capacity c)).map (initPixel c)

end Config

end Sys2Proof
end

