-- ==== Sys2Proof/Syntax.lean ====
section
/-! DEFINITION. The executable elements of the block, one constructor per row of spec/opcode_table.json
(00_scope.md R3), and the closed alphabet of port inputs (30_encoding.md R72). -/

namespace Sys2Proof

/-- What the block executes: wire elements of a datagram, micro-operations of the demultiplexer, and
control steps. Operands are those of the row's rule. -/
inductive Instr where
  /-- `LEN`, a length field with its two bytes (R79). -/
  | len (lo hi : Byte)
  /-- `TERM.L`, a terminator whose first byte is the sentinel (R80). -/
  | termL (hi : Byte)
  /-- `TERM.H`, a terminator whose second byte is the sentinel (R81). -/
  | termH (lo : Byte)
  /-- `PIX`, a pixel triple (R85). -/
  | pix (r g b : Byte)
  /-- `TAIL`, the bytes after the last whole triple (R86). -/
  | tail (bytes : List Byte)
  /-- `DISPATCH_CH`, one channel `c` with declared length `declared` (R94). -/
  | dispatchCh (c : Nat) (declared : HalfWord)
  /-- `COPY_PX`, payload triple `q` into slot `i` of channel `c` (R95). -/
  | copyPx (c i q : Nat)
  /-- `INIT_REQ` (R106). -/
  | initReq
  /-- `INIT_OK` (R107). -/
  | initOk
  /-- `INIT_FAIL` (R108). -/
  | initFail
  /-- `RX_DATA`, a receive result of at least four bytes (R109). -/
  | rxData (r : Int) (bytes : List Byte)
  /-- `RX_SHORT`, a receive result of zero to three bytes (R110). -/
  | rxShort (r : Int) (bytes : List Byte)
  /-- `RX_ERROR`, a failed read (R111). -/
  | rxError (r : Int)
  /-- `DECODE` (R112). -/
  | decode
  /-- `DISPATCH` (R113). -/
  | dispatch
  /-- `RENDER_OK` (R114). -/
  | renderOk
  /-- `RENDER_FAIL` (R115). -/
  | renderFail
  /-- `PACE` (R116). -/
  | pace
  /-- `CANCEL` (R117). -/
  | cancel
  /-- `FINALIZE` (R118). -/
  | finalize
deriving DecidableEq, Repr

/-- The inputs the environment can offer (R72). -/
inductive PortInput where
  /-- The renderer's answer to `INIT_REQ`. -/
  | initResp (ok : Bool)
  /-- The socket's answer to the outstanding read. -/
  | rx (r : Int) (bytes : List Byte)
  /-- The renderer's answer to `RENDER_REQ`. -/
  | renderResp (ok : Bool)
  /-- The cancellation signal. -/
  | cancel
deriving DecidableEq, Repr

/-- Where an element's bytes stand: in a datagram's header, its payload or its tail, or on a port. A
micro-operation and the internal steps without a code stand nowhere (spec/opcode_table.json). -/
inductive Stream where
  | header
  | payload
  | tail
  | port
  | none
deriving DecidableEq, Repr

/-- The stream of each row (the table's `format` and `encoding` columns). -/
def Instr.stream : Instr → Stream
  | .len _ _ => .header
  | .termL _ => .header
  | .termH _ => .header
  | .pix _ _ _ => .payload
  | .tail _ => .tail
  | .dispatchCh _ _ => .none
  | .copyPx _ _ _ => .none
  | .initReq => .port
  | .initOk => .port
  | .initFail => .port
  | .rxData _ _ => .port
  | .rxShort _ _ => .port
  | .rxError _ => .port
  | .decode => .none
  | .dispatch => .port
  | .renderOk => .port
  | .renderFail => .port
  | .pace => .none
  | .cancel => .port
  | .finalize => .port

end Sys2Proof
end

