-- ==== Sys2Proof/WellFormed.lean ====
section
/-! DEFINITION. Which instructions are well formed: the classes of 30_encoding.md R60 and R67, the tail's
size (R66), the operand ranges of R94 and R95, and the socket's duties of R121 (D33). -/

namespace Sys2Proof

/-- The sentinel byte (00_scope.md R9). -/
def sentinel : Byte := 0xFF

/-- The smallest datagram the block decodes (00_scope.md R9, `MIN_DGRAM`). -/
def minDatagram : Nat := 4

/-- A byte that a length field may hold (R61). -/
def lengthByte (b : Byte) : Bool := b != sentinel

/-- A value that a length field can carry (R25, R61): each byte in `0x00 .. 0xFE`. DEDUCED (log 23): that range holds 65025 values,
while R25, the table of R60 and 90_conflicts.md C2 count 64516; the range is taken and not the count. -/
def encodableLength (v : HalfWord) : Bool :=
  lengthByte (v.extractLsb' 0 8) && lengthByte (v.extractLsb' 8 8)

/-- What the socket owes with a receive result (R121, D33): exactly `max(r, 0)` bytes, and no more than
`MESSAGE_SIZE`. -/
def rxDuty (p : Params) (r : Int) (bytes : List Byte) : Bool :=
  bytes.length == r.toNat && decide (r.toNat ≤ p.messageSize)

/-- The well-formed instructions of a machine with parameters `p`. -/
def Instr.wellFormed (p : Params) : Instr → Bool
  | .len lo hi => lengthByte lo && lengthByte hi
  | .termL _ => true
  | .termH lo => lengthByte lo
  | .pix _ _ _ => true
  | .tail bytes => decide (bytes.length ≤ 2)
  | .dispatchCh c declared => decide (c < p.maxChannels) && encodableLength declared
  | .copyPx c i _ => decide (c < p.maxChannels) && decide (i < p.capOf c)
  | .initReq => true
  | .initOk => true
  | .initFail => true
  | .rxData r bytes => decide (4 ≤ r) && rxDuty p r bytes
  | .rxShort r bytes => decide (0 ≤ r) && decide (r ≤ 3) && rxDuty p r bytes
  | .rxError r => decide (r < 0)
  | .decode => true
  | .dispatch => true
  | .renderOk => true
  | .renderFail => true
  | .pace => true
  | .cancel => true
  | .finalize => true

end Sys2Proof
end

