-- ==== Sys2Proof/Decode.lean ====
section
/-! DEFINITION. Reading an instruction from its bytes, by the stream it stands in (30_encoding.md), and
writing one. Header pairs, triples and tails have the spec's own byte form. A port event has the 4-bit
kind code of R72; the rest of its byte form (the ok bit, the width of `r`) is the model's own (log 11:
DESIGN CHOICE, safe: no rule depends on it). -/

namespace Sys2Proof

/-- Why bytes are no instruction. -/
inductive Reject where
  /-- A header pair needs two bytes (R63). -/
  | pairTooShort
  /-- A pixel triple needs three bytes (R66). -/
  | tripleTooShort
  /-- A tail has at most two bytes (R66). -/
  | tailTooLong
  /-- A port event needs its kind code. -/
  | eventEmpty
  /-- A kind code outside the closed alphabet of R72. -/
  | unknownKind (code : Nat)
  /-- A receive result without the whole of `r` or without its `max(r, 0)` bytes. -/
  | resultTooShort
  /-- An element that has no bytes of its own (a micro-operation, `DECODE`, `PACE`). -/
  | noEncoding
deriving DecidableEq, Repr

/-- The class of a header pair, first match wins (R60). -/
def classifyPair (lo hi : Byte) : Instr :=
  if lo = 0xFF then .termL hi
  else if hi = 0xFF then .termH lo
  else .len lo hi

/-- The control step that consumes a port input; a receive result is classed by `r` (R67). -/
def classifyInput : PortInput → Instr
  | .initResp true => .initOk
  | .initResp false => .initFail
  | .rx r bytes => if r < 0 then .rxError r else if r < 4 then .rxShort r bytes else .rxData r bytes
  | .renderResp true => .renderOk
  | .renderResp false => .renderFail
  | .cancel => .cancel

/-- A 32-bit value from its bytes, least significant first. -/
def le32Value (b0 b1 b2 b3 : Byte) : BitVec 32 := b3 ++ b2 ++ b1 ++ b0

/-- The bytes of a 32-bit value, least significant first. -/
def le32Bytes (v : BitVec 32) : List Byte :=
  [v.extractLsb' 0 8, v.extractLsb' 8 8, v.extractLsb' 16 8, v.extractLsb' 24 8]

/-- The first header pair of a byte list, and what follows it. -/
def decodePair : List Byte → Except Reject (Instr × List Byte)
  | lo :: hi :: rest => .ok (classifyPair lo hi, rest)
  | _ => .error .pairTooShort

/-- The first pixel triple of a byte list, and what follows it (R58). -/
def decodeTriple : List Byte → Except Reject (Instr × List Byte)
  | r :: g :: b :: rest => .ok (.pix r g b, rest)
  | _ => .error .tripleTooShort

/-- A tail takes all the bytes left, which are at most two (R66). -/
def decodeTail (bytes : List Byte) : Except Reject (Instr × List Byte) :=
  if bytes.length ≤ 2 then .ok (.tail bytes, []) else .error .tailTooLong

/-- The receive result after its kind code: `r`, then `max(r, 0)` bytes (R72). -/
def decodeResult : List Byte → Except Reject (Instr × List Byte)
  | b0 :: b1 :: b2 :: b3 :: rest =>
    let r := (le32Value b0 b1 b2 b3).toInt
    if rest.length < r.toNat then .error .resultTooShort
    else .ok (classifyInput (.rx r (rest.take r.toNat)), rest.drop r.toNat)
  | _ => .error .resultTooShort

/-- The ok bit of a response's byte, bit 4 (log 11). -/
def okBit (b : Byte) : Bool := b.getLsbD 4

/-- A port event: the kind code stands in bits `[3:0]` of its first byte (R72). -/
def decodeEvent : List Byte → Except Reject (Instr × List Byte)
  | [] => .error .eventEmpty
  | b :: rest =>
    match b.toNat % 16 with
    | 1 => .ok (classifyInput (.initResp (okBit b)), rest)
    | 2 => decodeResult rest
    | 3 => .ok (classifyInput (.renderResp (okBit b)), rest)
    | 4 => .ok (classifyInput .cancel, rest)
    | 8 => .ok (.initReq, rest)
    | 9 => .ok (.dispatch, rest)
    | 10 => .ok (.finalize, rest)
    | code => .error (.unknownKind code)

/-- The decoder: the first element of a stream, and the bytes after it. Total on any bytes. -/
def decode (st : Stream) (bytes : List Byte) : Except Reject (Instr × List Byte) :=
  match st with
  | .header => decodePair bytes
  | .payload => decodeTriple bytes
  | .tail => decodeTail bytes
  | .port => decodeEvent bytes
  | .none => .error .noEncoding

/-- The bytes of a receive result (R72, log 11). -/
def encodeResult (r : Int) (bytes : List Byte) : List Byte :=
  0x02 :: (le32Bytes (BitVec.ofInt 32 r) ++ bytes)

/-- The bytes of an instruction, for those that have some. -/
def encode : Instr → Option (List Byte)
  | .len lo hi => some [lo, hi]
  | .termL hi => some [0xFF, hi]
  | .termH lo => some [lo, 0xFF]
  | .pix r g b => some [r, g, b]
  | .tail bytes => some bytes
  | .dispatchCh _ _ => none
  | .copyPx _ _ _ => none
  | .initReq => some [0x08]
  | .initOk => some [0x11]
  | .initFail => some [0x01]
  | .rxData r bytes => some (encodeResult r bytes)
  | .rxShort r bytes => some (encodeResult r bytes)
  | .rxError r => some (encodeResult r [])
  | .decode => none
  | .dispatch => some [0x09]
  | .renderOk => some [0x13]
  | .renderFail => some [0x03]
  | .pace => none
  | .cancel => some [0x04]
  | .finalize => some [0x0A]

/-- The receive results that the 32-bit form of `r` can carry (log 11). -/
def resultFits (r : Int) : Bool := decide (-2147483648 ≤ r) && decide (r < 2147483648)

/-- The instructions whose operands the byte form can carry. -/
def encodable : Instr → Bool
  | .rxData r _ => resultFits r
  | .rxShort r _ => resultFits r
  | .rxError r => resultFits r
  | _ => true

/-- The header elements of a datagram, up to and with the first terminator, and the bytes after them
(R63). -/
def headerElements : List Byte → List Instr × List Byte
  | lo :: hi :: rest =>
    if lo = 0xFF ∨ hi = 0xFF then ([classifyPair lo hi], rest)
    else
      let (more, after) := headerElements rest
      (classifyPair lo hi :: more, after)
  | rest => ([], rest)

/-- The payload elements: whole triples, then the tail (R58, R66). -/
def payloadElements : List Byte → List Instr
  | r :: g :: b :: rest => .pix r g b :: payloadElements rest
  | rest => [.tail rest]

/-- A whole datagram as its wire elements, in the order of the layout table of R58. -/
def elements (datagram : List Byte) : List Instr :=
  let (header, payload) := headerElements datagram
  header ++ payloadElements payload

/-- The low `n` bytes of a number, least significant first. -/
def numberBytes : Nat → Nat → List Byte
  | 0, _ => []
  | n + 1, w => BitVec.ofNat 8 w :: numberBytes n (w / 256)

/-- What the decoder answers, without the bytes after it. -/
def firstOf (res : Except Reject (Instr × List Byte)) : Option Instr :=
  match res with
  | .ok (i, _) => some i
  | .error _ => none

/-- A table word of at most one byte: a port event, whose operands above the table's bits are zeros; a
byte `0xFF`, whose low bits are no kind code, is the fixed byte of `TERM.L` (log 12). -/
def decodeTableByte (w : Nat) : Option Instr :=
  if w % 256 = 0xFF then firstOf (decode .header [0xFF, 0x00])
  else firstOf (decode .port (BitVec.ofNat 8 w :: [0x00, 0x00, 0x00, 0x00]))

/-- The instruction read from a word as spec/opcode_table.json numbers its bits: two bytes are a header
pair, three a triple, at most one byte or more than three a port event (log 12). -/
def decodeTableWord (nbits w : Nat) : Option Instr :=
  match (nbits + 7) / 8 with
  | 0 => none
  | 1 => decodeTableByte w
  | 2 => firstOf (decode .header (numberBytes 2 w))
  | 3 => firstOf (decode .payload (numberBytes 3 w))
  | n => firstOf (decode .port (numberBytes n w ++ [0x00, 0x00, 0x00, 0x00]))

end Sys2Proof
end

