-- ==== Sys2Proof/Machine/State.lean ====
section
/-! DEFINITION. The state of the block (10_state.md R15), the reasons a step can stop, and the state
after reset (R36, R143). The last three fields of `State` are the model's own: the working
registers that the spec lets live only inside one step (log 6), the environment's pending moves (log 5) and the
event trace (log 7). -/

namespace Sys2Proof.Machine

/-- The states of the control loop (R17). Codes 9 to 15 are never held, so they are no value here. -/
inductive Fsm where
  | init
  | initWait
  | waitingForPacket
  | decoding
  | dispatching
  | rendering
  | pacedIdle
  | shutdown
  | halted
deriving DecidableEq, Repr

/-- Why the loop ended (R20). -/
inductive ExitStatus where
  | none
  | clean
  | renderError
  | initError
deriving DecidableEq, Repr

/-- Why a receive result was dropped (60_exceptions.md R125). No register holds it (R126, log 18). -/
inductive DropReason where
  | rxError
  | empty
  | tooShort
deriving DecidableEq, Repr

/-- A fatal error (R125, R128). -/
inductive FatalError where
  | renderError
  | initError
deriving DecidableEq, Repr

/-- The one error of the decode function (R76). -/
inductive DecodeError where
  | tooShort
deriving DecidableEq, Repr

/-- Memory of the `RX` space: the bytes that differ from what an unlisted address reads as, by rising
address. -/
abbrev Memory := List Host.Cell

/-- The `CHB` spaces: one list of words for each channel, one word for each slot (R28, log 14). -/
abbrev ChannelBuffers := List (List Word)

/-- The decoded-frame registers (R24). `lengths` holds the entries that `DECODE` writes; any
other entry reads as a free value (log 15). -/
structure DecodedFrame where
  lengths : List HalfWord
  nchan : Nat
  npairs : Nat
  terminated : Bool
  offset : Nat
  total : Nat
deriving DecidableEq, Repr

/-- The registers of a header scan (R27, R78): the pair index, whether a terminator stopped the scan, and
the lengths kept so far. -/
structure ScanRegs where
  c : Nat
  terminated : Bool
  lengths : List HalfWord
deriving DecidableEq, Repr

/-- The registers of one channel's copy (R93, R94): channel, pixel cursor, declared length, the number of
slots to write, the next slot, and the word assembled for it, if it has been (log 21). -/
structure CopyRegs where
  c : Nat
  cursor : Nat
  declared : HalfWord
  m : Nat
  i : Nat
  pixel : Option Word
deriving DecidableEq, Repr

/-- The working registers, by the atomic step they belong to (R26, R27). Between two control steps they are
`idle`; the other forms are the inside of a `DECODE` or of a `DISPATCH` (log 6). -/
inductive Work where
  | idle
  /-- Inside `DECODE`. -/
  | scan (regs : ScanRegs)
  /-- Inside `DISPATCH`, before the `DISPATCH_CH` of channel `c`. -/
  | demux (c cursor : Nat)
  /-- Inside `DISPATCH_CH`. -/
  | copy (regs : CopyRegs)
deriving DecidableEq, Repr

/-- One entry of the event trace (42_control.md R122). -/
inductive Event where
  /-- An input the block consumed. -/
  | input (e : PortInput)
  /-- The output `INIT_REQ(CHANNEL_CONFIG)`. -/
  | initReq (config : List ChannelConfig)
  /-- The output `RENDER_REQ(snapshot)`. -/
  | renderReq (snapshot : ChannelBuffers)
  /-- The output `FINALIZE_REQ`. -/
  | finalizeReq
deriving DecidableEq, Repr

/-- One move of the environment. It is made as soon as the block has no internal step to take, or already before the
internal step of the state that `before` names, if the block comes to that state first (R53, R119, R133; log 5). -/
structure Offer where
  input : PortInput
  before : Option Fsm
deriving DecidableEq, Repr

/-- The state of the block. -/
structure State where
  /-- `fsm` (R17). -/
  fsm : Fsm
  /-- `continue_looping` (R19). -/
  continueLooping : Bool
  /-- `exit_status` (R20). -/
  exitStatus : ExitStatus
  /-- `finalized` (R21). -/
  finalized : Bool
  /-- `rx_buf` (R22). -/
  rxBuf : Memory
  /-- `rx_len` (R23). -/
  rxLen : Nat
  /-- The `dec.*` registers (R24). -/
  dec : DecodedFrame
  /-- `chbuf[c][i]` (R28). -/
  chbuf : ChannelBuffers
  /-- The configuration registers (R31), read-only to every step (log 1). -/
  cfg : Params
  /-- The model's own: working registers (log 6). -/
  work : Work
  /-- The model's own: the environment's pending moves, the next one first (log 5). -/
  inputs : List Offer
  /-- The model's own: the event trace, the oldest event first (R122, log 7). -/
  trace : List Event
deriving DecidableEq, Repr

/-- The model faults: accesses and writes that no conforming run makes (R130). -/
inductive Fault where
  /-- `RX_OOB`: raised by a read of `RX` at or beyond `rx_len` (R12, R39). Safe: the spec names it, and no
  rule makes such a read. -/
  | rxOob
  /-- `CHB_OOB`: raised by an access of `CHB` outside its slots (R12, R40). Safe: the spec names it, and no
  rule makes such an access. -/
  | chbOob
  /-- Raised by a write of `exit_status` once it is not `NONE` (R20; 93_implementation_defined.md U25; log 16). Safe:
  no run makes such a write. -/
  | exitRewritten
deriving DecidableEq, Repr

/-- Why there is no step. -/
inductive Refusal where
  /-- Raised by `exec` for an instruction without a meaning in this model. Safe. -/
  | notModelled (mnemonic : String)
  /-- Raised for a step that is not enabled where the block stands: the spec gives it no step (R119, R120;
  93_implementation_defined.md U22; log 8). Safe. -/
  | notEnabled
  /-- Raised for a receive result that breaks the socket's duty: the spec gives it no step (R121; U23; log 9).
  Safe. -/
  | hostDuty
  /-- Raised by `step` when the block waits for an answer that the environment has not given (U19, U20; log 10).
  Safe. -/
  | awaitingHost
  /-- Raised by `step` in `HALTED` when no input is pending: the run has ended (R123; log 10). Safe. -/
  | runEnded
deriving DecidableEq, Repr

/-- The decoded-frame registers at reset, which the spec leaves unspecified. DESIGN CHOICE (log 2): unsafe in form,
unobservable by R36. -/
def DecodedFrame.atReset : DecodedFrame where
  lengths := []
  nchan := 0
  npairs := 0
  terminated := false
  offset := 0
  total := 0

/-- The state right after reset, for given parameters and initial pixels (R36, R143). DESIGN CHOICE (log 2): `rx_len` and
the `dec.*` registers, which the spec leaves unspecified. -/
def State.resetWith (cfg : Params) (initPixels : ChannelBuffers) : State where
  fsm := .init
  continueLooping := true
  exitStatus := .none
  finalized := false
  rxBuf := []
  rxLen := 0
  dec := .atReset
  chbuf := initPixels
  cfg := cfg
  work := .idle
  inputs := []
  trace := []

/-- The state right after reset of a machine whose parameters are the opaque constants of Config (log 4). -/
def State.reset : State := State.resetWith Config.params Config.initPixels

end Sys2Proof.Machine
end

