-- ==== Sys2Proof/Machine/Flags.lean ====
section
/-! DEFINITION. The flags and codes of the control registers (10_state.md R17 to R21, R32, R33): the numeric codes
of `fsm` and `exit_status`, the status view, and how each flag is computed. -/

namespace Sys2Proof.Machine

/-- The code of each state of the control loop (R17). -/
def Fsm.code : Fsm → BitVec 4
  | .init => 0
  | .initWait => 1
  | .waitingForPacket => 2
  | .decoding => 3
  | .dispatching => 4
  | .rendering => 5
  | .pacedIdle => 6
  | .shutdown => 7
  | .halted => 8

/-- The code of each exit status (R20). -/
def ExitStatus.code : ExitStatus → BitVec 2
  | .none => 0
  | .clean => 1
  | .renderError => 2
  | .initError => 3

/-- The code of each drop reason (R125). -/
def DropReason.code : DropReason → Nat
  | .rxError => 1
  | .empty => 2
  | .tooShort => 3

/-- The code of the decode function's error (R125). -/
def DecodeError.code : DecodeError → Nat
  | .tooShort => 1

/-- The exit status that a fatal error leaves (R128). -/
def FatalError.status : FatalError → ExitStatus
  | .renderError => .renderError
  | .initError => .initError

/-- The 8-bit status view (R32): `exit_status`, `finalized`, `continue_looping`, `fsm`, from bit 7 down. -/
def State.statusView (s : State) : BitVec 8 :=
  s.exitStatus.code ++ BitVec.ofBool s.finalized ++ BitVec.ofBool s.continueLooping ++ s.fsm.code

/-- The loop has ended: `fsm` is `SHUTDOWN` or `HALTED` (R117). -/
def Fsm.loopEnded : Fsm → Bool
  | .shutdown => true
  | .halted => true
  | _ => false

/-- A cancellation is pending (R131). -/
def State.cancelPending (s : State) : Bool := !s.continueLooping && !s.fsm.loopEnded

/-- `continue_looping` after a `CANCEL`: cleared, but only while the loop has not ended (R117). -/
def loopingAfterCancel (s : State) : Bool := s.fsm.loopEnded && s.continueLooping

/-- The sentinel test of a header pair (R90). -/
def sentinelHit (lo hi : Byte) : Bool := lo == 0xFF || hi == 0xFF

end Sys2Proof.Machine
end

