-- ==== Sys2Proof/Machine/Ops.lean ====
section
/-! DEFINITION. The shared operations: the memory primitives of 00_scope.md R12 and 20_memory.md R48, the setters of
`State`, the outcome primitives of R13 (`loop_head`, `raise Drop`, `raise Fatal`, `emit`), the enabling test of R119 and the
socket's delivery (R47). Raising an error is the block's only exception entry; nothing returns from one
(60_exceptions.md R134, R135). -/

namespace Sys2Proof.Machine

/-! ### The receive buffer -/

/-- What a byte of `rx_buf` that no receive result has written reads as. DESIGN CHOICE (log 3): unsafe in form,
unobservable by R36. -/
def Memory.unlisted : Byte := 0

/-- The canonical form: addresses strictly rising, no entry equal to what an unlisted address reads as. -/
abbrev Memory.wf (m : Memory) : Prop :=
  m.Pairwise (fun x y => x.1 < y.1) ∧ ∀ x ∈ m, x.2 ≠ Memory.unlisted

/-- The byte at an address. -/
def Memory.read : Memory → Nat → Byte
  | [], _ => Memory.unlisted
  | (k, b) :: rest, a => if k = a then b else Memory.read rest a

/-- One byte in front of a memory whose addresses are all larger. -/
def Memory.cons (a : Nat) (b : Byte) (m : Memory) : Memory :=
  if b = Memory.unlisted then m else (a, b) :: m

/-- Write one byte, keeping the canonical form. -/
def Memory.write : Memory → Nat → Byte → Memory
  | [], a, b => Memory.cons a b []
  | (k, v) :: rest, a, b =>
    if a < k then Memory.cons a b ((k, v) :: rest)
    else if a = k then Memory.cons a b rest
    else (k, v) :: Memory.write rest a b

/-- Write bytes at rising addresses. -/
def Memory.writeBytes : Memory → Nat → List Byte → Memory
  | m, _, [] => m
  | m, a, b :: bs => Memory.writeBytes (m.write a b) (a + 1) bs

/-- `MemRead(RX, i, 1)` of a receive buffer that holds `n` bytes (R12, R39). -/
def memReadRx (buf : Memory) (n i : Nat) : Except Fault Byte :=
  if i < n then .ok (buf.read i) else .error .rxOob

/-! ### The channel buffers -/

/-- The slots that exist (R40). -/
def slotExists (p : Params) (c i : Nat) : Bool := decide (c < p.maxChannels) && decide (i < p.capOf c)

/-- `MemRead(CHB[c], i, 4)` (R12). -/
def memReadChb (p : Params) (chb : ChannelBuffers) (c i : Nat) : Except Fault Word :=
  if slotExists p c i then
    match chb[c]? with
    | some row =>
      match row[i]? with
      | some w => .ok w
      | none => .error .chbOob
    | none => .error .chbOob
  else .error .chbOob

/-- `MemWrite(CHB[c], i, 4, v)` (R12). -/
def memWriteChb (p : Params) (chb : ChannelBuffers) (c i : Nat) (v : Word) : Except Fault ChannelBuffers :=
  if slotExists p c i then .ok (chb.modify c fun row => row.set i v) else .error .chbOob

/-! ### One setter for each register -/

def State.setFsm (s : State) (f : Fsm) : State := { s with fsm := f }
def State.setLooping (s : State) (b : Bool) : State := { s with continueLooping := b }
def State.setExit (s : State) (e : ExitStatus) : State := { s with exitStatus := e }
def State.setFinalized (s : State) (b : Bool) : State := { s with finalized := b }
def State.setRx (s : State) (buf : Memory) (n : Nat) : State := { s with rxBuf := buf, rxLen := n }
def State.setDec (s : State) (d : DecodedFrame) : State := { s with dec := d }
def State.setChbuf (s : State) (chb : ChannelBuffers) : State := { s with chbuf := chb }
def State.setWork (s : State) (w : Work) : State := { s with work := w }
def State.setInputs (s : State) (os : List Offer) : State := { s with inputs := os }

/-- Append an event to the trace (R122): `emit` of R13 for an output, and the consumption of an input. -/
def State.record (s : State) (e : Event) : State := { s with trace := s.trace ++ [e] }

/-! ### Outcomes -/

/-- The outcome of a next state. -/
abbrev StepOutcome := Host.Outcome State Fault Refusal

/-- Go on with a value, or stop with the model fault that an access raised. -/
def orFault {α : Type} (res : Except Fault α) (go : α → StepOutcome) : StepOutcome :=
  match res with
  | .ok a => go a
  | .error f => .fault f

/-- A control step is enabled only in its `From` state (R104, R119). -/
def enabledIn (f : Fsm) (s : State) (body : StepOutcome) : StepOutcome :=
  if s.fsm = f then body else .refused .notEnabled

/-- Leave the loop: `exit_status` is written at most once (R20, U25). -/
def endLoop (e : ExitStatus) (f : Fsm) (s : State) : StepOutcome :=
  if s.exitStatus = .none then .next ((s.setExit e).setFsm f) else .fault .exitRewritten

/-- `loop_head()` (R105). -/
def loopHead (s : State) : StepOutcome :=
  if s.continueLooping then .next (s.setFsm .waitingForPacket) else endLoop .clean .shutdown s

/-- `raise Drop(reason)` (R126): the reason is recorded nowhere. -/
def raiseDrop (_ : DropReason) (s : State) : StepOutcome := loopHead s

/-- Where a fatal error leads (R128). -/
def fatalTarget (p : Params) : FatalError → Fsm
  | .initError => .halted
  | .renderError => if p.finalizeOnFatal then .shutdown else .halted

/-- `raise Fatal(code)` (R128). -/
def raiseFatal (e : FatalError) (s : State) : StepOutcome := endLoop e.status (fatalTarget s.cfg e) s

/-! ### The socket -/

/-- The socket's delivery of a datagram: truncated to `MESSAGE_SIZE` bytes (R47, R74). -/
def socketDeliver (p : Params) (datagram : List Byte) : PortInput :=
  .rx (datagram.take p.messageSize).length (datagram.take p.messageSize)

/-- The socket's duties (R121, D33): exactly `max(r, 0)` bytes, at most `MESSAGE_SIZE`. -/
def dutyKept (p : Params) (r : Int) (bytes : List Byte) : Bool :=
  bytes.length == r.toNat && decide (r.toNat ≤ p.messageSize)

/-- Go on only if the socket kept its duties. -/
def onDuty (p : Params) (r : Int) (bytes : List Byte) (body : StepOutcome) : StepOutcome :=
  if dutyKept p r bytes then body else .refused .hostDuty

/-- What a receive result of `n >= 0` bytes does to the receive buffer (R48). -/
def receive (bytes : List Byte) (s : State) : State :=
  s.setRx (s.rxBuf.writeBytes 0 bytes) bytes.length

end Sys2Proof.Machine
end

