-- ==== Sys2Proof/Machine/Operands.lean ====
section
/-! DEFINITION. The operand forms: the value of a header pair (30_encoding.md R59), the word of a pixel triple (R65),
the header pair at offset `2c` (40_decoder.md R78), the payload triple at `offset + 3q` (R85), and a kept declared length. -/

namespace Sys2Proof.Machine

/-- `zext_16(lo | (hi << 8))` (R41, R59). -/
def pairValue (lo hi : Byte) : HalfWord := lo.setWidth 16 ||| (hi.setWidth 16 <<< 8)

/-- `zext_32((r << 16) | (g << 8) | b)` (R42, R65). -/
def pixelWord (r g b : Byte) : Word :=
  (r.setWidth 32 <<< 16) ||| (g.setWidth 32 <<< 8) ||| b.setWidth 32

/-- The two bytes of header pair `c` (R78). -/
def readPair (buf : Memory) (n c : Nat) : Except Fault (Byte × Byte) := do
  let lo ← memReadRx buf n (2 * c)
  let hi ← memReadRx buf n (2 * c + 1)
  return (lo, hi)

/-- The three bytes at `p` (R58). -/
def readTriple (buf : Memory) (n p : Nat) : Except Fault (Byte × Byte × Byte) := do
  let r ← memReadRx buf n p
  let g ← memReadRx buf n (p + 1)
  let b ← memReadRx buf n (p + 2)
  return (r, g, b)

/-- Where payload triple `q` begins (R64, R85). -/
def tripleOffset (s : State) (q : Nat) : Nat := s.dec.offset + 3 * q

/-- `pixel(q)` (R85). -/
def pixelAt (s : State) (q : Nat) : Except Fault Word := do
  let (r, g, b) ← readTriple s.rxBuf s.rxLen (tripleOffset s q)
  return pixelWord r g b

/-- `dec.lengths[c]` (R24); an entry that the last `DECODE` did not write is a free value (log 15). -/
def DecodedFrame.lengthAt (d : DecodedFrame) (c : Nat) : HalfWord := d.lengths.getD c (Config.openLength c)

end Sys2Proof.Machine
end

