-- ==== Sys2Proof/Machine/Header.lean ====
section
/-! DEFINITION. The header elements `LEN`, `TERM.L`, `TERM.H` (40_decoder.md R79 to R81) and the decode function over
them (R76 to R88). An element acts on the scan registers of the `DECODE` step it belongs to (log 6). -/

namespace Sys2Proof.Machine

/-- The scan registers at the start of a scan (R78). -/
def ScanRegs.start : ScanRegs := ⟨0, false, []⟩

/-- What a length field does to the scan registers: kept while `c < MAX_CHANNELS`, counted always (R79, R87). -/
def scanLen (maxCh : Nat) (lo hi : Byte) (r : ScanRegs) : ScanRegs :=
  { r with
    c := r.c + 1
    lengths := if r.c < maxCh then r.lengths ++ [pairValue lo hi] else r.lengths }

/-- What a terminator does to the scan registers (R80, R81). -/
def scanTerm (r : ScanRegs) : ScanRegs := { r with terminated := true }

/-- What a header pair does to the scan registers, by its class (R60, R78). -/
def scanPair (maxCh : Nat) (lo hi : Byte) (r : ScanRegs) : ScanRegs :=
  match classifyPair lo hi with
  | .len l h => scanLen maxCh l h r
  | _ => scanTerm r

/-- The scan is over: a terminator, or no whole pair left (R63, R82). -/
def scanOver (n : Nat) (r : ScanRegs) : Bool := r.terminated || decide (n < 2 * r.c + 2)

/-- The scan loop of R78. A datagram of `n` bytes has at most `n / 2` pairs, so `n` rounds are enough. -/
def scanLoop (maxCh : Nat) (buf : Memory) (n : Nat) : Nat → ScanRegs → Except Fault ScanRegs
  | 0, r => .ok r
  | rounds + 1, r =>
    if scanOver n r then .ok r
    else do
      let (lo, hi) ← readPair buf n r.c
      scanLoop maxCh buf n rounds (scanPair maxCh lo hi r)

/-- `payload_offset` (R83). -/
def payloadOffset (r : ScanRegs) : Nat := 2 * (r.c + r.terminated.toNat)

/-- The record of a finished scan of `n` bytes (R78, R83, R84, R87, R88). -/
def frameOf (maxCh n : Nat) (r : ScanRegs) : DecodedFrame where
  lengths := r.lengths
  nchan := min r.c maxCh
  npairs := r.c
  terminated := r.terminated
  offset := payloadOffset r
  total := (n - payloadOffset r) / 3

/-- The decode function (R76, R77, R78), from given scan registers on. -/
def decodeFrom (maxCh : Nat) (buf : Memory) (n : Nat) (r : ScanRegs) :
    Except Fault (Except DecodeError DecodedFrame) :=
  if n < 4 then .ok (.error .tooShort)
  else do
    let last ← scanLoop maxCh buf n n r
    return .ok (frameOf maxCh n last)

/-- `decode(n)` (R76). -/
def decodeFrame (maxCh : Nat) (buf : Memory) (n : Nat) : Except Fault (Except DecodeError DecodedFrame) :=
  decodeFrom maxCh buf n .start

/-- A header element acts inside a scan that no terminator has stopped. DESIGN CHOICE (log 24): it acts with the bytes it is
given; that they are the pair at `2c`, of its class and inside the datagram, is what a step's fetch sees to, not this. -/
def inScan (s : State) (f : ScanRegs → ScanRegs) : StepOutcome :=
  match s.work with
  | .scan r => if r.terminated then .refused .notEnabled else .next (s.setWork (.scan (f r)))
  | _ => .refused .notEnabled

/-- `LEN` (R79). -/
def execLen (lo hi : Byte) (s : State) : StepOutcome := inScan s (scanLen s.cfg.maxChannels lo hi)

/-- `TERM.L` (R80): the byte that is not the sentinel is ignored (R62). -/
def execTermL (_ : Byte) (s : State) : StepOutcome := inScan s scanTerm

/-- `TERM.H` (R81): the byte that is not the sentinel is ignored (R62). -/
def execTermH (_ : Byte) (s : State) : StepOutcome := inScan s scanTerm

end Sys2Proof.Machine
end

