-- ==== Sys2Proof/Machine/Payload.lean ====
section
/-! DEFINITION. The payload elements `PIX` and `TAIL` (40_decoder.md R85, R86), the micro-operations `DISPATCH_CH` and
`COPY_PX` (41_dispatch.md R94, R95), and the dispatch function over them (R93). They write channel buffers only
(R92), and act on the working registers of the `DISPATCH` step they belong to (log 6). -/

namespace Sys2Proof.Machine

/-- The number of slots a channel's copy writes: the clamp of R93 and R98. Subtraction of naturals saturates (D4). -/
def copyCount (s : State) (c : Nat) (declared : HalfWord) (cursor : Nat) : Nat :=
  min (min declared.toNat (s.dec.total - cursor)) (s.cfg.capOf c)

/-- `COPY_PX` on the channel buffers: `pixel(q)` into slot `i` of channel `c` (R95). -/
def copyPixel (s : State) (c i q : Nat) (chb : ChannelBuffers) : Except Fault ChannelBuffers := do
  let w ← pixelAt s q
  memWriteChb s.cfg chb c i w

/-- The inner loop of R93, for the next slots `i, i+1, ...` of channel `c`. -/
def copyPixels (s : State) (c cursor : Nat) : Nat → Nat → ChannelBuffers → Except Fault ChannelBuffers
  | 0, _, chb => .ok chb
  | slots + 1, i, chb => do
    let chb' ← copyPixel s c i (cursor + i) chb
    copyPixels s c cursor slots (i + 1) chb'

/-- The outer loop of R93, for the next channels `c, c+1, ...`: the cursor advances by the declared length whatever
was copied (R96). -/
def dispatchChannels (s : State) : Nat → Nat → Nat → ChannelBuffers → Except Fault ChannelBuffers
  | 0, _, _, chb => .ok chb
  | channels + 1, c, cursor, chb => do
    let chb' ← copyPixels s c cursor (copyCount s c (s.dec.lengthAt c) cursor) 0 chb
    dispatchChannels s channels (c + 1) (cursor + (s.dec.lengthAt c).toNat) chb'

/-- The copy registers at the start of a channel (R94). -/
def CopyRegs.start (s : State) (c cursor : Nat) (declared : HalfWord) : CopyRegs :=
  ⟨c, cursor, declared, copyCount s c declared cursor, 0, none⟩

/-- The copies that a channel still has to make. -/
def finishCopy (s : State) (k : CopyRegs) : Except Fault ChannelBuffers :=
  copyPixels s k.c k.cursor (k.m - k.i) k.i s.chbuf

/-- The rest of a channel: its copies, then the cursor moves past its declared length (R94, R96). -/
def runChannel (k : CopyRegs) (s : State) : StepOutcome :=
  orFault (finishCopy s k) fun chb =>
    .next ((s.setChbuf chb).setWork (.demux (k.c + 1) (k.cursor + k.declared.toNat)))

/-- The channels that a dispatch still has to handle, from channel `c` on. -/
def finishDispatch (s : State) (c cursor : Nat) (chb : ChannelBuffers) : Except Fault ChannelBuffers :=
  dispatchChannels s (s.dec.nchan - c) c cursor chb

/-- `dispatch()` (R93), or what is left of it when the working registers stand inside it. -/
def dispatchBuffers (s : State) : Except Fault ChannelBuffers :=
  match s.work with
  | .demux c cursor => finishDispatch s c cursor s.chbuf
  | .copy k => do
    let chb ← finishCopy s k
    finishDispatch s (k.c + 1) (k.cursor + k.declared.toNat) chb
  | _ => finishDispatch s 0 0 s.chbuf

/-- `PIX` (R85): assemble the word of a triple for the copy in progress (log 21). DESIGN CHOICE (log 24): in every state of a copy,
from the bytes it is given; that they are the triple the copy stands at, before its last slot and with no word assembled yet, is
what a step's fetch sees to, not this. -/
def execPix (r g b : Byte) (s : State) : StepOutcome :=
  match s.work with
  | .copy k => .next (s.setWork (.copy { k with pixel := some (pixelWord r g b) }))
  | _ => .refused .notEnabled

/-- `TAIL` (R86): never read, no effect. -/
def execTail (_ : List Byte) (s : State) : StepOutcome := .next s

/-- The operands of R94: a kept channel and its declared length. -/
def isChannel (d : DecodedFrame) (c : Nat) (declared : HalfWord) : Bool :=
  decide (c < d.nchan) && declared == d.lengthAt c

/-- `DISPATCH_CH` (R94), enabled for the channel the dispatch stands at, with the operands of R94. With any others the spec has
no such step: DEDUCED (log 8), safe, it is not enabled. -/
def execDispatchCh (c : Nat) (declared : HalfWord) (s : State) : StepOutcome :=
  match s.work with
  | .demux at_ cursor =>
    if c = at_ ∧ isChannel s.dec c declared = true then runChannel (.start s c cursor declared) s else .refused .notEnabled
  | .copy k => if c = k.c ∧ declared = k.declared then runChannel k s else .refused .notEnabled
  | _ => .refused .notEnabled

/-- `COPY_PX` (R95), enabled for the slot and the triple the copy stands at, and with no other operands (log 8). -/
def execCopyPx (c i q : Nat) (s : State) : StepOutcome :=
  match s.work with
  | .copy k =>
    if c = k.c ∧ i = k.i ∧ i < k.m ∧ q = k.cursor + k.i then
      orFault (copyPixel s c i q s.chbuf) fun chb =>
        .next ((s.setChbuf chb).setWork (.copy { k with i := k.i + 1, pixel := none }))
    else .refused .notEnabled
  | _ => .refused .notEnabled

end Sys2Proof.Machine
end

