-- ==== Sys2Proof/Machine/Control.lean ====
section
/-! DEFINITION. The thirteen control steps (42_control.md R106 to R118). Each is enabled only in its `From` state
(R104, R119) except `CANCEL`. -/

namespace Sys2Proof.Machine

/-- `INIT_REQ` (R106). -/
def execInitReq (s : State) : StepOutcome :=
  enabledIn .init s (.next ((s.record (.initReq s.cfg.channelConfig)).setFsm .initWait))

/-- `INIT_OK` (R107). -/
def execInitOk (s : State) : StepOutcome :=
  enabledIn .initWait s (loopHead (s.record (.input (.initResp true))))

/-- `INIT_FAIL` (R108). -/
def execInitFail (s : State) : StepOutcome :=
  enabledIn .initWait s (raiseFatal .initError (s.record (.input (.initResp false))))

/-- `RX_DATA` (R109), for a result of at least four bytes (R67). -/
def execRxData (r : Int) (bytes : List Byte) (s : State) : StepOutcome :=
  enabledIn .waitingForPacket s <|
    if 4 ≤ r then
      onDuty s.cfg r bytes
        (.next (((receive bytes s).record (.input (.rx r bytes))).setFsm .decoding))
    else .refused .hostDuty

/-- Why a result of zero to three bytes is dropped (R110, R125). -/
def shortReason (r : Int) : DropReason := if r = 0 then .empty else .tooShort

/-- `RX_SHORT` (R110), for a result of zero to three bytes (R67). -/
def execRxShort (r : Int) (bytes : List Byte) (s : State) : StepOutcome :=
  enabledIn .waitingForPacket s <|
    if 0 ≤ r ∧ r ≤ 3 then
      onDuty s.cfg r bytes
        (raiseDrop (shortReason r) ((receive bytes s).record (.input (.rx r bytes))))
    else .refused .hostDuty

/-- `RX_ERROR` (R111), for a negative result (R67): nothing is written to the receive buffer. -/
def execRxError (r : Int) (s : State) : StepOutcome :=
  enabledIn .waitingForPacket s <|
    if r < 0 then raiseDrop .rxError (s.record (.input (.rx r []))) else .refused .hostDuty

/-- The decode of R112 from given scan registers on: the frame into `dec`, or the drop of the dead branch. -/
def runDecode (r : ScanRegs) (s : State) : StepOutcome :=
  orFault (decodeFrom s.cfg.maxChannels s.rxBuf s.rxLen r) fun res =>
    match res with
    | .ok frame => .next (((s.setDec frame).setWork .idle).setFsm .dispatching)
    | .error .tooShort => raiseDrop .tooShort (s.setWork .idle)

/-- `DECODE` (R112); with the working registers inside a scan, the rest of that scan (log 6). -/
def execDecode (s : State) : StepOutcome :=
  enabledIn .decoding s <|
    match s.work with
    | .idle => runDecode .start s
    | .scan r => runDecode r s
    | _ => .refused .notEnabled

/-- `DISPATCH` (R113): `dispatch()`, then the render request with a snapshot of every slot; with the working registers inside a
dispatch, the rest of it (log 6). -/
def execDispatch (s : State) : StepOutcome :=
  enabledIn .dispatching s <|
    match s.work with
    | .scan _ => .refused .notEnabled
    | _ =>
      orFault (dispatchBuffers s) fun chb =>
        .next ((((s.setChbuf chb).setWork .idle).record (.renderReq chb)).setFsm .rendering)

/-- `RENDER_OK` (R114). -/
def execRenderOk (s : State) : StepOutcome :=
  enabledIn .rendering s (.next ((s.record (.input (.renderResp true))).setFsm .pacedIdle))

/-- `RENDER_FAIL` (R115). -/
def execRenderFail (s : State) : StepOutcome :=
  enabledIn .rendering s (raiseFatal .renderError (s.record (.input (.renderResp false))))

/-- `PACE` (R116): no clock, so the delay has elapsed whenever the step is taken (D17, log 17). -/
def execPace (s : State) : StepOutcome := enabledIn .pacedIdle s (loopHead s)

/-- `CANCEL` (R117), accepted in every state. -/
def execCancel (s : State) : StepOutcome :=
  .next ((s.setLooping (loopingAfterCancel s)).record (.input .cancel))

/-- `FINALIZE` (R118), at most once. -/
def execFinalize (s : State) : StepOutcome :=
  enabledIn .shutdown s <|
    if s.finalized then .refused .notEnabled
    else .next (((s.record .finalizeReq).setFinalized true).setFsm .halted)

end Sys2Proof.Machine
end

