-- ==== Sys2Proof/Machine/Dispatch.lean ====
section
/-! DEFINITION. One arm per row of spec/opcode_table.json. -/

namespace Sys2Proof.Machine

def exec (i : Instr) (s : State) : Host.Outcome State Fault Refusal :=
  match i with
  | .len lo hi => Sys2Proof.Machine.execLen lo hi s
  | .termL hi => Sys2Proof.Machine.execTermL hi s
  | .termH lo => Sys2Proof.Machine.execTermH lo s
  | .pix r g b => Sys2Proof.Machine.execPix r g b s
  | .tail bytes => Sys2Proof.Machine.execTail bytes s
  | .dispatchCh c declared => Sys2Proof.Machine.execDispatchCh c declared s
  | .copyPx c k q => Sys2Proof.Machine.execCopyPx c k q s
  | .initReq => Sys2Proof.Machine.execInitReq s
  | .initOk => Sys2Proof.Machine.execInitOk s
  | .initFail => Sys2Proof.Machine.execInitFail s
  | .rxData r bytes => Sys2Proof.Machine.execRxData r bytes s
  | .rxShort r bytes => Sys2Proof.Machine.execRxShort r bytes s
  | .rxError r => Sys2Proof.Machine.execRxError r s
  | .decode => Sys2Proof.Machine.execDecode s
  | .dispatch => Sys2Proof.Machine.execDispatch s
  | .renderOk => Sys2Proof.Machine.execRenderOk s
  | .renderFail => Sys2Proof.Machine.execRenderFail s
  | .pace => Sys2Proof.Machine.execPace s
  | .cancel => Sys2Proof.Machine.execCancel s
  | .finalize => Sys2Proof.Machine.execFinalize s

end Sys2Proof.Machine
end

