-- ==== Sys2Proof/Machine/Fetch.lean ====
section
/-! DEFINITION. Which instruction the next step runs. Between control steps it is the block's enabled internal step or the
environment's next input (42_control.md R104, R119; log 5); inside a `DECODE` or a `DISPATCH` it is the next wire
element or micro-operation (40_decoder.md R78, 41_dispatch.md R93; log 6). Here too stands the placing of a given instruction
where the next step fetches it (log 13). -/

namespace Sys2Proof.Machine

/-- An instruction fetched, with the state it runs in; a model fault of the fetch's own read; or no step. -/
inductive Fetched where
  | run (i : Instr) (s : State)
  | fault (f : Fault)
  | stop (r : Refusal)
deriving DecidableEq, Repr

/-- The internal step enabled in each state of the control loop (R104, R119). -/
def internalStep (s : State) : Option Instr :=
  match s.fsm with
  | .init => some .initReq
  | .decoding => some .decode
  | .dispatching => some .dispatch
  | .pacedIdle => some .pace
  | .shutdown => if s.finalized then none else some .finalize
  | .initWait => none
  | .waitingForPacket => none
  | .rendering => none
  | .halted => none

/-- A receive result keeps the socket's duties; other inputs have none (R121). -/
def inputOnDuty (p : Params) : PortInput → Bool
  | .rx r bytes => dutyKept p r bytes
  | _ => true

/-- The move is due before the internal step of a state. -/
def Offer.due (o : Offer) (f : Fsm) : Bool := o.before == some f

/-- Take the environment's next move. -/
def fetchOffer (o : Offer) (rest : List Offer) (s : State) : Fetched :=
  if inputOnDuty s.cfg o.input then .run (classifyInput o.input) (s.setInputs rest) else .stop .hostDuty

/-- Nothing to do: the run has ended, or the block waits for its environment (R120, R123, U19, U20). -/
def nothingEnabled (s : State) : Refusal := if s.fsm = .halted then .runEnded else .awaitingHost

/-- The control step that comes next. A move that is due goes before the block's internal step; any other waits until the
block has none (R119). -/
def fetchControl (s : State) : Fetched :=
  match s.inputs with
  | [] =>
    match internalStep s with
    | some i => .run i s
    | none => .stop (nothingEnabled s)
  | o :: rest =>
    if o.due s.fsm then fetchOffer o rest s
    else
      match internalStep s with
      | some i => .run i s
      | none => fetchOffer o rest s

/-- The next element of a header scan; at its end, `DECODE` itself closes the scan (R78). -/
def fetchScan (r : ScanRegs) (s : State) : Fetched :=
  if r.terminated ∨ s.rxLen < 2 * r.c + 2 then .run .decode s
  else
    match readPair s.rxBuf s.rxLen r.c with
    | .ok (lo, hi) => .run (classifyPair lo hi) s
    | .error f => .fault f

/-- The next channel of a dispatch; after the last, `DISPATCH` itself closes it (R93). -/
def fetchDemux (c : Nat) (s : State) : Fetched :=
  if c < s.dec.nchan then .run (.dispatchCh c (s.dec.lengthAt c)) s else .run .dispatch s

/-- The next element of a channel's copy: the triple, then its copy; after the last slot, `DISPATCH_CH` itself closes it
(R94, R95). -/
def fetchCopy (k : CopyRegs) (s : State) : Fetched :=
  if k.i < k.m then
    match k.pixel with
    | some _ => .run (.copyPx k.c k.i (k.cursor + k.i)) s
    | none =>
      match readTriple s.rxBuf s.rxLen (tripleOffset s (k.cursor + k.i)) with
      | .ok (r, g, b) => .run (.pix r g b) s
      | .error f => .fault f
  else .run (.dispatchCh k.c k.declared) s

/-- The next instruction. -/
def fetch (s : State) : Fetched :=
  match s.work with
  | .idle => fetchControl s
  | .scan r => fetchScan r s
  | .demux c _ => fetchDemux c s
  | .copy k => fetchCopy k s

/-- The block between control steps, in a state of the control loop, with given pending moves. -/
def placeControl (f : Fsm) (offers : List Offer) (s : State) : State :=
  ((s.setFsm f).setWork .idle).setInputs offers

/-- The block inside a `DECODE`, before the first pair of a datagram that starts with the given bytes. -/
def placePair (lo hi : Byte) (s : State) : State :=
  ((s.setRx (s.rxBuf.writeBytes 0 [lo, hi, 0, 0]) 4).setFsm .decoding).setWork (.scan ⟨0, false, []⟩)

/-- The block inside a `DISPATCH_CH`, before the only triple of a payload that starts at offset 0. -/
def placeTriple (r g b : Byte) (s : State) : State :=
  (((s.setRx (s.rxBuf.writeBytes 0 [r, g, b, 0]) 4).setDec ⟨[1], 1, 1, false, 0, 1⟩).setFsm
    .dispatching).setWork (.copy ⟨0, 0, 1, 1, 0, none⟩)

/-- One move of the environment, made when the block waits. -/
def oneOffer (e : PortInput) : List Offer := [⟨e, none⟩]

/-- Place an instruction where the next step fetches it (log 13). A micro-operation and a tail stand in no stream that a
word could be placed in, and leave the state as it is. -/
def place (i : Instr) (s : State) : State :=
  match i with
  | .len lo hi => placePair lo hi s
  | .termL hi => placePair 0xFF hi s
  | .termH lo => placePair lo 0xFF s
  | .pix r g b => placeTriple r g b s
  | .tail _ => s
  | .dispatchCh _ _ => s
  | .copyPx _ _ _ => s
  | .initReq => placeControl .init [] s
  | .initOk => placeControl .initWait (oneOffer (.initResp true)) s
  | .initFail => placeControl .initWait (oneOffer (.initResp false)) s
  | .rxData r bytes => placeControl .waitingForPacket (oneOffer (.rx r bytes)) s
  | .rxShort r bytes => placeControl .waitingForPacket (oneOffer (.rx r bytes)) s
  | .rxError r => placeControl .waitingForPacket (oneOffer (.rx r [])) s
  | .decode => placeControl .decoding [] s
  | .dispatch => placeControl .dispatching [] s
  | .renderOk => placeControl .rendering (oneOffer (.renderResp true)) s
  | .renderFail => placeControl .rendering (oneOffer (.renderResp false)) s
  | .pace => placeControl .pacedIdle [] s
  | .cancel => placeControl s.fsm [⟨.cancel, some s.fsm⟩] s
  | .finalize => (placeControl .shutdown [] s).setFinalized false

end Sys2Proof.Machine
end

