-- ==== Sys2Proof/Machine/Step.lean ====
section
/-! DEFINITION. One step of the block: fetch, then run (00_scope.md R7, 42_control.md R104). -/

namespace Sys2Proof.Machine

/-- One step: the instruction that comes next, run in the state its fetch leaves. -/
def step (s : State) : Host.Outcome State Fault Refusal :=
  match fetch s with
  | .run i t => exec i t
  | .fault f => .fault f
  | .stop r => .refused r

/-- The state with the instruction of a table word placed where `step` fetches its next instruction; a word that is no
instruction changes nothing (log 12, log 13). -/
def State.withFetchWord (s : State) (nbits w : Nat) : State :=
  match decodeTableWord nbits w with
  | some i => place i s
  | none => s

end Sys2Proof.Machine
end

