-- ==== Sys2Proof/Machine/Script.lean ====
section
/-! DEFINITION. The notation for datagrams and stimulus scripts (30_encoding.md R73 to R75). Nothing in it is part of the
block (R73): it writes the bytes of a datagram, and the environment's moves of a script. -/

namespace Sys2Proof.Machine

/-- An item of a datagram (R73). -/
inductive Item where
  /-- `[b0, b1, ...]`. -/
  | bytes (bs : List Byte)
  /-- `HDR(L0, ..., Lk-1)`. -/
  | hdr (lengths : List Nat)
  /-- `LENS(L0, ..., Lk-1)`. -/
  | lens (lengths : List Nat)
  /-- `END`. -/
  | endL
  /-- `END.H`. -/
  | endH
  /-- `END.FF`. -/
  | endFF
  /-- `PX(r, g, b)`. -/
  | px (r g b : Byte)
  /-- `RAMP(m, s)`; `RAMP(m)` is `RAMP(m, 0)`. -/
  | ramp (m s : Nat)
  /-- `PAD(m)`. -/
  | pad (m : Nat)
deriving DecidableEq, Repr

/-- The pair of a length, low byte first; a length that no length field can carry is an assembly error (R61, R73). -/
def lengthPair (v : Nat) : Option (List Byte) :=
  if v < 65536 ∧ v % 256 ≠ 255 ∧ v / 256 ≠ 255 then some [BitVec.ofNat 8 v, BitVec.ofNat 8 (v / 256)] else none

/-- `LENS(...)` (R73). -/
def lengthPairs : List Nat → Option (List Byte)
  | [] => some []
  | v :: vs =>
    match lengthPair v, lengthPairs vs with
    | some a, some b => some (a ++ b)
    | _, _ => none

/-- `RAMP(m, s)` (R73). -/
def rampBytes : Nat → Nat → List Byte
  | 0, _ => []
  | m + 1, s => List.replicate 3 (BitVec.ofNat 8 s) ++ rampBytes m (s + 1)

/-- The bytes of an item (R73). -/
def Item.assemble : Item → Option (List Byte)
  | .bytes bs => some bs
  | .hdr ls => (lengthPairs ls).map fun bs => bs ++ [0xFF, 0x00]
  | .lens ls => lengthPairs ls
  | .endL => some [0xFF, 0x00]
  | .endH => some [0x00, 0xFF]
  | .endFF => some [0xFF, 0xFF]
  | .px r g b => some [r, g, b]
  | .ramp m s => some (rampBytes m s)
  | .pad m => some (List.replicate m 0x00)

/-- The bytes of a datagram written as items joined by `+` (R73). -/
def assemble : List Item → Option (List Byte)
  | [] => some []
  | x :: xs =>
    match x.assemble, assemble xs with
    | some a, some b => some (a ++ b)
    | _, _ => none

/-- A command of a stimulus script (R74). -/
inductive Command where
  | initOk
  | initFail
  /-- `RX(<datagram>)`. -/
  | rx (datagram : List Byte)
  /-- `RXERR`. -/
  | rxErr
  | renderOk
  | renderFail
  | cancel
deriving DecidableEq, Repr

/-- The input that a command offers (R74). -/
def Command.input (p : Params) : Command → PortInput
  | .initOk => .initResp true
  | .initFail => .initResp false
  | .rx datagram => socketDeliver p datagram
  | .rxErr => .rx (-1) []
  | .renderOk => .renderResp true
  | .renderFail => .renderResp false
  | .cancel => .cancel

/-- The environment's moves of a script: internal steps fire when enabled, so no move comes before one (R74, R119). -/
def scriptOffers (p : Params) (script : List Command) : List Offer :=
  script.map fun c => ⟨c.input p, none⟩

end Sys2Proof.Machine
end

