-- ==== Sys2Proof/Safety.lean ====
section
/-! DEFINITION. What counts as a safe run, in the terms the claims use: the invariant of the block, the end and the observation of a
run (42_control.md R122, R123), and two states that differ in hidden bytes only (10_state.md R34). -/

namespace Sys2Proof.Machine

/-- An outcome that is no model fault (60_exceptions.md R130). -/
def Faultless (o : StepOutcome) : Prop := ∀ f, o ≠ .fault f

/-- What `k` steps answer, the first stop included (R123). -/
def runSteps : Nat → State → StepOutcome
  | 0, s => .next s
  | k + 1, s =>
    match step s with
    | .next t => runSteps k t
    | .fault f => .fault f
    | .refused r => .refused r

/-- A run has ended (R123). -/
def State.ended (s : State) : Bool := s.fsm == .halted

/-- The observation of a run (R122): its event trace and the final channel buffers, exit status and `finalized`. -/
def State.observation (s : State) : List Event × ChannelBuffers × ExitStatus × Bool :=
  (s.trace, s.chbuf, s.exitStatus, s.finalized)

/-- The current datagram: the readable bytes of the receive buffer (R37). -/
def State.datagram (s : State) : List Byte := (List.range s.rxLen).map s.rxBuf.read

/-- `S(c)` (R96): the declared lengths of the channels before `c`. -/
def DecodedFrame.cursorAt (d : DecodedFrame) (c : Nat) : Nat := ((List.range c).map fun k => (d.lengthAt k).toNat).sum

/-- The state that the loop head leads to (R105): another read, or a clean exit. -/
def State.atLoopHead (s : State) : State :=
  if s.continueLooping then { s with fsm := .waitingForPacket }
  else { s with exitStatus := .clean, fsm := .shutdown }

/-- A length field. -/
def isLen : Instr → Bool
  | .len _ _ => true
  | _ => false

/-- A terminator of either class. -/
def isTerminator : Instr → Bool
  | .termL _ => true
  | .termH _ => true
  | _ => false

/-- A pixel triple. -/
def isPixel : Instr → Bool
  | .pix _ _ _ => true
  | _ => false

/-- The declared length of a length field (R59). -/
def declaredLength : Instr → Option HalfWord
  | .len lo hi => some (pairValue lo hi)
  | _ => none

/-- `m(c)` (R98): how many slots of channel `c` the current datagram writes. -/
def State.copied (s : State) (c : Nat) : Nat :=
  min (min (s.dec.lengthAt c).toNat (s.dec.total - s.dec.cursorAt c)) (s.cfg.capOf c)

/-- The number of `FINALIZE_REQ` outputs in a trace. -/
def finalizeCount (t : List Event) : Nat := t.countP fun e => e == .finalizeReq

/-- The number of receive results consumed in a trace. -/
def rxCount (t : List Event) : Nat :=
  t.countP fun e => match e with | .input (.rx _ _) => true | _ => false

/-- The number of consumed receive results of at least four bytes in a trace. -/
def rxDataCount (t : List Event) : Nat :=
  t.countP fun e => match e with | .input (.rx r _) => decide (4 ≤ r) | _ => false

/-- The number of `RENDER_REQ` outputs in a trace. -/
def renderCount (t : List Event) : Nat :=
  t.countP fun e => match e with | .renderReq _ => true | _ => false

/-- A datagram has been received and its render not yet requested. -/
def Fsm.renderOwed : Fsm → Bool
  | .decoding => true
  | .dispatching => true
  | _ => false

/-- The exits after which the block finalizes (R124(c)). -/
def State.exitFinalizes (s : State) : Bool :=
  s.exitStatus == .clean || (s.exitStatus == .renderError && s.cfg.finalizeOnFatal)

/-- The decoded-frame registers are those of the datagram in the receive buffer. -/
abbrev State.frameCurrent (s : State) : Prop :=
  decodeFrame s.cfg.maxChannels s.rxBuf s.rxLen = .ok (.ok s.dec)

/-- The frame lies inside the datagram, and its channels exist (R99). -/
structure FrameFits (s : State) : Prop where
  nchan : s.dec.nchan ≤ s.cfg.maxChannels
  payload : s.dec.offset + 3 * s.dec.total ≤ s.rxLen

/-- The scan registers stand inside the scan of the current datagram (log 6). -/
abbrev State.scanPlaced (s : State) (r : ScanRegs) : Prop :=
  s.fsm = .decoding ∧ 2 * (r.c + r.terminated.toNat) ≤ s.rxLen ∧
    decodeFrom s.cfg.maxChannels s.rxBuf s.rxLen r = decodeFrame s.cfg.maxChannels s.rxBuf s.rxLen

/-- The dispatch stands before channel `c` (log 6). -/
abbrev State.demuxPlaced (s : State) (c cursor : Nat) : Prop :=
  s.fsm = .dispatching ∧ c ≤ s.dec.nchan ∧ cursor = s.dec.cursorAt c

/-- The copy registers stand inside a channel of the current datagram (log 6, log 21). -/
abbrev State.copyPlaced (s : State) (k : CopyRegs) : Prop :=
  s.fsm = .dispatching ∧ k.c < s.dec.nchan ∧ k.declared = s.dec.lengthAt k.c ∧
    k.cursor = s.dec.cursorAt k.c ∧ k.m = copyCount s k.c k.declared k.cursor ∧ k.i ≤ k.m

/-- The working registers belong to the step the block is in (log 6). -/
def State.workPlaced (s : State) : Prop :=
  match s.work with
  | .idle => True
  | .scan r => s.scanPlaced r
  | .demux c cursor => s.demuxPlaced c cursor
  | .copy k => s.copyPlaced k

/-- The invariant of the block. -/
structure State.Inv (s : State) : Prop where
  /-- The parameters are legal (R31). -/
  cfgLegal : s.cfg.wf
  /-- The receive buffer's memory is in canonical form. -/
  rxCanonical : s.rxBuf.wf
  /-- The receive buffer has `MESSAGE_SIZE` bytes (R22). -/
  rxInside : ∀ x ∈ s.rxBuf, x.1 < s.cfg.messageSize
  /-- `rx_len <= MESSAGE_SIZE` (R23). -/
  rxLenInside : s.rxLen ≤ s.cfg.messageSize
  /-- Buffer `c` has `CAP[c]` slots (R28, R30). -/
  chbShaped : s.cfg.fits s.chbuf
  /-- `exit_status` is set exactly when the loop has ended (R20). -/
  exitMatches : s.exitStatus = .none ↔ s.fsm.loopEnded = false
  /-- `CLEAN` records that the loop head saw `continue_looping = 0` (R20). -/
  cleanMeansCancelled : s.exitStatus = .clean → s.continueLooping = false
  /-- Nothing is finalized before `HALTED` (R21). -/
  finalizedLate : s.fsm ≠ .halted → s.finalized = false
  /-- `SHUTDOWN` is entered only by an exit that finalizes (R105, R115). -/
  shutdownFinalizes : s.fsm = .shutdown → s.exitFinalizes = true
  /-- A run that has ended has finalized exactly after those exits (R124(c)). -/
  haltedFinalized : s.fsm = .halted → s.finalized = s.exitFinalizes
  /-- One `FINALIZE_REQ` once finalized, none before (R21, R124(c)). -/
  finalizeOnce : finalizeCount s.trace = s.finalized.toNat
  /-- Each decoded datagram has its render requested (R124(a)). -/
  renderEach : rxDataCount s.trace = renderCount s.trace + s.fsm.renderOwed.toNat
  /-- `DECODING` holds a datagram of at least four bytes (R112, R127). -/
  decodingLong : s.fsm = .decoding → 4 ≤ s.rxLen
  /-- `DISPATCHING` holds the frame of its datagram (R112). -/
  dispatchingCurrent : s.fsm = .dispatching → s.frameCurrent
  /-- The working registers are in place. -/
  workInPlace : s.workPlaced

/-- Two states that differ at most in bytes of `rx_buf` at or beyond `rx_len` (R34(b)). -/
def State.agreeVisible (s t : State) : Prop :=
  t = s.setRx t.rxBuf s.rxLen ∧ ∀ i, i < s.rxLen → t.rxBuf.read i = s.rxBuf.read i

end Sys2Proof.Machine
end

