-- ==== Sys2Proof/Certificates/Slice0/Obligations.lean ====
section
/-! DEFINITION. The statements for the provers. Each docstring names the rule of spec/ that the statement formalises. A next
state is written as the old one with the fields that change, so every field not named is unchanged. -/

open Sys2Proof Sys2Proof.Machine

/-! ### Encoding -/

/-- 30_encoding.md R58 to R66, R72: an element written is read back, whatever follows it; a tail is read back as all that is left.
The byte form of a port event beyond its kind code is the model's choice (log 11). -/
def Obligations.DecodeOfEncode : Prop :=
  (∀ (p : Params) (i : Instr) (bs rest : List Byte), i.wellFormed p = true → encodable i = true →
    i.stream ≠ .tail → encode i = some bs → decode i.stream (bs ++ rest) = .ok (i, rest)) ∧
  (∀ (p : Params) (bytes : List Byte), (Instr.tail bytes).wellFormed p = true →
    encode (.tail bytes) = some bytes ∧ decode .tail bytes = .ok (.tail bytes, []))

/-- 30_encoding.md R58, R69: every byte string is a datagram of well-formed elements, whose bytes in order are the
datagram. -/
def Obligations.DatagramElementsRoundTrip : Prop :=
  ∀ (p : Params) (datagram : List Byte),
    ((elements datagram).map fun i => (encode i).getD []).flatten = datagram ∧
    ∀ i ∈ elements datagram, i.wellFormed p = true

/-- 30_encoding.md R60: the class of a pair, first match wins, and its masks on the pair's value; the two terminators have the
same effect. -/
def Obligations.HeaderPairClasses : Prop :=
  ∀ lo hi : Byte,
    (lo = 0xFF → classifyPair lo hi = .termL hi) ∧
    (lo ≠ 0xFF → hi = 0xFF → classifyPair lo hi = .termH lo) ∧
    (lo ≠ 0xFF → hi ≠ 0xFF → classifyPair lo hi = .len lo hi) ∧
    (pairValue lo hi &&& 0x00FF = 0x00FF ↔ lo = 0xFF) ∧ (pairValue lo hi &&& 0xFF00 = 0xFF00 ↔ hi = 0xFF) ∧
    ∀ s : State, exec (.termL hi) s = exec (.termH lo) s

/-- 30_encoding.md R67: the class of a receive result by its value; a delivered datagram has at most `MESSAGE_SIZE` bytes. -/
def Obligations.ReceiveResultClasses : Prop :=
  (∀ (r : Int) (bytes : List Byte),
    (r < 0 → classifyInput (.rx r bytes) = .rxError r) ∧
    (0 ≤ r ∧ r ≤ 3 → classifyInput (.rx r bytes) = .rxShort r bytes) ∧
    (4 ≤ r → classifyInput (.rx r bytes) = .rxData r bytes)) ∧
  (∀ (p : Params) (datagram : List Byte), inputOnDuty p (socketDeliver p datagram) = true)

/-- Words written out from the spec's encodings (R60, R65, R72; 95_test_vectors.md V2.1, V2.2). R72 gives a port event its 4-bit kind
code alone; that the code stands in the low bits of one byte, the ok bit at bit 4 and `r` after it in four bytes is the model's choice
(log 11, DESIGN CHOICE). -/
def Obligations.DecodedWords : Prop :=
  decode .header [0x0A, 0x00] = .ok (.len 0x0A 0x00, []) ∧
  decode .header [0xFF, 0x00] = .ok (.termL 0x00, []) ∧
  decode .header [0xFE, 0xFF] = .ok (.termH 0xFE, []) ∧
  decode .payload [0x12, 0x34, 0x56] = .ok (.pix 0x12 0x34 0x56, []) ∧
  decode .port [0x11] = .ok (.initOk, []) ∧
  decode .port [0x01] = .ok (.initFail, []) ∧
  decode .port [0x02, 0x04, 0x00, 0x00, 0x00, 0xFF, 0x00, 0x07, 0x09] = .ok (.rxData 4 [0xFF, 0x00, 0x07, 0x09], []) ∧
  decode .port [0x02, 0x01, 0x00, 0x00, 0x00, 0x2A] = .ok (.rxShort 1 [0x2A], []) ∧
  decode .port [0x02, 0xFF, 0xFF, 0xFF, 0xFF] = .ok (.rxError (-1), []) ∧
  decode .port [0x13] = .ok (.renderOk, []) ∧
  decode .port [0x03] = .ok (.renderFail, []) ∧
  decode .port [0x04] = .ok (.cancel, []) ∧
  decode .port [0x08] = .ok (.initReq, []) ∧
  decode .port [0x09] = .ok (.dispatch, []) ∧
  decode .port [0x0A] = .ok (.finalize, [])

/-! ### Operands and memory -/

/-- 30_encoding.md R59: the value of the pair at `2c` is its first byte plus 256 times its second, unsigned. -/
def Obligations.PairValueLittleEndian : Prop :=
  (∀ lo hi : Byte, (pairValue lo hi).toNat = lo.toNat + 256 * hi.toNat) ∧
  (∀ (buf : Memory) (n c : Nat), 2 * c + 2 ≤ n →
    readPair buf n c = .ok (buf.read (2 * c), buf.read (2 * c + 1)))

/-- 30_encoding.md R65: the fields of the pixel word, and every triple is a pixel. -/
def Obligations.PixelWordFields : Prop :=
  ∀ r g b : Byte,
    (pixelWord r g b).extractLsb' 16 8 = r ∧ (pixelWord r g b).extractLsb' 8 8 = g ∧
    (pixelWord r g b).extractLsb' 0 8 = b ∧ (pixelWord r g b).extractLsb' 24 8 = 0 ∧
    ∀ rest : List Byte, decode .payload (r :: g :: b :: rest) = .ok (.pix r g b, rest)

/-- 00_scope.md R12: reads of `RX` below `rx_len` answer the byte and others fault; a word written to a slot that exists is
read back and leaves every other slot alone; a write to a slot that does not exist faults `CHB_OOB`. That a READ of such a slot
faults alike is the model's choice (log 14, DESIGN CHOICE): R12 gives that fault to writes only. -/
def Obligations.MemoryPrimitives : Prop :=
  (∀ (buf : Memory) (n i : Nat),
    (i < n → memReadRx buf n i = .ok (buf.read i)) ∧ (n ≤ i → memReadRx buf n i = .error .rxOob)) ∧
  (∀ (p : Params) (chb : ChannelBuffers) (c i : Nat) (v : Word), p.wf → p.fits chb →
    (c < p.maxChannels ∧ i < p.capOf c →
      ∃ chb', memWriteChb p chb c i v = .ok chb' ∧ p.fits chb' ∧ memReadChb p chb' c i = .ok v ∧
        ∀ c' i', (c' ≠ c ∨ i' ≠ i) → memReadChb p chb' c' i' = memReadChb p chb c' i') ∧
    (¬ (c < p.maxChannels ∧ i < p.capOf c) →
      memWriteChb p chb c i v = .error .chbOob ∧ memReadChb p chb c i = .error .chbOob))

/-- 20_memory.md R48: a receive result of `n` bytes writes bytes `0 .. n-1` and `rx_len`, and leaves every other byte; a failed
read writes neither. -/
def Obligations.ReceiveWritesPrefix : Prop :=
  (∀ (s t : State) (r : Int) (bytes : List Byte), s.rxBuf.wf →
    (exec (.rxData r bytes) s = .next t ∨ exec (.rxShort r bytes) s = .next t) →
    t.rxLen = bytes.length ∧
    ∀ i, t.rxBuf.read i = if h : i < bytes.length then bytes[i] else s.rxBuf.read i) ∧
  (∀ (s t : State) (r : Int), exec (.rxError r) s = .next t → t.rxBuf = s.rxBuf ∧ t.rxLen = s.rxLen)

/-- 20_memory.md R47: a longer datagram is delivered as its first `MESSAGE_SIZE` bytes, with that length as its result, and
cannot be told from a datagram of exactly those bytes. -/
def Obligations.SocketTruncates : Prop :=
  ∀ (p : Params) (datagram : List Byte), p.messageSize ≤ datagram.length →
    socketDeliver p datagram = .rx p.messageSize (datagram.take p.messageSize) ∧
    socketDeliver p datagram = socketDeliver p (datagram.take p.messageSize)

/-! ### Reset and the status view -/

/-- 70_reset_and_hazards.md R143: the reset state for the parameters and initial pixels that the model is given; no output event;
and the parameters stay: no step from any state changes them, so no run does, whatever moves the environment makes. -/
def Obligations.ResetState : Prop :=
  ∀ (p : Params) (pixels : List (List Word)), p.wf → p.fits pixels →
    (State.resetWith p pixels).fsm = .init ∧ (State.resetWith p pixels).continueLooping = true ∧
    (State.resetWith p pixels).finalized = false ∧ (State.resetWith p pixels).exitStatus = .none ∧
    (State.resetWith p pixels).trace = [] ∧ (State.resetWith p pixels).cfg = p ∧
    (∀ c i, c < p.maxChannels → i < p.capOf c →
      ∃ row w, pixels[c]? = some row ∧ row[i]? = some w ∧
        memReadChb p (State.resetWith p pixels).chbuf c i = .ok w) ∧
    (∀ s t : State, step s = .next t → t.cfg = s.cfg) ∧
    ∀ (moves : List Offer) (n : Nat) (s : State),
      runSteps n { State.resetWith p pixels with inputs := moves } = .next s → s.cfg = p

/-- The invariant holds right after reset, for every legal choice of the parameters, so for `State.reset` too (10_state.md R36; the
values of `rx_len` and `dec.*` are the model's choice, log 2). -/
def Obligations.ResetMeetsInvariant : Prop :=
  State.reset.Inv ∧
  ∀ (p : Params) (pixels : List (List Word)), p.wf → p.fits pixels → (State.resetWith p pixels).Inv

/-- 10_state.md R32: the fields of the status view, with the codes of `fsm` (R17), and its value after reset. -/
def Obligations.StatusViewFields : Prop :=
  [Fsm.init, .initWait, .waitingForPacket, .decoding, .dispatching, .rendering, .pacedIdle, .shutdown, .halted].map
    Fsm.code = [0, 1, 2, 3, 4, 5, 6, 7, 8] ∧
  (∀ s : State,
    s.statusView.extractLsb' 0 4 = s.fsm.code ∧ s.statusView.getLsbD 4 = s.continueLooping ∧
    s.statusView.getLsbD 5 = s.finalized ∧ s.statusView.extractLsb' 6 2 = s.exitStatus.code) ∧
  State.reset.statusView = 0x10

/-! ### Header elements -/

/-- 40_decoder.md R79: a length field is kept while `c < MAX_CHANNELS`, counted always, and the scan goes on. That it
acts so with any bytes, not the pair at `2c` alone, is the model's choice (log 24, DESIGN CHOICE). -/
def Obligations.LenResult : Prop :=
  ∀ (s : State) (r : ScanRegs) (lo hi : Byte), s.work = .scan r → r.terminated = false →
    exec (.len lo hi) s = .next { s with
      work := .scan ⟨r.c + 1, false,
        if r.c < s.cfg.maxChannels then r.lengths ++ [pairValue lo hi] else r.lengths⟩ }

/-- 40_decoder.md R80, R81: a terminator of either class stops the scan, is no length, and does not advance `c`. That it
acts so with any byte, at any place in the scan, is the model's choice (log 24, DESIGN CHOICE). -/
def Obligations.TerminatorResult : Prop :=
  ∀ (s : State) (r : ScanRegs) (b : Byte), s.work = .scan r → r.terminated = false →
    exec (.termL b) s = .next { s with work := .scan { r with terminated := true } } ∧
    exec (.termH b) s = .next { s with work := .scan { r with terminated := true } }

/-- 40_decoder.md R90: the two spellings of the stop test are one test, and the scan stops exactly on it. -/
def Obligations.SentinelTestsAgree : Prop :=
  ∀ (maxCh : Nat) (lo hi : Byte) (r : ScanRegs),
    sentinelHit lo hi = !(lo != 0xFF && hi != 0xFF) ∧
    (scanPair maxCh lo hi r).terminated = (r.terminated || sentinelHit lo hi)

/-- 42_control.md R112 with 40_decoder.md R78 to R88: the frame that `DECODE` writes, and that it writes nothing else. -/
def Obligations.DecodeResult : Prop :=
  ∀ s : State, s.fsm = .decoding → s.work = .idle → 4 ≤ s.rxLen →
    ∃ d : DecodedFrame, exec .decode s = .next { s with dec := d, fsm := .dispatching } ∧
      (∀ c, c < d.npairs → 2 * c + 2 ≤ s.rxLen ∧ s.rxBuf.read (2 * c) ≠ 0xFF ∧ s.rxBuf.read (2 * c + 1) ≠ 0xFF) ∧
      (d.terminated = true → 2 * d.npairs + 2 ≤ s.rxLen ∧
        (s.rxBuf.read (2 * d.npairs) = 0xFF ∨ s.rxBuf.read (2 * d.npairs + 1) = 0xFF)) ∧
      (d.terminated = false → s.rxLen < 2 * d.npairs + 2) ∧
      d.nchan = min d.npairs s.cfg.maxChannels ∧ d.lengths.length = d.nchan ∧
      (∀ c, c < d.nchan →
        (d.lengths.getD c 0).toNat = (s.rxBuf.read (2 * c)).toNat + 256 * (s.rxBuf.read (2 * c + 1)).toNat) ∧
      d.offset = 2 * (d.npairs + d.terminated.toNat) ∧ d.total = (s.rxLen - d.offset) / 3

/-- 42_control.md R112, 60_exceptions.md R125, R126: fewer than four bytes make the decode function answer `TooShort`, code 1; the
dead branch of `DECODE` drops such a datagram and runs the loop head; the codes of the drops. -/
def Obligations.DecodeDropsShort : Prop :=
  (∀ (maxCh : Nat) (buf : Memory) (n : Nat), n < 4 → decodeFrame maxCh buf n = .ok (.error .tooShort)) ∧
  DecodeError.tooShort.code = 1 ∧ [DropReason.rxError, .empty, .tooShort].map DropReason.code = [1, 2, 3] ∧
  ∀ s : State, s.fsm = .decoding → s.work = .idle → s.rxLen < 4 →
    (s.continueLooping = false → s.exitStatus = .none) → exec .decode s = .next s.atLoopHead

/-- 30_encoding.md R58, R63, 40_decoder.md R83, R84, R87: the decode function answers the datagram's own elements: its length
fields, whether it has a terminator, the bytes of its header, and its whole triples. -/
def Obligations.DecodeMatchesElements : Prop :=
  ∀ (maxCh : Nat) (buf : Memory) (n : Nat), 4 ≤ n →
    ∃ f : DecodedFrame, decodeFrame maxCh buf n = .ok (.ok f) ∧
      f.npairs = (elements ((List.range n).map buf.read)).countP isLen ∧
      f.terminated = (elements ((List.range n).map buf.read)).any isTerminator ∧
      f.offset = 2 * (headerElements ((List.range n).map buf.read)).1.length ∧
      f.total = (elements ((List.range n).map buf.read)).countP isPixel ∧
      f.lengths = ((elements ((List.range n).map buf.read)).filterMap declaredLength).take maxCh ∧
      f.nchan = f.lengths.length

/-- 40_decoder.md R91(a) to (h): the laws of a decoded frame. Bytes from the payload offset on change nothing in it, and
`MAX_CHANNELS` changes only how many lengths are kept. -/
def Obligations.DecodeLaws : Prop :=
  ∀ (maxCh : Nat) (buf : Memory) (n : Nat), 4 ≤ n →
    ∃ f : DecodedFrame, decodeFrame maxCh buf n = .ok (.ok f) ∧
      f.offset = 2 * (f.npairs + f.terminated.toNat) ∧ 2 ≤ f.offset ∧ f.offset ≤ n ∧
      (f.terminated = false → n - 1 ≤ f.offset ∧ f.total = 0) ∧
      f.offset + 3 * f.total ≤ n ∧ n < f.offset + 3 * f.total + 3 ∧
      f.nchan = min f.npairs maxCh ∧ f.nchan ≤ maxCh ∧ f.lengths.length = f.nchan ∧
      (∀ v ∈ f.lengths, v.extractLsb' 0 8 ≠ (0xFF : Byte) ∧ v.extractLsb' 8 8 ≠ (0xFF : Byte) ∧ v.toNat ≤ 0xFEFE) ∧
      (∀ buf' : Memory, (∀ i, i < f.offset → buf'.read i = buf.read i) →
        decodeFrame maxCh buf' n = .ok (.ok f)) ∧
      ∀ maxCh' : Nat, ∃ f' : DecodedFrame, decodeFrame maxCh' buf n = .ok (.ok f') ∧
        f'.npairs = f.npairs ∧ f'.terminated = f.terminated ∧ f'.offset = f.offset ∧ f'.total = f.total ∧
        ∀ c, c < min f.nchan f'.nchan → f'.lengths[c]? = f.lengths[c]?

/-! ### Payload elements and the demultiplexer -/

/-- 40_decoder.md R85: a triple in a channel's copy is assembled into its word, and nothing else changes. Where the word is kept is
the model's choice (log 21), and so is that any bytes are assembled so in every state of a copy (log 24, DESIGN CHOICE). -/
def Obligations.PixResult : Prop :=
  ∀ (s : State) (k : CopyRegs) (r g b : Byte), s.work = .copy k →
    ∃ w : Word, exec (.pix r g b) s = .next { s with work := .copy { k with pixel := some w } } ∧
      w.toNat = r.toNat * 65536 + g.toNat * 256 + b.toNat

/-- 40_decoder.md R86, 30_encoding.md R66: a tail has no effect, and its bytes are never read: no byte after the last whole triple
changes what `DISPATCH` writes. R86 gives a tail no step; that `TAIL` answers the same state in every state is the model's reading
(log 20, DEDUCED). -/
def Obligations.TailResult : Prop :=
  (∀ (s : State) (bytes : List Byte), exec (.tail bytes) s = .next s) ∧
  (∀ (s : State) (buf : Memory), s.work = .idle → FrameFits s →
    (∀ i, i < s.dec.offset + 3 * s.dec.total → buf.read i = s.rxBuf.read i) →
    dispatchBuffers { s with rxBuf := buf } = dispatchBuffers s)

/-- 41_dispatch.md R95: one triple's word into slot `i`, every other slot as before. -/
def Obligations.CopyPixelResult : Prop :=
  ∀ (s : State) (k : CopyRegs), s.work = .copy k → k.i < k.m → s.cfg.wf → s.cfg.fits s.chbuf →
    k.c < s.cfg.maxChannels → k.m ≤ s.cfg.capOf k.c →
    s.dec.offset + 3 * (k.cursor + k.i) + 3 ≤ s.rxLen →
    ∃ chb : ChannelBuffers,
      exec (.copyPx k.c k.i (k.cursor + k.i)) s =
        .next { s with chbuf := chb, work := .copy { k with i := k.i + 1, pixel := none } } ∧
      s.cfg.fits chb ∧
      ∀ c i, memReadChb s.cfg chb c i =
        if c = k.c ∧ i = k.i then
          .ok (pixelWord (s.rxBuf.read (s.dec.offset + 3 * (k.cursor + k.i)))
            (s.rxBuf.read (s.dec.offset + 3 * (k.cursor + k.i) + 1))
            (s.rxBuf.read (s.dec.offset + 3 * (k.cursor + k.i) + 2)))
        else memReadChb s.cfg s.chbuf c i

/-- 41_dispatch.md R94, R96, R98: one channel's copies, clamped by its declared length, payload and capacity; every other slot as
before; the cursor advances by the declared length. -/
def Obligations.DispatchChannelResult : Prop :=
  ∀ (s : State) (c cursor : Nat) (declared : HalfWord), s.work = .demux c cursor → c < s.dec.nchan →
    declared = s.dec.lengthAt c → s.cfg.wf → s.cfg.fits s.chbuf → FrameFits s →
    ∃ chb : ChannelBuffers,
      exec (.dispatchCh c declared) s =
        .next { s with chbuf := chb, work := .demux (c + 1) (cursor + declared.toNat) } ∧
      s.cfg.fits chb ∧
      ∀ c' i, memReadChb s.cfg chb c' i =
        if c' = c ∧ i < min (min declared.toNat (s.dec.total - cursor)) (s.cfg.capOf c) then pixelAt s (cursor + i)
        else memReadChb s.cfg s.chbuf c' i

/-- 42_control.md R113 with 41_dispatch.md R97, R98, R100: what `DISPATCH` leaves in every slot, and the render request with a
snapshot of all of them. -/
def Obligations.DispatchResult : Prop :=
  ∀ s : State, s.fsm = .dispatching → s.work = .idle → s.cfg.wf → s.cfg.fits s.chbuf → FrameFits s →
    ∃ chb : ChannelBuffers,
      exec .dispatch s = .next { s with chbuf := chb, fsm := .rendering, trace := s.trace ++ [.renderReq chb] } ∧
      s.cfg.fits chb ∧
      ∀ c i, memReadChb s.cfg chb c i =
        if c < s.dec.nchan ∧ i < s.copied c then pixelAt s (s.dec.cursorAt c + i)
        else memReadChb s.cfg s.chbuf c i

/-- 41_dispatch.md R103: dispatching the same datagram twice leaves the buffers as after the first dispatch. -/
def Obligations.DispatchIdempotent : Prop :=
  ∀ (s t : State) (rest : List Event), s.work = .idle → s.cfg.wf → s.cfg.fits s.chbuf → FrameFits s →
    exec .dispatch s = .next t →
    exec .dispatch { t with fsm := .dispatching, trace := rest } = .next { t with trace := rest ++ [.renderReq t.chbuf] }

/-- 41_dispatch.md R101: the slices of different channels do not overlap, each channel copies only triples that the payload
holds, and all channels together copy no more than it holds. -/
def Obligations.SlicesDisjoint : Prop :=
  ∀ s : State,
    (∀ c c', c < c' → s.dec.cursorAt c + (s.dec.lengthAt c).toNat ≤ s.dec.cursorAt c') ∧
    (∀ c, s.copied c ≤ (s.dec.lengthAt c).toNat ∧ s.copied c ≤ s.dec.total - s.dec.cursorAt c) ∧
    (∀ c c' i i', i < s.copied c → i' < s.copied c' → s.dec.cursorAt c + i = s.dec.cursorAt c' + i' →
      c = c' ∧ i = i') ∧
    ((List.range s.dec.nchan).map s.copied).sum ≤ s.dec.total

/-- 41_dispatch.md R102 with 30_encoding.md R58: a sender's well-formed datagram, received, decoded and dispatched, puts pixel `j` of
channel `c` into slot `j` of buffer `c`, as far as the buffer goes, and leaves every other slot. -/
def Obligations.WellFormedDatagramDelivered : Prop :=
  ∀ (s : State) (lengths : List Nat) (pixels : List (List (Byte × Byte × Byte))) (bytes : List Byte), s.Inv →
    s.fsm = .waitingForPacket → s.work = .idle →
    assemble [.hdr lengths, .bytes (pixels.flatten.flatMap fun x => [x.1, x.2.1, x.2.2])] = some bytes →
    pixels.map List.length = lengths → lengths.length ≤ s.cfg.maxChannels →
    4 ≤ bytes.length → bytes.length ≤ s.cfg.messageSize →
    ∃ t u v : State, exec (.rxData bytes.length bytes) s = .next t ∧ exec .decode t = .next u ∧
      exec .dispatch u = .next v ∧
      ∀ c j, memReadChb s.cfg v.chbuf c j =
        if j < s.cfg.capOf c then
          match (pixels.getD c [])[j]? with
          | some x => .ok (pixelWord x.1 x.2.1 x.2.2)
          | none => memReadChb s.cfg s.chbuf c j
        else .error .chbOob

/-! ### Control steps -/

/-- 42_control.md R106. -/
def Obligations.InitReqResult : Prop :=
  ∀ s : State, s.fsm = .init →
    exec .initReq s = .next { s with fsm := .initWait, trace := s.trace ++ [.initReq s.cfg.channelConfig] }

/-- 42_control.md R107, R105. -/
def Obligations.InitOkResult : Prop :=
  ∀ s : State, s.fsm = .initWait → (s.continueLooping = false → s.exitStatus = .none) →
    exec .initOk s =
      .next ({ s with trace := s.trace ++ [.input (.initResp true)] } : State).atLoopHead

/-- 42_control.md R108, 60_exceptions.md R128. -/
def Obligations.InitFailResult : Prop :=
  ∀ s : State, s.fsm = .initWait → s.exitStatus = .none →
    exec .initFail s =
      .next { s with fsm := .halted, exitStatus := .initError,
                     trace := s.trace ++ [.input (.initResp false)] }

/-- 42_control.md R109. -/
def Obligations.RxDataResult : Prop :=
  ∀ (s : State) (bytes : List Byte), s.fsm = .waitingForPacket → 4 ≤ bytes.length →
    bytes.length ≤ s.cfg.messageSize →
    exec (.rxData bytes.length bytes) s =
      .next { s with rxBuf := s.rxBuf.writeBytes 0 bytes, rxLen := bytes.length, fsm := .decoding,
                     trace := s.trace ++ [.input (.rx bytes.length bytes)] }

/-- 42_control.md R110, 60_exceptions.md R126: a short datagram is dropped without a render and without touching a channel buffer. -/
def Obligations.RxShortResult : Prop :=
  ∀ (s : State) (bytes : List Byte), s.fsm = .waitingForPacket → bytes.length ≤ 3 →
    bytes.length ≤ s.cfg.messageSize → (s.continueLooping = false → s.exitStatus = .none) →
    exec (.rxShort bytes.length bytes) s =
      .next ({ s with rxBuf := s.rxBuf.writeBytes 0 bytes, rxLen := bytes.length,
                      trace := s.trace ++ [.input (.rx bytes.length bytes)] } : State).atLoopHead

/-- 42_control.md R111, 60_exceptions.md R126: a failed read is dropped; the receive buffer is not written. -/
def Obligations.RxErrorResult : Prop :=
  ∀ (s : State) (r : Int), s.fsm = .waitingForPacket → r < 0 →
    (s.continueLooping = false → s.exitStatus = .none) →
    exec (.rxError r) s = .next ({ s with trace := s.trace ++ [.input (.rx r [])] } : State).atLoopHead

/-- 42_control.md R114. -/
def Obligations.RenderOkResult : Prop :=
  ∀ s : State, s.fsm = .rendering →
    exec .renderOk s = .next { s with fsm := .pacedIdle, trace := s.trace ++ [.input (.renderResp true)] }

/-- 42_control.md R115, 60_exceptions.md R128, R133(c): the exit is `RENDER_ERROR` whether or not a cancellation is pending. -/
def Obligations.RenderFailResult : Prop :=
  ∀ s : State, s.fsm = .rendering → s.exitStatus = .none →
    exec .renderFail s =
      .next { s with fsm := if s.cfg.finalizeOnFatal then .shutdown else .halted, exitStatus := .renderError,
                     trace := s.trace ++ [.input (.renderResp false)] }

/-- 42_control.md R116, R105. -/
def Obligations.PaceResult : Prop :=
  ∀ s : State, s.fsm = .pacedIdle → (s.continueLooping = false → s.exitStatus = .none) →
    exec .pace s = .next s.atLoopHead

/-- 42_control.md R117: accepted in every state; the flag is cleared except where the loop has ended. That a `CANCEL` taken in
`SHUTDOWN` or `HALTED` has an entry in the trace is the model's reading (log 7, DEDUCED). -/
def Obligations.CancelResult : Prop :=
  ∀ s : State,
    exec .cancel s =
      .next { s with
        continueLooping := if s.fsm = .shutdown ∨ s.fsm = .halted then s.continueLooping else false
        trace := s.trace ++ [.input .cancel] }

/-- 42_control.md R118, 10_state.md R21: enabled while not finalized, and only then. -/
def Obligations.FinalizeResult : Prop :=
  ∀ s : State, s.fsm = .shutdown →
    (s.finalized = false →
      exec .finalize s =
        .next { s with fsm := .halted, finalized := true, trace := s.trace ++ [.finalizeReq] }) ∧
    (s.finalized = true → exec .finalize s = .refused .notEnabled)

/-- 42_control.md R104, R119: a control step other than `CANCEL` has no step outside its `From` state, `DECODE` none inside a dispatch
and `DISPATCH` none inside a scan; the elements have none outside the working registers they act on: a header element outside an
open scan, `PIX` and `COPY_PX` outside a copy, `DISPATCH_CH` outside a dispatch; 41_dispatch.md R94, R95: nor have the
micro-operations one with other operands than the channel, its declared length, the slot and the triple that the dispatch or the
copy stands at (log 6, log 8). A tail, which has no effect, is apart (log 20). -/
def Obligations.StepsOnlyWhereEnabled : Prop :=
  (∀ (s : State) (x : Fsm × Instr),
    x ∈ [(Fsm.init, Instr.initReq), (.initWait, .initOk), (.initWait, .initFail), (.decoding, .decode),
      (.dispatching, .dispatch), (.rendering, .renderOk), (.rendering, .renderFail), (.pacedIdle, .pace),
      (.shutdown, .finalize)] →
    s.fsm ≠ x.1 → exec x.2 s = .refused .notEnabled) ∧
  (∀ (s : State) (r : Int) (bytes : List Byte), s.fsm ≠ .waitingForPacket →
    exec (.rxData r bytes) s = .refused .notEnabled ∧ exec (.rxShort r bytes) s = .refused .notEnabled ∧
    exec (.rxError r) s = .refused .notEnabled) ∧
  (∀ s : State, (∀ r, s.work ≠ .scan r) → s.work ≠ .idle → exec .decode s = .refused .notEnabled) ∧
  (∀ (s : State) (r : ScanRegs), s.work = .scan r → exec .dispatch s = .refused .notEnabled) ∧
  (∀ (s : State) (a b : Byte), (∀ r, s.work = .scan r → r.terminated = true) →
    exec (.len a b) s = .refused .notEnabled ∧ exec (.termL a) s = .refused .notEnabled ∧
    exec (.termH a) s = .refused .notEnabled) ∧
  (∀ (s : State) (a b c : Byte) (m i q : Nat), (∀ k, s.work ≠ .copy k) →
    exec (.pix a b c) s = .refused .notEnabled ∧ exec (.copyPx m i q) s = .refused .notEnabled) ∧
  (∀ (s : State) (m : Nat) (v : HalfWord), (∀ c cursor, s.work ≠ .demux c cursor) → (∀ k, s.work ≠ .copy k) →
    exec (.dispatchCh m v) s = .refused .notEnabled) ∧
  (∀ (s : State) (c cursor m : Nat) (v : HalfWord), s.work = .demux c cursor →
    (m ≠ c ∨ s.dec.nchan ≤ m ∨ v ≠ s.dec.lengthAt m) → exec (.dispatchCh m v) s = .refused .notEnabled) ∧
  (∀ (s : State) (k : CopyRegs) (m : Nat) (v : HalfWord), s.work = .copy k →
    (m ≠ k.c ∨ v ≠ k.declared) → exec (.dispatchCh m v) s = .refused .notEnabled) ∧
  (∀ (s : State) (k : CopyRegs) (m i q : Nat), s.work = .copy k →
    (m ≠ k.c ∨ i ≠ k.i ∨ k.m ≤ i ∨ q ≠ k.cursor + i) → exec (.copyPx m i q) s = .refused .notEnabled)

/-- 42_control.md R121 (D33): a receive result that breaks the socket's duties, or stands in another class than its value's, has no
step (log 9). -/
def Obligations.BrokenDutyRefused : Prop :=
  ∀ (s : State) (r : Int) (bytes : List Byte), s.fsm = .waitingForPacket →
    (r < 4 ∨ (bytes.length : Int) ≠ r ∨ (s.cfg.messageSize : Int) < r → exec (.rxData r bytes) s = .refused .hostDuty) ∧
    (r < 0 ∨ 3 < r ∨ (bytes.length : Int) ≠ r ∨ (s.cfg.messageSize : Int) < r →
      exec (.rxShort r bytes) s = .refused .hostDuty) ∧
    (0 ≤ r → exec (.rxError r) s = .refused .hostDuty)

/-- 10_state.md R20: the codes and the reset value of `exit_status`, who writes it and with what, and that once it is not `NONE` no
step changes it. -/
def Obligations.ExitStatusWrittenOnce : Prop :=
  [ExitStatus.none, .clean, .renderError, .initError].map ExitStatus.code = [0, 1, 2, 3] ∧
  (∀ p pixels, (State.resetWith p pixels).exitStatus = .none) ∧
  ∀ (i : Instr) (s t : State), exec i s = .next t → t.exitStatus ≠ s.exitStatus →
    s.exitStatus = .none ∧
    (t.exitStatus = .clean ∧ s.continueLooping = false ∧
        (i = .initOk ∨ i = .pace ∨ i = .decode ∨ (∃ r, i = .rxError r) ∨ ∃ r bytes, i = .rxShort r bytes) ∨
      t.exitStatus = .renderError ∧ i = .renderFail ∨
      t.exitStatus = .initError ∧ i = .initFail)

/-- 93_implementation_defined.md U25: a step that would write `exit_status` once it is set is a model fault, which is the model's
choice (log 16): every step that ends in the loop head with a cancellation pending, and the two fatal errors. -/
def Obligations.SecondExitFaults : Prop :=
  ∀ s : State, s.exitStatus ≠ .none →
    (s.continueLooping = false → s.fsm = .pacedIdle → exec .pace s = .fault .exitRewritten) ∧
    (s.continueLooping = false → s.fsm = .initWait → exec .initOk s = .fault .exitRewritten) ∧
    (∀ bytes : List Byte, s.continueLooping = false → s.fsm = .waitingForPacket → bytes.length ≤ 3 →
      bytes.length ≤ s.cfg.messageSize → exec (.rxShort bytes.length bytes) s = .fault .exitRewritten) ∧
    (∀ r : Int, s.continueLooping = false → s.fsm = .waitingForPacket → r < 0 →
      exec (.rxError r) s = .fault .exitRewritten) ∧
    (s.continueLooping = false → s.fsm = .decoding → s.work = .idle → s.rxLen < 4 →
      exec .decode s = .fault .exitRewritten) ∧
    (s.fsm = .rendering → exec .renderFail s = .fault .exitRewritten) ∧
    (s.fsm = .initWait → exec .initFail s = .fault .exitRewritten)

/-! ### Frames over all instructions -/

/-- 10_state.md R31, R8: no instruction writes a configuration register. -/
def Obligations.ConfigurationReadOnly : Prop :=
  ∀ (i : Instr) (s t : State), exec i s = .next t → t.cfg = s.cfg

/-- 10_state.md R19: `continue_looping` is cleared by `CANCEL` before the loop has ended, and by nothing else; nothing sets it. -/
def Obligations.LoopingFlagWriters : Prop :=
  ∀ (i : Instr) (s t : State), exec i s = .next t → t.continueLooping ≠ s.continueLooping →
    i = .cancel ∧ t.continueLooping = false ∧ s.fsm ≠ .shutdown ∧ s.fsm ≠ .halted

/-- 10_state.md R21: `finalized` is 0 after reset, set by `FINALIZE` and by nothing else, never cleared; `FINALIZE` is enabled only
while it is 0; a step keeps the trace at one finalize request once `finalized` is 1 and at none before, so a run from reset holds
at most one, whatever moves the environment makes. -/
def Obligations.FinalizedWriters : Prop :=
  (∀ p pixels, (State.resetWith p pixels).finalized = false) ∧
  (∀ (i : Instr) (s t : State), exec i s = .next t → t.finalized ≠ s.finalized →
    i = .finalize ∧ s.finalized = false ∧ t.finalized = true) ∧
  (∀ s t : State, exec .finalize s = .next t → s.finalized = false ∧ t.finalized = true) ∧
  (∀ s t : State, s.Inv → step s = .next t → finalizeCount t.trace = t.finalized.toNat) ∧
  ∀ (p : Params) (pixels : List (List Word)) (moves : List Offer) (n : Nat) (t : State), p.wf → p.fits pixels →
    runSteps n { State.resetWith p pixels with inputs := moves } = .next t → finalizeCount t.trace ≤ 1

/-- 20_memory.md R56, 10_state.md R23, R24: the receive buffer is written by a receive result taken in `WAITING_FOR_PACKET`, the
decoded-frame registers by `DECODE`, each by nothing else. -/
def Obligations.DatagramWriters : Prop :=
  (∀ (i : Instr) (s t : State), exec i s = .next t → (t.rxBuf ≠ s.rxBuf ∨ t.rxLen ≠ s.rxLen) →
    s.fsm = .waitingForPacket ∧ ∃ r bytes, i = .rxData r bytes ∨ i = .rxShort r bytes) ∧
  (∀ (i : Instr) (s t : State), exec i s = .next t → t.dec ≠ s.dec →
    i = .decode ∧ s.fsm = .decoding ∧ t.fsm = .dispatching)

/-- 42_control.md R124(f), 70_reset_and_hazards.md R149: between control steps only `DISPATCH` changes a channel buffer, so none changes
while `fsm = RENDERING`. -/
def Obligations.BufferWriters : Prop :=
  ∀ (i : Instr) (s t : State), s.work = .idle → exec i s = .next t → t.chbuf ≠ s.chbuf →
    i = .dispatch ∧ s.fsm = .dispatching ∧ t.fsm = .rendering

/-- 42_control.md R120: in `HALTED` no step is enabled but `CANCEL`, which changes nothing but the trace, and `HALTED` is the only
such state: in every other one some control step but `CANCEL` is enabled. A tail has no effect anywhere and is no step of the
control loop (log 20). -/
def Obligations.HaltedIsTerminal : Prop :=
  (∀ (i : Instr) (s t : State), s.fsm = .halted → s.work = .idle → exec i s = .next t →
    (i = .cancel ∨ ∃ bytes, i = .tail bytes) ∧ { t with trace := s.trace } = s) ∧
  (∀ s : State, s.fsm = .halted → exec .cancel s = .next { s with trace := s.trace ++ [.input .cancel] }) ∧
  (∀ s : State, s.Inv → s.work = .idle → s.fsm ≠ .halted →
    ∃ (i : Instr) (t : State), exec i s = .next t ∧ i ≠ .cancel ∧ ∀ bytes, i ≠ .tail bytes)

/-! ### Steps -/

/-- A step runs what it fetches (42_control.md R119, R121, 40_decoder.md R78, 41_dispatch.md R93 to R95; logs 5, 6, 9). Between control
steps: the enabled internal step unless the next move is due before it; else the environment's move, refused where it breaks the
socket's duty. Inside a scan: the element that the pair at `2c` decodes to, at the end the `DECODE` that closes it. Inside a dispatch:
the next channel with its declared length, at the end the `DISPATCH` that closes it. Inside a copy: the pixel that the next triple
decodes to, then its copy, at the end the `DISPATCH_CH` that closes it. -/
def Obligations.StepRunsDecoded : Prop :=
  (∀ (s : State) (x : Fsm × Instr),
    x ∈ [(Fsm.init, Instr.initReq), (.decoding, .decode), (.dispatching, .dispatch), (.pacedIdle, .pace),
      (.shutdown, .finalize)] →
    s.fsm = x.1 → s.work = .idle → (s.fsm = .shutdown → s.finalized = false) →
    (∀ o ∈ s.inputs.head?, o.before ≠ some s.fsm) → step s = exec x.2 s) ∧
  (∀ (s : State) (o : Offer) (rest : List Offer), s.work = .idle → s.inputs = o :: rest →
    (o.before = some s.fsm ∨ s.fsm ∈ [Fsm.initWait, .waitingForPacket, .rendering, .halted] ∨
      s.fsm = .shutdown ∧ s.finalized = true) →
    (inputOnDuty s.cfg o.input = true → step s = exec (classifyInput o.input) { s with inputs := rest }) ∧
    (inputOnDuty s.cfg o.input = false → step s = .refused .hostDuty)) ∧
  (∀ (s : State) (r : ScanRegs), s.work = .scan r →
    (∀ i : Instr, r.terminated = false → 2 * r.c + 2 ≤ s.rxLen →
      decode .header [s.rxBuf.read (2 * r.c), s.rxBuf.read (2 * r.c + 1)] = .ok (i, []) → step s = exec i s) ∧
    (r.terminated = true ∨ s.rxLen < 2 * r.c + 2 → step s = exec .decode s)) ∧
  (∀ (s : State) (c cursor : Nat), s.work = .demux c cursor →
    (c < s.dec.nchan → step s = exec (.dispatchCh c (s.dec.lengthAt c)) s) ∧
    (s.dec.nchan ≤ c → step s = exec .dispatch s)) ∧
  (∀ (s : State) (k : CopyRegs), s.work = .copy k →
    (∀ (i : Instr) (p : Nat), k.i < k.m → k.pixel = none → p = s.dec.offset + 3 * (k.cursor + k.i) → p + 3 ≤ s.rxLen →
      decode .payload [s.rxBuf.read p, s.rxBuf.read (p + 1), s.rxBuf.read (p + 2)] = .ok (i, []) → step s = exec i s) ∧
    (k.i < k.m → k.pixel ≠ none → step s = exec (.copyPx k.c k.i (k.cursor + k.i)) s) ∧
    (k.m ≤ k.i → step s = exec (.dispatchCh k.c k.declared) s) ∧
    (k.i < k.m → k.pixel = none → s.rxLen < s.dec.offset + 3 * (k.cursor + k.i) + 3 → step s = .fault .rxOob))

/-- 42_control.md R123, R120 (U19, U20): with no pending move, the block makes no step while it waits for its environment, nor once the
run has ended (log 10). -/
def Obligations.NoStepWithoutInput : Prop :=
  (∀ s : State, s.work = .idle → s.inputs = [] → s.fsm ∈ [Fsm.initWait, .waitingForPacket, .rendering] →
    step s = .refused .awaitingHost) ∧
  (∀ s : State, s.work = .idle → s.inputs = [] → s.fsm = .shutdown → s.finalized = true →
    step s = .refused .awaitingHost) ∧
  (∀ s : State, s.work = .idle → s.inputs = [] → s.fsm = .halted → step s = .refused .runEnded)

/-- The invariant of the block (10_state.md R20, R21, R28, R31, 42_control.md R124(a), (c), 60_exceptions.md R127) is kept by every
step from every state that meets it. -/
def Obligations.StepKeepsInvariant : Prop :=
  ∀ s t : State, s.Inv → step s = .next t → t.Inv

/-- 40_decoder.md R89, 41_dispatch.md R99, 60_exceptions.md R130: from a state that meets the invariant no step raises a model fault. -/
def Obligations.StepNeverFaults : Prop :=
  ∀ s : State, s.Inv → Faultless (step s)

/-- `DECODE`, one atomic step (92_eei_decisions.md D2), is the run of the datagram's header elements one by one: 40_decoder.md R78
(log 6). -/
def Obligations.DecodeIsElementwise : Prop :=
  ∀ s : State, s.fsm = .decoding → s.work = .idle →
    ∃ k : Nat, runSteps k { s with work := .scan ⟨0, false, []⟩ } = exec .decode s

/-- `DISPATCH` is the run of its channels one by one, and a channel the run of its pixels one by one: 41_dispatch.md R93 to R95
(log 6). -/
def Obligations.DispatchIsElementwise : Prop :=
  (∀ s : State, s.fsm = .dispatching → s.work = .idle →
    ∃ k : Nat, runSteps k { s with work := .demux 0 0 } = exec .dispatch s) ∧
  (∀ (s : State) (c cursor : Nat) (declared : HalfWord), s.work = .demux c cursor → c < s.dec.nchan →
    declared = s.dec.lengthAt c →
    ∃ k : Nat, runSteps k
        { s with work := .copy ⟨c, cursor, declared, copyCount s c declared cursor, 0, none⟩ } =
      exec (.dispatchCh c declared) s)

/-- 10_state.md R22, R34(b): bytes of `rx_buf` at or beyond `rx_len` change no step: two states that differ in such bytes only stop
alike, or go on to states that differ in such bytes only. -/
def Obligations.HiddenBytesNeverMatter : Prop :=
  ∀ s t : State, s.rxBuf.wf → t.rxBuf.wf → s.agreeVisible t →
    (∀ f, step s = .fault f → step t = .fault f) ∧ (∀ r, step s = .refused r → step t = .refused r) ∧
    ∀ s', step s = .next s' → ∃ t', step t = .next t' ∧ s'.agreeVisible t'

/-- 60_exceptions.md R133(b): `CANCEL` and an `RX_DATA` in either order lead to the same state but for the order of the two in the
trace. `CANCEL` before a drop, be it an `RX_SHORT` or an `RX_ERROR`, ends the loop; after it the block waits with the cancellation
pending; the two ends differ in nothing else but that order. -/
def Obligations.CancelAgainstReceive : Prop :=
  ∀ (s : State) (r : Int) (bytes : List Byte), s.fsm = .waitingForPacket → inputOnDuty s.cfg (.rx r bytes) = true →
    (4 ≤ r → ∃ t u v w : State,
      exec (.rxData r bytes) s = .next t ∧ exec .cancel t = .next u ∧
      exec .cancel s = .next v ∧ exec (.rxData r bytes) v = .next w ∧
      u.trace = s.trace ++ [.input (.rx r bytes), .input .cancel] ∧
      w = { u with trace := s.trace ++ [.input .cancel, .input (.rx r bytes)] }) ∧
    (r < 4 → s.continueLooping = true → s.exitStatus = .none → ∃ t u v w : State,
      exec (classifyInput (.rx r bytes)) s = .next t ∧ exec .cancel t = .next u ∧
      u.fsm = .waitingForPacket ∧ u.cancelPending = true ∧ u.exitStatus = .none ∧
      u.trace = s.trace ++ [.input (.rx r bytes), .input .cancel] ∧
      exec .cancel s = .next v ∧ exec (classifyInput (.rx r bytes)) v = .next w ∧
      w = { u with fsm := .shutdown, exitStatus := .clean,
                   trace := s.trace ++ [.input .cancel, .input (.rx r bytes)] })

/-- 20_memory.md R53, 42_control.md R119, 60_exceptions.md R131: a `CANCEL` may come after any number of steps of any run, before the
step that the run takes next: some list of moves, the run's own with one `CANCEL` put in, makes the run reach the same state and then
take the `CANCEL`. How a move says when it is made is the model's choice (log 5). -/
def Obligations.CancelBetweenAnyTwoSteps : Prop :=
  ∀ (n : Nat) (s t : State), s.work = .idle → runSteps n s = .next t →
    ∃ taken : List Offer, s.inputs = taken ++ t.inputs ∧
      runSteps (n + 1) { s with inputs := taken ++ ⟨.cancel, some t.fsm⟩ :: t.inputs } = exec .cancel t

/-- 42_control.md R124(d), (e), 10_state.md R19: once `continue_looping` is 0, a run of any length consumes at most one more receive
result, none unless the block is waiting for one, and then the flag stays 0. -/
def Obligations.CancelledLoopReadsNoMore : Prop :=
  ∀ (n : Nat) (s t : State), s.continueLooping = false → runSteps n s = .next t →
    t.continueLooping = false ∧ rxCount t.trace ≤ rxCount s.trace + 1 ∧
    (s.fsm ≠ .waitingForPacket → rxCount t.trace = rxCount s.trace ∧ t.fsm ≠ .waitingForPacket)

/-- 42_control.md R104, R124(a), R105: a datagram taken in `WAITING_FOR_PACKET` is decoded, dispatched and its render requested, and a
render answered with success ends the cycle at the loop head: another wait, or `SHUTDOWN` with `CLEAN` where a cancellation is
pending. The buffers are those that the dispatch function leaves for the datagram's frame: 41_dispatch.md R98, R100. Only the receive
buffer, the decoded frame, the channel buffers, the moves taken and the trace differ besides. -/
def Obligations.FullCycle : Prop :=
  ∀ (s : State) (bytes : List Byte) (rest : List Offer), s.Inv → s.fsm = .waitingForPacket → s.work = .idle →
    4 ≤ bytes.length → bytes.length ≤ s.cfg.messageSize →
    s.inputs = ⟨.rx bytes.length bytes, none⟩ :: ⟨.renderResp true, none⟩ :: rest →
    (∀ o ∈ rest.head?, o.before ≠ some .pacedIdle) →
    ∃ (d : DecodedFrame) (u : State) (chb : ChannelBuffers),
      decodeFrame s.cfg.maxChannels (s.rxBuf.writeBytes 0 bytes) bytes.length = .ok (.ok d) ∧
      u = { s with rxBuf := s.rxBuf.writeBytes 0 bytes, rxLen := bytes.length, dec := d } ∧
      dispatchBuffers u = .ok chb ∧
      (∀ c i, memReadChb s.cfg chb c i =
        if c < d.nchan ∧ i < u.copied c then pixelAt u (d.cursorAt c + i) else memReadChb s.cfg s.chbuf c i) ∧
      runSteps 5 s = .next ({ u with
        chbuf := chb
        inputs := rest
        trace := s.trace ++
          [.input (.rx bytes.length bytes), .renderReq chb, .input (.renderResp true)] } : State).atLoopHead
end

