-- ==== Sys2Proof/Laws/State.lean ====
section
/-! SUPPORT. One lemma for each field and each update of `State`, so that no later proof unfolds a record update. -/

namespace Sys2Proof.Machine

variable (s : State)

@[simp] theorem State.setFsm_fsm (f : Fsm) : (s.setFsm f).fsm = f := rfl
@[simp] theorem State.setFsm_continueLooping (f : Fsm) : (s.setFsm f).continueLooping = s.continueLooping := rfl
@[simp] theorem State.setFsm_exitStatus (f : Fsm) : (s.setFsm f).exitStatus = s.exitStatus := rfl
@[simp] theorem State.setFsm_finalized (f : Fsm) : (s.setFsm f).finalized = s.finalized := rfl
@[simp] theorem State.setFsm_rxBuf (f : Fsm) : (s.setFsm f).rxBuf = s.rxBuf := rfl
@[simp] theorem State.setFsm_rxLen (f : Fsm) : (s.setFsm f).rxLen = s.rxLen := rfl
@[simp] theorem State.setFsm_dec (f : Fsm) : (s.setFsm f).dec = s.dec := rfl
@[simp] theorem State.setFsm_chbuf (f : Fsm) : (s.setFsm f).chbuf = s.chbuf := rfl
@[simp] theorem State.setFsm_cfg (f : Fsm) : (s.setFsm f).cfg = s.cfg := rfl
@[simp] theorem State.setFsm_work (f : Fsm) : (s.setFsm f).work = s.work := rfl
@[simp] theorem State.setFsm_inputs (f : Fsm) : (s.setFsm f).inputs = s.inputs := rfl
@[simp] theorem State.setFsm_trace (f : Fsm) : (s.setFsm f).trace = s.trace := rfl

@[simp] theorem State.setLooping_fsm (b : Bool) : (s.setLooping b).fsm = s.fsm := rfl
@[simp] theorem State.setLooping_continueLooping (b : Bool) : (s.setLooping b).continueLooping = b := rfl
@[simp] theorem State.setLooping_exitStatus (b : Bool) : (s.setLooping b).exitStatus = s.exitStatus := rfl
@[simp] theorem State.setLooping_finalized (b : Bool) : (s.setLooping b).finalized = s.finalized := rfl
@[simp] theorem State.setLooping_rxBuf (b : Bool) : (s.setLooping b).rxBuf = s.rxBuf := rfl
@[simp] theorem State.setLooping_rxLen (b : Bool) : (s.setLooping b).rxLen = s.rxLen := rfl
@[simp] theorem State.setLooping_dec (b : Bool) : (s.setLooping b).dec = s.dec := rfl
@[simp] theorem State.setLooping_chbuf (b : Bool) : (s.setLooping b).chbuf = s.chbuf := rfl
@[simp] theorem State.setLooping_cfg (b : Bool) : (s.setLooping b).cfg = s.cfg := rfl
@[simp] theorem State.setLooping_work (b : Bool) : (s.setLooping b).work = s.work := rfl
@[simp] theorem State.setLooping_inputs (b : Bool) : (s.setLooping b).inputs = s.inputs := rfl
@[simp] theorem State.setLooping_trace (b : Bool) : (s.setLooping b).trace = s.trace := rfl

@[simp] theorem State.setExit_fsm (e : ExitStatus) : (s.setExit e).fsm = s.fsm := rfl
@[simp] theorem State.setExit_continueLooping (e : ExitStatus) : (s.setExit e).continueLooping = s.continueLooping := rfl
@[simp] theorem State.setExit_exitStatus (e : ExitStatus) : (s.setExit e).exitStatus = e := rfl
@[simp] theorem State.setExit_finalized (e : ExitStatus) : (s.setExit e).finalized = s.finalized := rfl
@[simp] theorem State.setExit_rxBuf (e : ExitStatus) : (s.setExit e).rxBuf = s.rxBuf := rfl
@[simp] theorem State.setExit_rxLen (e : ExitStatus) : (s.setExit e).rxLen = s.rxLen := rfl
@[simp] theorem State.setExit_dec (e : ExitStatus) : (s.setExit e).dec = s.dec := rfl
@[simp] theorem State.setExit_chbuf (e : ExitStatus) : (s.setExit e).chbuf = s.chbuf := rfl
@[simp] theorem State.setExit_cfg (e : ExitStatus) : (s.setExit e).cfg = s.cfg := rfl
@[simp] theorem State.setExit_work (e : ExitStatus) : (s.setExit e).work = s.work := rfl
@[simp] theorem State.setExit_inputs (e : ExitStatus) : (s.setExit e).inputs = s.inputs := rfl
@[simp] theorem State.setExit_trace (e : ExitStatus) : (s.setExit e).trace = s.trace := rfl

@[simp] theorem State.setFinalized_fsm (b : Bool) : (s.setFinalized b).fsm = s.fsm := rfl
@[simp] theorem State.setFinalized_continueLooping (b : Bool) : (s.setFinalized b).continueLooping = s.continueLooping := rfl
@[simp] theorem State.setFinalized_exitStatus (b : Bool) : (s.setFinalized b).exitStatus = s.exitStatus := rfl
@[simp] theorem State.setFinalized_finalized (b : Bool) : (s.setFinalized b).finalized = b := rfl
@[simp] theorem State.setFinalized_rxBuf (b : Bool) : (s.setFinalized b).rxBuf = s.rxBuf := rfl
@[simp] theorem State.setFinalized_rxLen (b : Bool) : (s.setFinalized b).rxLen = s.rxLen := rfl
@[simp] theorem State.setFinalized_dec (b : Bool) : (s.setFinalized b).dec = s.dec := rfl
@[simp] theorem State.setFinalized_chbuf (b : Bool) : (s.setFinalized b).chbuf = s.chbuf := rfl
@[simp] theorem State.setFinalized_cfg (b : Bool) : (s.setFinalized b).cfg = s.cfg := rfl
@[simp] theorem State.setFinalized_work (b : Bool) : (s.setFinalized b).work = s.work := rfl
@[simp] theorem State.setFinalized_inputs (b : Bool) : (s.setFinalized b).inputs = s.inputs := rfl
@[simp] theorem State.setFinalized_trace (b : Bool) : (s.setFinalized b).trace = s.trace := rfl

@[simp] theorem State.setRx_fsm (buf : Memory) (n : Nat) : (s.setRx buf n).fsm = s.fsm := rfl
@[simp] theorem State.setRx_continueLooping (buf : Memory) (n : Nat) : (s.setRx buf n).continueLooping = s.continueLooping := rfl
@[simp] theorem State.setRx_exitStatus (buf : Memory) (n : Nat) : (s.setRx buf n).exitStatus = s.exitStatus := rfl
@[simp] theorem State.setRx_finalized (buf : Memory) (n : Nat) : (s.setRx buf n).finalized = s.finalized := rfl
@[simp] theorem State.setRx_rxBuf (buf : Memory) (n : Nat) : (s.setRx buf n).rxBuf = buf := rfl
@[simp] theorem State.setRx_rxLen (buf : Memory) (n : Nat) : (s.setRx buf n).rxLen = n := rfl
@[simp] theorem State.setRx_dec (buf : Memory) (n : Nat) : (s.setRx buf n).dec = s.dec := rfl
@[simp] theorem State.setRx_chbuf (buf : Memory) (n : Nat) : (s.setRx buf n).chbuf = s.chbuf := rfl
@[simp] theorem State.setRx_cfg (buf : Memory) (n : Nat) : (s.setRx buf n).cfg = s.cfg := rfl
@[simp] theorem State.setRx_work (buf : Memory) (n : Nat) : (s.setRx buf n).work = s.work := rfl
@[simp] theorem State.setRx_inputs (buf : Memory) (n : Nat) : (s.setRx buf n).inputs = s.inputs := rfl
@[simp] theorem State.setRx_trace (buf : Memory) (n : Nat) : (s.setRx buf n).trace = s.trace := rfl

@[simp] theorem State.setDec_fsm (d : DecodedFrame) : (s.setDec d).fsm = s.fsm := rfl
@[simp] theorem State.setDec_continueLooping (d : DecodedFrame) : (s.setDec d).continueLooping = s.continueLooping := rfl
@[simp] theorem State.setDec_exitStatus (d : DecodedFrame) : (s.setDec d).exitStatus = s.exitStatus := rfl
@[simp] theorem State.setDec_finalized (d : DecodedFrame) : (s.setDec d).finalized = s.finalized := rfl
@[simp] theorem State.setDec_rxBuf (d : DecodedFrame) : (s.setDec d).rxBuf = s.rxBuf := rfl
@[simp] theorem State.setDec_rxLen (d : DecodedFrame) : (s.setDec d).rxLen = s.rxLen := rfl
@[simp] theorem State.setDec_dec (d : DecodedFrame) : (s.setDec d).dec = d := rfl
@[simp] theorem State.setDec_chbuf (d : DecodedFrame) : (s.setDec d).chbuf = s.chbuf := rfl
@[simp] theorem State.setDec_cfg (d : DecodedFrame) : (s.setDec d).cfg = s.cfg := rfl
@[simp] theorem State.setDec_work (d : DecodedFrame) : (s.setDec d).work = s.work := rfl
@[simp] theorem State.setDec_inputs (d : DecodedFrame) : (s.setDec d).inputs = s.inputs := rfl
@[simp] theorem State.setDec_trace (d : DecodedFrame) : (s.setDec d).trace = s.trace := rfl

@[simp] theorem State.setChbuf_fsm (chb : ChannelBuffers) : (s.setChbuf chb).fsm = s.fsm := rfl
@[simp] theorem State.setChbuf_continueLooping (chb : ChannelBuffers) : (s.setChbuf chb).continueLooping = s.continueLooping := rfl
@[simp] theorem State.setChbuf_exitStatus (chb : ChannelBuffers) : (s.setChbuf chb).exitStatus = s.exitStatus := rfl
@[simp] theorem State.setChbuf_finalized (chb : ChannelBuffers) : (s.setChbuf chb).finalized = s.finalized := rfl
@[simp] theorem State.setChbuf_rxBuf (chb : ChannelBuffers) : (s.setChbuf chb).rxBuf = s.rxBuf := rfl
@[simp] theorem State.setChbuf_rxLen (chb : ChannelBuffers) : (s.setChbuf chb).rxLen = s.rxLen := rfl
@[simp] theorem State.setChbuf_dec (chb : ChannelBuffers) : (s.setChbuf chb).dec = s.dec := rfl
@[simp] theorem State.setChbuf_chbuf (chb : ChannelBuffers) : (s.setChbuf chb).chbuf = chb := rfl
@[simp] theorem State.setChbuf_cfg (chb : ChannelBuffers) : (s.setChbuf chb).cfg = s.cfg := rfl
@[simp] theorem State.setChbuf_work (chb : ChannelBuffers) : (s.setChbuf chb).work = s.work := rfl
@[simp] theorem State.setChbuf_inputs (chb : ChannelBuffers) : (s.setChbuf chb).inputs = s.inputs := rfl
@[simp] theorem State.setChbuf_trace (chb : ChannelBuffers) : (s.setChbuf chb).trace = s.trace := rfl

@[simp] theorem State.setWork_fsm (w : Work) : (s.setWork w).fsm = s.fsm := rfl
@[simp] theorem State.setWork_continueLooping (w : Work) : (s.setWork w).continueLooping = s.continueLooping := rfl
@[simp] theorem State.setWork_exitStatus (w : Work) : (s.setWork w).exitStatus = s.exitStatus := rfl
@[simp] theorem State.setWork_finalized (w : Work) : (s.setWork w).finalized = s.finalized := rfl
@[simp] theorem State.setWork_rxBuf (w : Work) : (s.setWork w).rxBuf = s.rxBuf := rfl
@[simp] theorem State.setWork_rxLen (w : Work) : (s.setWork w).rxLen = s.rxLen := rfl
@[simp] theorem State.setWork_dec (w : Work) : (s.setWork w).dec = s.dec := rfl
@[simp] theorem State.setWork_chbuf (w : Work) : (s.setWork w).chbuf = s.chbuf := rfl
@[simp] theorem State.setWork_cfg (w : Work) : (s.setWork w).cfg = s.cfg := rfl
@[simp] theorem State.setWork_work (w : Work) : (s.setWork w).work = w := rfl
@[simp] theorem State.setWork_inputs (w : Work) : (s.setWork w).inputs = s.inputs := rfl
@[simp] theorem State.setWork_trace (w : Work) : (s.setWork w).trace = s.trace := rfl

@[simp] theorem State.setInputs_fsm (os : List Offer) : (s.setInputs os).fsm = s.fsm := rfl
@[simp] theorem State.setInputs_continueLooping (os : List Offer) : (s.setInputs os).continueLooping = s.continueLooping := rfl
@[simp] theorem State.setInputs_exitStatus (os : List Offer) : (s.setInputs os).exitStatus = s.exitStatus := rfl
@[simp] theorem State.setInputs_finalized (os : List Offer) : (s.setInputs os).finalized = s.finalized := rfl
@[simp] theorem State.setInputs_rxBuf (os : List Offer) : (s.setInputs os).rxBuf = s.rxBuf := rfl
@[simp] theorem State.setInputs_rxLen (os : List Offer) : (s.setInputs os).rxLen = s.rxLen := rfl
@[simp] theorem State.setInputs_dec (os : List Offer) : (s.setInputs os).dec = s.dec := rfl
@[simp] theorem State.setInputs_chbuf (os : List Offer) : (s.setInputs os).chbuf = s.chbuf := rfl
@[simp] theorem State.setInputs_cfg (os : List Offer) : (s.setInputs os).cfg = s.cfg := rfl
@[simp] theorem State.setInputs_work (os : List Offer) : (s.setInputs os).work = s.work := rfl
@[simp] theorem State.setInputs_inputs (os : List Offer) : (s.setInputs os).inputs = os := rfl
@[simp] theorem State.setInputs_trace (os : List Offer) : (s.setInputs os).trace = s.trace := rfl

@[simp] theorem State.record_fsm (e : Event) : (s.record e).fsm = s.fsm := rfl
@[simp] theorem State.record_continueLooping (e : Event) : (s.record e).continueLooping = s.continueLooping := rfl
@[simp] theorem State.record_exitStatus (e : Event) : (s.record e).exitStatus = s.exitStatus := rfl
@[simp] theorem State.record_finalized (e : Event) : (s.record e).finalized = s.finalized := rfl
@[simp] theorem State.record_rxBuf (e : Event) : (s.record e).rxBuf = s.rxBuf := rfl
@[simp] theorem State.record_rxLen (e : Event) : (s.record e).rxLen = s.rxLen := rfl
@[simp] theorem State.record_dec (e : Event) : (s.record e).dec = s.dec := rfl
@[simp] theorem State.record_chbuf (e : Event) : (s.record e).chbuf = s.chbuf := rfl
@[simp] theorem State.record_cfg (e : Event) : (s.record e).cfg = s.cfg := rfl
@[simp] theorem State.record_work (e : Event) : (s.record e).work = s.work := rfl
@[simp] theorem State.record_inputs (e : Event) : (s.record e).inputs = s.inputs := rfl
@[simp] theorem State.record_trace (e : Event) : (s.record e).trace = s.trace ++ [e] := rfl

end Sys2Proof.Machine
end

