-- ==== Sys2Proof/Laws/Memory.lean ====
section
/-! SUPPORT. The receive buffer's memory: a write is read back and leaves every other address alone, and every operation keeps
the canonical form (10_state.md R22, 20_memory.md R48). -/

namespace Sys2Proof.Machine

@[simp] theorem Memory.read_nil (a : Nat) : Memory.read [] a = Memory.unlisted := rfl

theorem Memory.wf_nil : Memory.wf [] := by simp [Memory.wf]

/-- An address below every listed one reads as unlisted. -/
theorem Memory.read_below {m : Memory} {a : Nat} (h : ∀ x ∈ m, a < x.1) : m.read a = Memory.unlisted := by
  induction m with
  | nil => rfl
  | cons x rest ih =>
    have hx := h x (by simp)
    rw [Memory.read, if_neg (by omega)]
    exact ih fun y hy => h y (by simp [hy])

theorem Memory.wf_tail {x : Host.Cell} {m : Memory} (h : Memory.wf (x :: m)) : Memory.wf m :=
  ⟨(List.pairwise_cons.mp h.1).2, fun y hy => h.2 y (by simp [hy])⟩

theorem Memory.cons_wf {a : Nat} {b : Byte} {m : Memory} (h : m.wf) (ha : ∀ x ∈ m, a < x.1) :
    (Memory.cons a b m).wf := by
  unfold Memory.cons
  split
  · exact h
  · rename_i hb
    refine ⟨List.pairwise_cons.mpr ⟨ha, h.1⟩, fun x hx => ?_⟩
    rcases List.mem_cons.mp hx with rfl | hx
    · exact hb
    · exact h.2 x hx

theorem Memory.cons_read {a : Nat} {b : Byte} {m : Memory} (ha : ∀ x ∈ m, a < x.1) (x : Nat) :
    (Memory.cons a b m).read x = if x = a then b else m.read x := by
  unfold Memory.cons
  split
  · rename_i hb
    split
    · rename_i hx
      rw [hx, Memory.read_below ha, hb]
    · rfl
  · rw [Memory.read]
    split <;> split <;> first | rfl | omega

theorem Memory.mem_cons {a : Nat} {b : Byte} {m : Memory} {x : Host.Cell} (h : x ∈ Memory.cons a b m) :
    x = (a, b) ∨ x ∈ m := by
  unfold Memory.cons at h
  split at h
  · exact .inr h
  · exact List.mem_cons.mp h

theorem Memory.mem_write {m : Memory} {a : Nat} {b : Byte} {x : Host.Cell} (h : x ∈ m.write a b) :
    x = (a, b) ∨ x ∈ m := by
  induction m with
  | nil => exact Memory.mem_cons h
  | cons y rest ih =>
    unfold Memory.write at h
    split at h
    · exact Memory.mem_cons h
    · split at h
      · exact (Memory.mem_cons h).imp_right (List.mem_cons_of_mem _)
      · rcases List.mem_cons.mp h with rfl | h
        · exact .inr (by simp)
        · exact (ih h).imp_right (List.mem_cons_of_mem _)

theorem Memory.write_wf {m : Memory} (h : m.wf) (a : Nat) (b : Byte) : (m.write a b).wf := by
  induction m with
  | nil => exact Memory.cons_wf h (by simp)
  | cons y rest ih =>
    have hp := List.pairwise_cons.mp h.1
    unfold Memory.write
    split
    · rename_i hlt
      refine Memory.cons_wf h fun x hx => ?_
      rcases List.mem_cons.mp hx with rfl | hx
      · exact hlt
      · exact hlt.trans (hp.1 x hx)
    · split
      · rename_i heq
        exact Memory.cons_wf (Memory.wf_tail h) fun x hx => heq ▸ hp.1 x hx
      · rename_i hge hne
        have ih' := ih (Memory.wf_tail h)
        refine ⟨List.pairwise_cons.mpr ⟨fun x hx => ?_, ih'.1⟩, fun x hx => ?_⟩
        · rcases Memory.mem_write hx with rfl | hx
          · show y.1 < a
            omega
          · exact hp.1 x hx
        · rcases List.mem_cons.mp hx with rfl | hx
          · exact h.2 _ (by simp)
          · exact ih'.2 x hx

/-- A write is read back and leaves every other address alone. -/
theorem Memory.read_write {m : Memory} (h : m.wf) (a : Nat) (b : Byte) (x : Nat) :
    (m.write a b).read x = if x = a then b else m.read x := by
  induction m with
  | nil => exact Memory.cons_read (by simp) x
  | cons y rest ih =>
    have hp := List.pairwise_cons.mp h.1
    unfold Memory.write
    split
    · rename_i hlt
      refine Memory.cons_read (fun z hz => ?_) x
      rcases List.mem_cons.mp hz with rfl | hz
      · exact hlt
      · exact hlt.trans (hp.1 z hz)
    · split
      · rename_i heq
        rw [Memory.cons_read (fun z hz => heq ▸ hp.1 z hz)]
        split
        · rfl
        · conv_rhs => rw [Memory.read]
          rw [if_neg (by omega)]
      · rename_i hge hne
        rw [Memory.read, ih (Memory.wf_tail h)]
        conv_rhs => rw [Memory.read]
        split <;> split <;> first | rfl | omega

theorem Memory.writeBytes_wf {m : Memory} (h : m.wf) (a : Nat) (bs : List Byte) : (m.writeBytes a bs).wf := by
  induction bs generalizing m a with
  | nil => exact h
  | cons b rest ih => exact ih (Memory.write_wf h a b) (a + 1)

theorem Memory.mem_writeBytes {m : Memory} {a : Nat} {bs : List Byte} {x : Host.Cell}
    (h : x ∈ m.writeBytes a bs) : (a ≤ x.1 ∧ x.1 < a + bs.length) ∨ x ∈ m := by
  induction bs generalizing m a with
  | nil => exact .inr h
  | cons b rest ih =>
    rcases ih h with h | h
    · left
      simp only [List.length_cons]
      omega
    · rcases Memory.mem_write h with rfl | h
      · left
        simp
      · exact .inr h

/-- Bytes written at rising addresses are read back; every other address is left alone. -/
theorem Memory.read_writeBytes {m : Memory} (h : m.wf) (a : Nat) (bs : List Byte) (x : Nat) :
    (m.writeBytes a bs).read x = if a ≤ x then bs.getD (x - a) (m.read x) else m.read x := by
  induction bs generalizing m a with
  | nil => simp [Memory.writeBytes]
  | cons b rest ih =>
    rw [Memory.writeBytes, ih (Memory.write_wf h a b), Memory.read_write h]
    rcases Nat.lt_trichotomy x a with hlt | rfl | hgt
    · rw [if_neg (by omega), if_neg (by omega), if_neg (by omega)]
    · simp
    · obtain ⟨d, rfl⟩ : ∃ d, x = a + 1 + d := ⟨x - (a + 1), by omega⟩
      rw [if_pos (by omega), if_neg (by omega), if_pos (by omega)]
      have h1 : a + 1 + d - (a + 1) = d := by omega
      have h2 : a + 1 + d - a = d + 1 := by omega
      rw [h1, h2, List.getD_cons_succ]

/-- Two canonical memories that read alike are equal data. -/
theorem Memory.eq_of_read {m m' : Memory} (h : m.wf) (h' : m'.wf) (hr : ∀ a, m.read a = m'.read a) : m = m' := by
  induction m generalizing m' with
  | nil =>
    cases m' with
    | nil => rfl
    | cons y rest =>
      have := hr y.1
      rw [Memory.read_nil, Memory.read, if_pos rfl] at this
      exact absurd this.symm (h'.2 y (by simp))
  | cons x rest ih =>
    have hp := List.pairwise_cons.mp h.1
    cases m' with
    | nil =>
      have := hr x.1
      rw [Memory.read_nil, Memory.read, if_pos rfl] at this
      exact absurd this (h.2 x (by simp))
    | cons y rest' =>
      have hp' := List.pairwise_cons.mp h'.1
      have hxy : x.1 = y.1 := by
        rcases Nat.lt_trichotomy x.1 y.1 with hlt | heq | hgt
        · have := hr x.1
          rw [Memory.read, if_pos rfl, Memory.read_below] at this
          · exact absurd this (h.2 x (by simp))
          · intro z hz
            rcases List.mem_cons.mp hz with rfl | hz
            · exact hlt
            · exact hlt.trans (hp'.1 z hz)
        · exact heq
        · have := hr y.1
          rw [Memory.read_below, Memory.read, if_pos rfl] at this
          · exact absurd this.symm (h'.2 y (by simp))
          · intro z hz
            rcases List.mem_cons.mp hz with rfl | hz
            · exact hgt
            · exact hgt.trans (hp.1 z hz)
      have hv : x.2 = y.2 := by
        have := hr x.1
        rwa [Memory.read, if_pos rfl, Memory.read, if_pos hxy.symm] at this
      have htail : rest = rest' := by
        refine ih (Memory.wf_tail h) (Memory.wf_tail h') fun a => ?_
        rcases Nat.lt_or_ge x.1 a with hlt | hge
        · have := hr a
          rwa [Memory.read, if_neg (by omega), Memory.read, if_neg (by omega)] at this
        · rw [Memory.read_below fun z hz => lt_of_le_of_lt hge (hp.1 z hz),
            Memory.read_below fun z hz => lt_of_le_of_lt (hxy ▸ hge) (hp'.1 z hz)]
      rw [htail, Prod.ext hxy hv]

end Sys2Proof.Machine
end

