-- ==== Sys2Proof/Laws/Ops.lean ====
section
/-! SUPPORT. One lemma for each shared operation: what it can do when it answers a next state (42_control.md R105, 60_exceptions.md
R126, R128), and what the memory primitives of 00_scope.md R12 answer. -/

namespace Sys2Proof.Machine

theorem enabledIn_next {f : Fsm} {s t : State} {body : StepOutcome} :
    enabledIn f s body = .next t ↔ s.fsm = f ∧ body = .next t := by
  unfold enabledIn
  split <;> simp_all

theorem enabledIn_fault {f : Fsm} {s : State} {body : StepOutcome} {e : Fault} :
    enabledIn f s body = .fault e ↔ s.fsm = f ∧ body = .fault e := by
  unfold enabledIn
  split <;> simp_all

theorem enabledIn_self {f : Fsm} {s : State} {body : StepOutcome} (h : s.fsm = f) : enabledIn f s body = body :=
  if_pos h

theorem orFault_next {α : Type} {res : Except Fault α} {go : α → StepOutcome} {t : State} :
    orFault res go = .next t ↔ ∃ a, res = .ok a ∧ go a = .next t := by
  cases res <;> simp [orFault]

theorem orFault_fault {α : Type} {res : Except Fault α} {go : α → StepOutcome} {e : Fault} :
    orFault res go = .fault e ↔ res = .error e ∨ ∃ a, res = .ok a ∧ go a = .fault e := by
  cases res <;> simp [orFault]

theorem endLoop_next {e : ExitStatus} {f : Fsm} {s t : State} :
    endLoop e f s = .next t ↔ s.exitStatus = .none ∧ t = (s.setExit e).setFsm f := by
  unfold endLoop
  split <;> simp_all [eq_comm]

theorem endLoop_fault {e : ExitStatus} {f : Fsm} {s : State} {x : Fault} :
    endLoop e f s = .fault x ↔ s.exitStatus ≠ .none ∧ x = .exitRewritten := by
  unfold endLoop
  split
  · simp_all
  · simp_all only [ne_eq, not_false_eq_true, true_and]
    exact ⟨fun h => (Host.Outcome.fault.inj h).symm, fun h => h ▸ rfl⟩

/-- The loop head either starts another read or leaves the loop cleanly (R105). -/
theorem loopHead_next {s t : State} :
    loopHead s = .next t ↔
      (s.continueLooping = true ∧ t = s.setFsm .waitingForPacket) ∨
      (s.continueLooping = false ∧ s.exitStatus = .none ∧ t = (s.setExit .clean).setFsm .shutdown) := by
  unfold loopHead
  split
  · rename_i h
    simp only [h, true_and, Bool.true_eq_false, false_and, or_false]
    exact ⟨fun h => (Host.Outcome.next.inj h).symm, fun h => h ▸ rfl⟩
  · rename_i h
    simp [h, endLoop_next]

theorem loopHead_fault {s : State} {x : Fault} :
    loopHead s = .fault x ↔ s.continueLooping = false ∧ s.exitStatus ≠ .none ∧ x = .exitRewritten := by
  unfold loopHead
  split <;> simp_all [endLoop_fault]

theorem raiseDrop_eq (reason : DropReason) (s : State) : raiseDrop reason s = loopHead s := rfl

theorem raiseFatal_next {e : FatalError} {s t : State} :
    raiseFatal e s = .next t ↔
      s.exitStatus = .none ∧ t = (s.setExit e.status).setFsm (fatalTarget s.cfg e) := endLoop_next

theorem raiseFatal_fault {e : FatalError} {s : State} {x : Fault} :
    raiseFatal e s = .fault x ↔ s.exitStatus ≠ .none ∧ x = .exitRewritten := endLoop_fault

theorem onDuty_next {p : Params} {r : Int} {bytes : List Byte} {body : StepOutcome} {t : State} :
    onDuty p r bytes body = .next t ↔ dutyKept p r bytes = true ∧ body = .next t := by
  unfold onDuty
  split <;> simp_all

theorem onDuty_fault {p : Params} {r : Int} {bytes : List Byte} {body : StepOutcome} {x : Fault} :
    onDuty p r bytes body = .fault x ↔ dutyKept p r bytes = true ∧ body = .fault x := by
  unfold onDuty
  split <;> simp_all

theorem dutyKept_iff {p : Params} {r : Int} {bytes : List Byte} :
    dutyKept p r bytes = true ↔ bytes.length = r.toNat ∧ r.toNat ≤ p.messageSize := by
  simp [dutyKept]

/-! ### Reads of the receive buffer -/

theorem memReadRx_inside {buf : Memory} {n i : Nat} (h : i < n) : memReadRx buf n i = .ok (buf.read i) := if_pos h

theorem memReadRx_outside {buf : Memory} {n i : Nat} (h : n ≤ i) : memReadRx buf n i = .error .rxOob :=
  if_neg (by omega)

theorem readPair_inside {buf : Memory} {n c : Nat} (h : 2 * c + 2 ≤ n) :
    readPair buf n c = .ok (buf.read (2 * c), buf.read (2 * c + 1)) := by
  unfold readPair
  rw [memReadRx_inside (by omega), memReadRx_inside (by omega)]
  rfl

theorem readTriple_inside {buf : Memory} {n p : Nat} (h : p + 3 ≤ n) :
    readTriple buf n p = .ok (buf.read p, buf.read (p + 1), buf.read (p + 2)) := by
  unfold readTriple
  rw [memReadRx_inside (by omega), memReadRx_inside (by omega), memReadRx_inside (by omega)]
  rfl

/-- A triple that does not lie inside the datagram cannot be read (R12). -/
theorem readTriple_outside {buf : Memory} {n p : Nat} (h : n < p + 3) : readTriple buf n p = .error .rxOob := by
  unfold readTriple memReadRx
  by_cases h0 : p < n
  · by_cases h1 : p + 1 < n
    · rw [if_pos h0, if_pos h1, if_neg (by omega)]
      rfl
    · rw [if_pos h0, if_neg h1]
      rfl
  · rw [if_neg h0]
    rfl

/-- `pixel(q)` of a triple that lies inside the datagram (R85). -/
theorem pixelAt_inside {s : State} {q : Nat} (h : s.dec.offset + 3 * q + 3 ≤ s.rxLen) :
    pixelAt s q =
      .ok (pixelWord (s.rxBuf.read (s.dec.offset + 3 * q)) (s.rxBuf.read (s.dec.offset + 3 * q + 1))
        (s.rxBuf.read (s.dec.offset + 3 * q + 2))) := by
  unfold pixelAt
  rw [tripleOffset, readTriple_inside h]
  rfl

/-- A kept declared length is read as it stands (R24). -/
theorem DecodedFrame.lengthAt_kept {d : DecodedFrame} {c : Nat} (h : c < d.lengths.length) :
    d.lengthAt c = d.lengths[c] := by
  simp [DecodedFrame.lengthAt, h]

/-! ### The channel buffers -/

theorem slotExists_iff {p : Params} {c i : Nat} : slotExists p c i = true ↔ c < p.maxChannels ∧ i < p.capOf c := by
  simp [slotExists]

theorem memWriteChb_ok {p : Params} {chb chb' : ChannelBuffers} {c i : Nat} {v : Word} :
    memWriteChb p chb c i v = .ok chb' ↔
      slotExists p c i = true ∧ chb' = chb.modify c fun row => row.set i v := by
  unfold memWriteChb
  split
  · rename_i h
    simp only [h, true_and]
    exact ⟨fun h => (Except.ok.inj h).symm, fun h => h ▸ rfl⟩
  · simp_all

/-- In a legal machine the row of a channel has `CAP[c]` slots (R28). -/
theorem Params.row_length {p : Params} {chb : ChannelBuffers} (h : p.fits chb) {c : Nat} {row : List Word}
    (hr : chb[c]? = some row) : row.length = p.capOf c := by
  have : (chb.map List.length)[c]? = some row.length := by simp [hr]
  rw [Params.capOf, ← h, List.getD_eq_getElem?_getD, this]
  rfl

theorem Params.rows {p : Params} (hp : p.wf) {chb : ChannelBuffers} (h : p.fits chb) : chb.length = p.maxChannels := by
  rw [← hp.2.1, ← h, List.length_map]

/-- A slot that exists can be read (R12). -/
theorem memReadChb_exists {p : Params} (hp : p.wf) {chb : ChannelBuffers} (h : p.fits chb) {c i : Nat}
    (hs : slotExists p c i = true) : ∃ w, memReadChb p chb c i = .ok w := by
  obtain ⟨hc, hi⟩ := slotExists_iff.mp hs
  have hc' : c < chb.length := by rw [Params.rows hp h]; exact hc
  have hr : chb[c]? = some chb[c] := List.getElem?_eq_getElem hc'
  have hi' : i < chb[c].length := by rw [Params.row_length h hr]; exact hi
  have hw : chb[c][i]? = some chb[c][i] := List.getElem?_eq_getElem hi'
  refine ⟨chb[c][i], ?_⟩
  unfold memReadChb
  rw [if_pos hs, hr]
  show (match chb[c][i]? with | some w => Except.ok w | none => .error Fault.chbOob) = _
  rw [hw]

/-- A write keeps the shape of the channel buffers (R30). -/
theorem memWriteChb_fits {p : Params} {chb chb' : ChannelBuffers} {c i : Nat} {v : Word}
    (h : memWriteChb p chb c i v = .ok chb') (hf : p.fits chb) : p.fits chb' := by
  obtain ⟨-, rfl⟩ := memWriteChb_ok.mp h
  rw [Params.fits, ← hf]
  apply List.ext_getElem?
  intro k
  simp only [List.getElem?_map, List.getElem?_modify]
  cases chb[k]? with
  | none => rfl
  | some row => by_cases hk : c = k <;> simp [hk]

/-- A word written is read back; every other slot is left alone (R12). -/
theorem memReadChb_write {p : Params} (hp : p.wf) {chb chb' : ChannelBuffers} (hf : p.fits chb) {c i : Nat} {v : Word}
    (h : memWriteChb p chb c i v = .ok chb') (c' i' : Nat) :
    memReadChb p chb' c' i' = if c' = c ∧ i' = i then .ok v else memReadChb p chb c' i' := by
  obtain ⟨hs, rfl⟩ := memWriteChb_ok.mp h
  obtain ⟨hc, hi⟩ := slotExists_iff.mp hs
  have hlen := Params.rows hp hf
  unfold memReadChb
  by_cases hs' : slotExists p c' i' = true
  · rw [if_pos hs', if_pos hs']
    rw [List.getElem?_modify]
    by_cases hcc : c' = c
    · subst hcc
      have hr : chb[c']? = some chb[c'] := List.getElem?_eq_getElem (by omega)
      have hrl := Params.row_length hf hr
      rw [hr]
      by_cases hii : i' = i
      · subst hii
        simp [hrl, hi]
      · simp [Ne.symm hii, hii]
    · rw [if_neg (fun hx => hcc hx.1)]
      have : ¬ c = c' := fun hx => hcc hx.symm
      cases chb[c']? <;> simp [this]
  · rw [if_neg hs', if_neg hs']
    rw [if_neg]
    rintro ⟨rfl, rfl⟩
    exact hs' hs

end Sys2Proof.Machine
end

