-- ==== Sys2Proof/Laws/Header.lean ====
section
/-! SUPPORT. The header scan (40_decoder.md R78): it never faults (R89), where it stops (R63, R90), and which lengths it keeps (R79,
R87). -/

namespace Sys2Proof.Machine

/-- The value of header pair `c` (R59). -/
def pairAt (buf : Memory) (c : Nat) : HalfWord := pairValue (buf.read (2 * c)) (buf.read (2 * c + 1))

/-- Header pair `c` holds the sentinel (R90). -/
def sentinelAt (buf : Memory) (c : Nat) : Prop := buf.read (2 * c) = 0xFF ∨ buf.read (2 * c + 1) = 0xFF

theorem scanPair_stop (maxCh : Nat) {lo hi : Byte} (r : ScanRegs) (h : lo = 0xFF ∨ hi = 0xFF) :
    scanPair maxCh lo hi r = scanTerm r := by
  unfold scanPair classifyPair
  split_ifs <;> simp_all

theorem scanPair_go (maxCh : Nat) {lo hi : Byte} (r : ScanRegs) (h : ¬ (lo = 0xFF ∨ hi = 0xFF)) :
    scanPair maxCh lo hi r = scanLen maxCh lo hi r := by
  unfold scanPair classifyPair
  split_ifs <;> simp_all

theorem scanOver_iff {n : Nat} {r : ScanRegs} : scanOver n r = true ↔ r.terminated = true ∨ n < 2 * r.c + 2 := by
  simp [scanOver]

theorem scanLoop_over {maxCh : Nat} {buf : Memory} {n : Nat} {r : ScanRegs} (h : scanOver n r = true) (rounds : Nat) :
    scanLoop maxCh buf n rounds r = .ok r := by
  cases rounds with
  | zero => rfl
  | succ k => rw [scanLoop, if_pos h]

/-- One round of the scan reads the pair at `2c` and applies its class. -/
theorem scanLoop_round {maxCh : Nat} {buf : Memory} {n : Nat} {r : ScanRegs} (h : scanOver n r = false) (rounds : Nat) :
    scanLoop maxCh buf n (rounds + 1) r =
      scanLoop maxCh buf n rounds (scanPair maxCh (buf.read (2 * r.c)) (buf.read (2 * r.c + 1)) r) := by
  have hin : 2 * r.c + 2 ≤ n := by
    simp [scanOver] at h
    omega
  rw [scanLoop, if_neg (by simp [h]), readPair_inside hin]
  rfl

/-- What a scan from registers `r` that ends in `last` has done. -/
structure ScanReach (maxCh : Nat) (buf : Memory) (n : Nat) (r last : ScanRegs) : Prop where
  le : r.c ≤ last.c
  passed : ∀ k, r.c ≤ k → k < last.c → 2 * k + 2 ≤ n ∧ ¬ sentinelAt buf k
  stopped : last.terminated = true → r.terminated = true ∨ (2 * last.c + 2 ≤ n ∧ sentinelAt buf last.c)
  kept : last.lengths = r.lengths ++ (List.range' r.c (min last.c maxCh - r.c)).map (pairAt buf)

theorem ScanReach.refl (maxCh : Nat) (buf : Memory) (n : Nat) (r : ScanRegs) : ScanReach maxCh buf n r r where
  le := le_rfl
  passed := fun k h1 h2 => by omega
  stopped := .inl
  kept := by
    have : min r.c maxCh - r.c = 0 := by omega
    simp [this]

theorem ScanReach.step {maxCh : Nat} {buf : Memory} {n : Nat} {r last : ScanRegs} (h : scanOver n r = false)
    (hr : ScanReach maxCh buf n (scanPair maxCh (buf.read (2 * r.c)) (buf.read (2 * r.c + 1)) r) last) :
    ScanReach maxCh buf n r last := by
  have hin : 2 * r.c + 2 ≤ n ∧ r.terminated = false := by
    simp [scanOver] at h
    exact ⟨by omega, h.1⟩
  by_cases hs : sentinelAt buf r.c
  · rw [scanPair_stop maxCh r hs] at hr
    refine ⟨hr.le, fun k h1 h2 => hr.passed k h1 h2, fun ht => ?_, hr.kept⟩
    rcases hr.stopped ht with _ | h'
    · refine .inr ?_
      rcases Nat.lt_or_ge r.c last.c with hlt | hge
      · exact absurd hs (hr.passed r.c le_rfl hlt).2
      · have : last.c = r.c := le_antisymm hge hr.le
        rw [this]
        exact ⟨hin.1, hs⟩
    · exact .inr h'
  · rw [scanPair_go maxCh r hs] at hr
    have hle : r.c + 1 ≤ last.c := hr.le
    refine ⟨by omega, fun k h1 h2 => ?_, fun ht => ?_, ?_⟩
    · rcases Nat.eq_or_lt_of_le h1 with rfl | h1
      · exact ⟨hin.1, hs⟩
      · exact hr.passed k h1 h2
    · exact hr.stopped ht
    · have hk := hr.kept
      simp only [scanLen] at hk
      by_cases hm : r.c < maxCh
      · rw [if_pos hm] at hk
        have : min last.c maxCh - r.c = (min last.c maxCh - (r.c + 1)) + 1 := by omega
        rw [hk, this, List.range'_succ]
        simp [pairAt]
      · rw [if_neg hm] at hk
        have h0 : min last.c maxCh - (r.c + 1) = 0 := by omega
        have h1 : min last.c maxCh - r.c = 0 := by omega
        rw [hk, h0, h1]
        simp

/-- A scan never faults, and reaches registers that `ScanReach` describes (R89). -/
theorem scanLoop_reaches (maxCh : Nat) (buf : Memory) (n rounds : Nat) (r : ScanRegs) :
    ∃ last, scanLoop maxCh buf n rounds r = .ok last ∧ ScanReach maxCh buf n r last := by
  induction rounds generalizing r with
  | zero => exact ⟨r, rfl, .refl ..⟩
  | succ k ih =>
    by_cases h : scanOver n r = true
    · exact ⟨r, scanLoop_over h _, .refl ..⟩
    · have h' : scanOver n r = false := by simpa using h
      obtain ⟨last, hl, hr⟩ := ih (scanPair maxCh (buf.read (2 * r.c)) (buf.read (2 * r.c + 1)) r)
      exact ⟨last, by rw [scanLoop_round h', hl], hr.step h'⟩

/-- With as many rounds as pairs could be left, the scan runs to its end. -/
theorem scanLoop_ends {maxCh : Nat} {buf : Memory} {n rounds : Nat} {r last : ScanRegs}
    (hn : n < 2 * (r.c + rounds) + 2) (h : scanLoop maxCh buf n rounds r = .ok last) : scanOver n last = true := by
  induction rounds generalizing r with
  | zero =>
    obtain rfl := Except.ok.inj h
    exact scanOver_iff.mpr (.inr (by omega))
  | succ k ih =>
    by_cases ho : scanOver n r = true
    · rw [scanLoop_over ho] at h
      exact Except.ok.inj h ▸ ho
    · have ho' : scanOver n r = false := by simpa using ho
      rw [scanLoop_round ho'] at h
      by_cases hs : sentinelAt buf r.c
      · rw [scanPair_stop maxCh r hs] at h
        have ht : scanOver n (scanTerm r) = true := scanOver_iff.mpr (.inl rfl)
        rw [scanLoop_over ht] at h
        exact Except.ok.inj h ▸ ht
      · rw [scanPair_go maxCh r hs] at h
        exact ih (by simp only [scanLen]; omega) h

/-- More rounds than a scan needs change nothing. -/
theorem scanLoop_more {maxCh : Nat} {buf : Memory} {n rounds : Nat} {r last : ScanRegs}
    (h : scanLoop maxCh buf n rounds r = .ok last) (ho : scanOver n last = true) (more : Nat) :
    scanLoop maxCh buf n (rounds + more) r = .ok last := by
  induction rounds generalizing r with
  | zero =>
    obtain rfl := Except.ok.inj h
    exact scanLoop_over ho _
  | succ k ih =>
    by_cases hr : scanOver n r = true
    · rw [scanLoop_over hr] at h ⊢
      exact h
    · have hr' : scanOver n r = false := by simpa using hr
      rw [scanLoop_round hr'] at h
      rw [Nat.succ_add, scanLoop_round hr', ih h]

/-- The whole scan of a datagram: where it stops and what it keeps (R63, R79, R87, R90). -/
structure Scanned (maxCh : Nat) (buf : Memory) (n : Nat) (last : ScanRegs) : Prop where
  passed : ∀ k, k < last.c → 2 * k + 2 ≤ n ∧ ¬ sentinelAt buf k
  terminated : last.terminated = true → 2 * last.c + 2 ≤ n ∧ sentinelAt buf last.c
  unterminated : last.terminated = false → n < 2 * last.c + 2
  kept : last.lengths = (List.range (min last.c maxCh)).map (pairAt buf)

theorem scanLoop_start (maxCh : Nat) (buf : Memory) (n : Nat) :
    ∃ last, scanLoop maxCh buf n n .start = .ok last ∧ Scanned maxCh buf n last := by
  obtain ⟨last, hl, hr⟩ := scanLoop_reaches maxCh buf n n .start
  have ho := scanOver_iff.mp (scanLoop_ends (by simp [ScanRegs.start]; omega) hl)
  refine ⟨last, hl, fun k hk => hr.passed k (Nat.zero_le _) hk, fun ht => ?_, fun ht => ?_, ?_⟩
  · exact (hr.stopped ht).resolve_left (by simp [ScanRegs.start])
  · exact ho.resolve_left (by simp [ht])
  · have := hr.kept
    simpa [ScanRegs.start, List.range_eq_range'] using this

/-- The decode function answers a frame for every datagram of at least four bytes, and reads no byte outside it (R76, R89). -/
theorem decodeFrame_ok (maxCh : Nat) (buf : Memory) {n : Nat} (h : 4 ≤ n) :
    ∃ last, decodeFrame maxCh buf n = .ok (.ok (frameOf maxCh n last)) ∧ Scanned maxCh buf n last := by
  obtain ⟨last, hl, hs⟩ := scanLoop_start maxCh buf n
  refine ⟨last, ?_, hs⟩
  unfold decodeFrame decodeFrom
  rw [if_neg (by omega), hl]
  rfl

theorem decodeFrame_short (maxCh : Nat) (buf : Memory) {n : Nat} (h : n < 4) :
    decodeFrame maxCh buf n = .ok (.error .tooShort) := if_pos h

/-- From any registers the decode function answers without a fault (R89). -/
theorem decodeFrom_ok (maxCh : Nat) (buf : Memory) {n : Nat} (h : 4 ≤ n) (r : ScanRegs) :
    ∃ last, decodeFrom maxCh buf n r = .ok (.ok (frameOf maxCh n last)) ∧ ScanReach maxCh buf n r last := by
  obtain ⟨last, hl, hr⟩ := scanLoop_reaches maxCh buf n n r
  refine ⟨last, ?_, hr⟩
  unfold decodeFrom
  rw [if_neg (by omega), hl]
  rfl

theorem decodeFrom_short (maxCh : Nat) (buf : Memory) {n : Nat} (h : n < 4) (r : ScanRegs) :
    decodeFrom maxCh buf n r = .ok (.error .tooShort) := if_pos h

/-- Running one element of a scan and then the rest is running the scan (log 6). -/
theorem decodeFrom_round {maxCh : Nat} {buf : Memory} {n : Nat} {r : ScanRegs} (h : scanOver n r = false) :
    decodeFrom maxCh buf n (scanPair maxCh (buf.read (2 * r.c)) (buf.read (2 * r.c + 1)) r) =
      decodeFrom maxCh buf n r := by
  rcases Nat.lt_or_ge n 4 with hn | hn
  · rw [decodeFrom_short _ _ hn, decodeFrom_short _ _ hn]
  · obtain ⟨k, rfl⟩ : ∃ k, n = k + 1 := ⟨n - 1, by omega⟩
    obtain ⟨last, hl, -⟩ := scanLoop_reaches maxCh buf (k + 1) k
      (scanPair maxCh (buf.read (2 * r.c)) (buf.read (2 * r.c + 1)) r)
    have hover : scanOver (k + 1) last = true := by
      by_cases hs : sentinelAt buf r.c
      · rw [scanPair_stop maxCh r hs] at hl
        have ht : scanOver (k + 1) (scanTerm r) = true := scanOver_iff.mpr (.inl rfl)
        rw [scanLoop_over ht] at hl
        exact Except.ok.inj hl ▸ ht
      · rw [scanPair_go maxCh r hs] at hl
        exact scanLoop_ends (by simp only [scanLen]; omega) hl
    unfold decodeFrom
    rw [if_neg (by omega), if_neg (by omega), scanLoop_round h, hl, scanLoop_more hl hover 1]

/-- The arithmetic of a decoded frame (R83, R84, R91(a) to (e)). -/
theorem Scanned.offset_le {maxCh : Nat} {buf : Memory} {n : Nat} {last : ScanRegs} (h : Scanned maxCh buf n last) :
    2 * (last.c + last.terminated.toNat) ≤ n := by
  cases ht : last.terminated with
  | false =>
    rcases Nat.eq_zero_or_pos last.c with h0 | hpos
    · simp [h0]
    · have := (h.passed (last.c - 1) (by omega)).1
      simp
      omega
  | true =>
    have := (h.terminated ht).1
    simp
    omega

/-- A header element runs inside a scan that no terminator has stopped (log 6). -/
theorem inScan_next {s t : State} {f : ScanRegs → ScanRegs} :
    inScan s f = .next t ↔ ∃ r, s.work = .scan r ∧ r.terminated = false ∧ t = s.setWork (.scan (f r)) := by
  unfold inScan
  split
  · rename_i r hw
    split
    · simp_all
    · simp only [hw, Work.scan.injEq, Host.Outcome.next.injEq]
      constructor
      · intro h
        exact ⟨r, rfl, by simp_all, h.symm⟩
      · rintro ⟨r', rfl, -, rfl⟩
        rfl
  · rename_i hw
    simp only [reduceCtorEq, false_iff, not_exists, not_and]
    exact fun r hr => absurd hr (hw r)

theorem inScan_no_fault {s : State} {f : ScanRegs → ScanRegs} {e : Fault} : inScan s f ≠ .fault e := by
  unfold inScan
  split
  · split <;> simp
  · simp

end Sys2Proof.Machine
end

