-- ==== Sys2Proof/Laws/Payload.lean ====
section
/-! SUPPORT. The demultiplexer's loops (41_dispatch.md R93): when they answer buffers, which slots they write and with what (R98, R99,
R100), and that a part of a dispatch followed by its rest is the dispatch (log 6). -/

namespace Sys2Proof.Machine

theorem Except.bind_ok_iff {ε α β : Type} {x : Except ε α} {f : α → Except ε β} {b : β} :
    (x >>= f) = .ok b ↔ ∃ a, x = .ok a ∧ f a = .ok b := by
  cases x <;> simp [bind, Except.bind]

theorem copyPixel_ok {s : State} {c i q : Nat} {chb chb' : ChannelBuffers} :
    copyPixel s c i q chb = .ok chb' ↔ ∃ w, pixelAt s q = .ok w ∧ memWriteChb s.cfg chb c i w = .ok chb' :=
  Except.bind_ok_iff

theorem copyPixels_succ {s : State} {c cursor slots i : Nat} {chb chb' : ChannelBuffers} :
    copyPixels s c cursor (slots + 1) i chb = .ok chb' ↔
      ∃ mid, copyPixel s c i (cursor + i) chb = .ok mid ∧ copyPixels s c cursor slots (i + 1) mid = .ok chb' :=
  Except.bind_ok_iff

/-- The operands that R94 gives a channel. -/
theorem isChannel_iff {d : DecodedFrame} {c : Nat} {declared : HalfWord} :
    isChannel d c declared = true ↔ c < d.nchan ∧ declared = d.lengthAt c := by
  simp [isChannel]

theorem dispatchChannels_succ {s : State} {channels c cursor : Nat} {chb chb' : ChannelBuffers} :
    dispatchChannels s (channels + 1) c cursor chb = .ok chb' ↔
      ∃ mid, copyPixels s c cursor (copyCount s c (s.dec.lengthAt c) cursor) 0 chb = .ok mid ∧
        dispatchChannels s channels (c + 1) (cursor + (s.dec.lengthAt c).toNat) mid = .ok chb' :=
  Except.bind_ok_iff

/-! ### The loops depend on the state only through the datagram, the frame and the parameters -/

theorem pixelAt_congr {s t : State} (h1 : t.rxBuf = s.rxBuf) (h2 : t.rxLen = s.rxLen) (h3 : t.dec = s.dec) (q : Nat) :
    pixelAt t q = pixelAt s q := by
  simp [pixelAt, tripleOffset, h1, h2, h3]

theorem copyPixel_congr {s t : State} (h1 : t.rxBuf = s.rxBuf) (h2 : t.rxLen = s.rxLen) (h3 : t.dec = s.dec)
    (h4 : t.cfg = s.cfg) (c i q : Nat) (chb : ChannelBuffers) : copyPixel t c i q chb = copyPixel s c i q chb := by
  simp [copyPixel, pixelAt_congr h1 h2 h3, h4]

theorem copyPixels_congr {s t : State} (h1 : t.rxBuf = s.rxBuf) (h2 : t.rxLen = s.rxLen) (h3 : t.dec = s.dec)
    (h4 : t.cfg = s.cfg) (c cursor slots i : Nat) (chb : ChannelBuffers) :
    copyPixels t c cursor slots i chb = copyPixels s c cursor slots i chb := by
  induction slots generalizing i chb with
  | zero => rfl
  | succ k ih => simp only [copyPixels, copyPixel_congr h1 h2 h3 h4, ih]

theorem dispatchChannels_congr {s t : State} (h1 : t.rxBuf = s.rxBuf) (h2 : t.rxLen = s.rxLen) (h3 : t.dec = s.dec)
    (h4 : t.cfg = s.cfg) (channels c cursor : Nat) (chb : ChannelBuffers) :
    dispatchChannels t channels c cursor chb = dispatchChannels s channels c cursor chb := by
  induction channels generalizing c cursor chb with
  | zero => rfl
  | succ k ih =>
    simp only [dispatchChannels, copyCount, copyPixels_congr h1 h2 h3 h4, ih, h3, h4]

/-! ### The copies of one channel -/

theorem copyPixels_fits {s : State} {c cursor slots i : Nat} {chb chb' : ChannelBuffers}
    (h : copyPixels s c cursor slots i chb = .ok chb') (hf : s.cfg.fits chb) : s.cfg.fits chb' := by
  induction slots generalizing i chb with
  | zero => exact Except.ok.inj h ▸ hf
  | succ k ih =>
    obtain ⟨mid, hm, hr⟩ := copyPixels_succ.mp h
    obtain ⟨w, -, hw⟩ := copyPixel_ok.mp hm
    exact ih hr (memWriteChb_fits hw hf)

/-- Inside the payload and the buffer, the copies are made (R99). -/
theorem copyPixels_inside {s : State} {c cursor slots i : Nat} (chb : ChannelBuffers)
    (hc : c < s.cfg.maxChannels) (hi : i + slots ≤ s.cfg.capOf c)
    (hq : slots ≠ 0 → s.dec.offset + 3 * (cursor + i + slots) ≤ s.rxLen) :
    ∃ chb', copyPixels s c cursor slots i chb = .ok chb' := by
  induction slots generalizing i chb with
  | zero => exact ⟨chb, rfl⟩
  | succ k ih =>
    have hq' := hq (by omega)
    have hp := pixelAt_inside (s := s) (q := cursor + i) (by omega)
    have hs : slotExists s.cfg c i = true := slotExists_iff.mpr ⟨hc, by omega⟩
    obtain ⟨chb', h'⟩ := ih (i := i + 1) (chb.modify c fun row => row.set i _) (by omega) (fun _ => by omega)
    exact ⟨chb', copyPixels_succ.mpr ⟨_, copyPixel_ok.mpr ⟨_, hp, memWriteChb_ok.mpr ⟨hs, rfl⟩⟩, h'⟩⟩

/-- What the copies of a channel leave in every slot (R95, R98). -/
theorem copyPixels_read {s : State} (hp : s.cfg.wf) {c cursor slots i : Nat} {chb chb' : ChannelBuffers}
    (hf : s.cfg.fits chb) (h : copyPixels s c cursor slots i chb = .ok chb') (c' i' : Nat) :
    memReadChb s.cfg chb' c' i' =
      if c' = c ∧ i ≤ i' ∧ i' < i + slots then pixelAt s (cursor + i') else memReadChb s.cfg chb c' i' := by
  induction slots generalizing i chb with
  | zero =>
    rw [if_neg (by omega), Except.ok.inj h]
  | succ k ih =>
    obtain ⟨mid, hm, hr⟩ := copyPixels_succ.mp h
    obtain ⟨w, hpx, hw⟩ := copyPixel_ok.mp hm
    rw [ih (memWriteChb_fits hw hf) hr, memReadChb_write hp hf hw]
    by_cases hcc : c' = c
    · rcases Nat.lt_trichotomy i' i with hlt | rfl | hgt
      · rw [if_neg (by omega), if_neg (by omega), if_neg (by omega)]
      · rw [if_neg (by omega), if_pos ⟨hcc, rfl⟩, if_pos (by omega), hpx]
      · by_cases hin : i' < i + (k + 1)
        · rw [if_pos (by omega), if_pos (by omega)]
        · rw [if_neg (by omega), if_neg (by omega), if_neg (by omega)]
    · rw [if_neg (by omega), if_neg (by omega), if_neg (by omega)]

/-- A part of a channel's copies, then the rest, is all of them. -/
theorem copyPixels_split {s : State} {c cursor i : Nat} {chb mid : ChannelBuffers} (slots more : Nat)
    (h : copyPixels s c cursor slots i chb = .ok mid) :
    copyPixels s c cursor (slots + more) i chb = copyPixels s c cursor more (i + slots) mid := by
  induction slots generalizing i chb with
  | zero =>
    obtain rfl := Except.ok.inj h
    simp
  | succ k ih =>
    obtain ⟨m1, h1, h2⟩ := copyPixels_succ.mp h
    have he : k + 1 + more = (k + more) + 1 := by omega
    rw [he, copyPixels, h1]
    have := ih h2
    have ha : i + 1 + k = i + (k + 1) := by omega
    rw [ha] at this
    exact this

/-! ### The channels of one datagram -/

theorem DecodedFrame.cursorAt_succ (d : DecodedFrame) (c : Nat) :
    d.cursorAt (c + 1) = d.cursorAt c + (d.lengthAt c).toNat := by
  simp [DecodedFrame.cursorAt, List.range_succ]

theorem State.copied_eq (s : State) (c : Nat) :
    copyCount s c (s.dec.lengthAt c) (s.dec.cursorAt c) = s.copied c := rfl

theorem dispatchChannels_fits {s : State} {channels c cursor : Nat} {chb chb' : ChannelBuffers}
    (h : dispatchChannels s channels c cursor chb = .ok chb') (hf : s.cfg.fits chb) : s.cfg.fits chb' := by
  induction channels generalizing c cursor chb with
  | zero => exact Except.ok.inj h ▸ hf
  | succ k ih =>
    obtain ⟨mid, hm, hr⟩ := dispatchChannels_succ.mp h
    exact ih hr (copyPixels_fits hm hf)

/-- The copies of a channel whose slots fit stay inside the payload (R99). -/
theorem copyPixels_channel {s : State} (hs : FrameFits s) {c cursor : Nat} (hc : c < s.dec.nchan) (v : HalfWord)
    {i : Nat} (hi : i ≤ copyCount s c v cursor) (chb : ChannelBuffers) :
    ∃ chb', copyPixels s c cursor (copyCount s c v cursor - i) i chb = .ok chb' := by
  have hn := hs.nchan
  have hp := hs.payload
  unfold copyCount at hi ⊢
  refine copyPixels_inside chb (by omega) (by omega) fun hne => ?_
  omega

theorem dispatchChannels_inside {s : State} (hs : FrameFits s) {channels c cursor : Nat} (chb : ChannelBuffers)
    (hc : c + channels ≤ s.dec.nchan) : ∃ chb', dispatchChannels s channels c cursor chb = .ok chb' := by
  induction channels generalizing c cursor chb with
  | zero => exact ⟨chb, rfl⟩
  | succ k ih =>
    obtain ⟨mid, hm⟩ := copyPixels_channel (i := 0) (cursor := cursor) hs (by omega : c < s.dec.nchan)
      (s.dec.lengthAt c) (Nat.zero_le _) chb
    obtain ⟨chb', h'⟩ := ih (c := c + 1) (cursor := cursor + (s.dec.lengthAt c).toNat) mid (by omega)
    exact ⟨chb', dispatchChannels_succ.mpr ⟨mid, hm, h'⟩⟩

/-- What the channels from `c` on leave in every slot (R96, R98, R100). -/
theorem dispatchChannels_read {s : State} (hp : s.cfg.wf) {channels c cursor : Nat} {chb chb' : ChannelBuffers}
    (hf : s.cfg.fits chb) (hcur : cursor = s.dec.cursorAt c)
    (h : dispatchChannels s channels c cursor chb = .ok chb') (c' i' : Nat) :
    memReadChb s.cfg chb' c' i' =
      if c ≤ c' ∧ c' < c + channels ∧ i' < s.copied c' then pixelAt s (s.dec.cursorAt c' + i')
      else memReadChb s.cfg chb c' i' := by
  induction channels generalizing c cursor chb with
  | zero => rw [if_neg (by omega), Except.ok.inj h]
  | succ k ih =>
    obtain ⟨mid, hm, hr⟩ := dispatchChannels_succ.mp h
    subst hcur
    rw [State.copied_eq] at hm
    rw [ih (copyPixels_fits hm hf) (DecodedFrame.cursorAt_succ ..).symm hr, copyPixels_read hp hf hm]
    by_cases hcc : c' = c
    · subst hcc
      rw [if_neg (by omega)]
      by_cases hi : i' < s.copied c'
      · rw [if_pos (by omega), if_pos (by omega)]
      · rw [if_neg (by omega), if_neg (by omega)]
    · by_cases hin : c + 1 ≤ c' ∧ c' < c + 1 + k ∧ i' < s.copied c'
      · rw [if_pos hin, if_pos (by omega)]
      · rw [if_neg hin, if_neg (by omega), if_neg (by omega)]

/-- A frame decoded from the datagram fits it (R91, R99). -/
theorem State.frameCurrent_fits {s : State} (h : s.frameCurrent) : FrameFits s := by
  rcases Nat.lt_or_ge s.rxLen 4 with hn | hn
  · have := decodeFrame_short s.cfg.maxChannels s.rxBuf hn
    rw [State.frameCurrent, this] at h
    simp at h
  · obtain ⟨last, hd, hs⟩ := decodeFrame_ok s.cfg.maxChannels s.rxBuf hn
    rw [State.frameCurrent, hd] at h
    have he : s.dec = frameOf s.cfg.maxChannels s.rxLen last := by
      simpa using (Except.ok.inj (Except.ok.inj h)).symm
    have ho := hs.offset_le
    refine ⟨?_, ?_⟩
    · rw [he]
      simp [frameOf]
    · rw [he]
      simp only [frameOf, payloadOffset]
      omega

end Sys2Proof.Machine
end

