-- ==== Sys2Proof/Laws/Exec.lean ====
section
/-! SUPPORT. For each meaning, what it has done when it answers a next state (42_control.md R106 to R118, 41_dispatch.md R94, R95),
and for each fetch, where its instruction comes from. Later proofs cite these instead of unfolding a meaning. -/

namespace Sys2Proof.Machine

variable {s t : State}

theorem next_iff {a b : State} : (Host.Outcome.next a : StepOutcome) = .next b ↔ b = a :=
  ⟨fun h => (Host.Outcome.next.inj h).symm, fun h => h ▸ rfl⟩

/-! ### Control steps -/

theorem execInitReq_next :
    execInitReq s = .next t ↔
      s.fsm = .init ∧ t = (s.record (.initReq s.cfg.channelConfig)).setFsm .initWait := by
  rw [execInitReq, enabledIn_next, next_iff]

theorem execInitOk_next :
    execInitOk s = .next t ↔ s.fsm = .initWait ∧ loopHead (s.record (.input (.initResp true))) = .next t :=
  enabledIn_next

theorem execInitFail_next :
    execInitFail s = .next t ↔
      s.fsm = .initWait ∧ s.exitStatus = .none ∧
        t = ((s.record (.input (.initResp false))).setExit .initError).setFsm .halted := by
  simp [execInitFail, enabledIn_next, raiseFatal_next, FatalError.status, fatalTarget]

theorem execRxData_next {r : Int} {bytes : List Byte} :
    execRxData r bytes s = .next t ↔
      s.fsm = .waitingForPacket ∧ 4 ≤ r ∧ dutyKept s.cfg r bytes = true ∧
        t = ((receive bytes s).record (.input (.rx r bytes))).setFsm .decoding := by
  unfold execRxData
  rw [enabledIn_next]
  by_cases h : 4 ≤ r <;> simp only [h, if_true, if_false, onDuty_next, next_iff, true_and, false_and, and_false, reduceCtorEq]

theorem execRxShort_next {r : Int} {bytes : List Byte} :
    execRxShort r bytes s = .next t ↔
      s.fsm = .waitingForPacket ∧ (0 ≤ r ∧ r ≤ 3) ∧ dutyKept s.cfg r bytes = true ∧
        loopHead ((receive bytes s).record (.input (.rx r bytes))) = .next t := by
  unfold execRxShort
  rw [enabledIn_next]
  by_cases h : 0 ≤ r ∧ r ≤ 3 <;> simp [h, onDuty_next, raiseDrop_eq]

theorem execRxError_next {r : Int} :
    execRxError r s = .next t ↔
      s.fsm = .waitingForPacket ∧ r < 0 ∧ loopHead (s.record (.input (.rx r []))) = .next t := by
  unfold execRxError
  rw [enabledIn_next]
  by_cases h : r < 0 <;> simp [h, raiseDrop_eq]

theorem runDecode_next {r : ScanRegs} :
    runDecode r s = .next t ↔
      (s.rxLen < 4 ∧ loopHead (s.setWork .idle) = .next t) ∨
      (∃ frame, decodeFrom s.cfg.maxChannels s.rxBuf s.rxLen r = .ok (.ok frame) ∧
        t = ((s.setDec frame).setWork .idle).setFsm .dispatching) := by
  unfold runDecode
  rcases Nat.lt_or_ge s.rxLen 4 with hn | hn
  · simp [decodeFrom_short _ _ hn, orFault, hn, raiseDrop_eq]
  · obtain ⟨last, hd, -⟩ := decodeFrom_ok s.cfg.maxChannels s.rxBuf hn r
    rw [hd]
    simp [-Host.Outcome.next.injEq, orFault, Nat.not_lt.mpr hn, next_iff]

theorem execDecode_next :
    execDecode s = .next t ↔
      s.fsm = .decoding ∧
        ((s.work = .idle ∧ runDecode .start s = .next t) ∨ ∃ r, s.work = .scan r ∧ runDecode r s = .next t) := by
  unfold execDecode
  rw [enabledIn_next]
  cases hw : s.work <;> simp

theorem execDispatch_next :
    execDispatch s = .next t ↔
      s.fsm = .dispatching ∧ (∀ r, s.work ≠ .scan r) ∧ ∃ chb, dispatchBuffers s = .ok chb ∧
        t = (((s.setChbuf chb).setWork .idle).record (.renderReq chb)).setFsm .rendering := by
  unfold execDispatch
  rw [enabledIn_next]
  cases hw : s.work <;> simp [-Host.Outcome.next.injEq, orFault_next, next_iff]

theorem execRenderOk_next :
    execRenderOk s = .next t ↔
      s.fsm = .rendering ∧ t = (s.record (.input (.renderResp true))).setFsm .pacedIdle := by
  rw [execRenderOk, enabledIn_next, next_iff]

theorem execRenderFail_next :
    execRenderFail s = .next t ↔
      s.fsm = .rendering ∧ s.exitStatus = .none ∧
        t = ((s.record (.input (.renderResp false))).setExit .renderError).setFsm (fatalTarget s.cfg .renderError) := by
  simp [execRenderFail, enabledIn_next, raiseFatal_next, FatalError.status]

theorem execPace_next : execPace s = .next t ↔ s.fsm = .pacedIdle ∧ loopHead s = .next t := enabledIn_next

theorem execCancel_next :
    execCancel s = .next t ↔ t = (s.setLooping (loopingAfterCancel s)).record (.input .cancel) := by
  rw [execCancel, next_iff]

theorem execFinalize_next :
    execFinalize s = .next t ↔
      s.fsm = .shutdown ∧ s.finalized = false ∧ t = ((s.record .finalizeReq).setFinalized true).setFsm .halted := by
  unfold execFinalize
  rw [enabledIn_next]
  cases h : s.finalized <;> simp [-Host.Outcome.next.injEq, next_iff]

/-! ### Wire elements and micro-operations -/

theorem execLen_next {lo hi : Byte} :
    execLen lo hi s = .next t ↔
      ∃ r, s.work = .scan r ∧ r.terminated = false ∧ t = s.setWork (.scan (scanLen s.cfg.maxChannels lo hi r)) :=
  inScan_next

theorem execTermL_next {hi : Byte} :
    execTermL hi s = .next t ↔
      ∃ r, s.work = .scan r ∧ r.terminated = false ∧ t = s.setWork (.scan (scanTerm r)) := inScan_next

theorem execTermH_next {lo : Byte} :
    execTermH lo s = .next t ↔
      ∃ r, s.work = .scan r ∧ r.terminated = false ∧ t = s.setWork (.scan (scanTerm r)) := inScan_next

theorem execPix_next {r g b : Byte} :
    execPix r g b s = .next t ↔
      ∃ k, s.work = .copy k ∧ t = s.setWork (.copy { k with pixel := some (pixelWord r g b) }) := by
  unfold execPix
  cases hw : s.work <;> simp [-Host.Outcome.next.injEq, next_iff]

theorem runChannel_next {k : CopyRegs} :
    runChannel k s = .next t ↔
      ∃ chb, finishCopy s k = .ok chb ∧
        t = (s.setChbuf chb).setWork (.demux (k.c + 1) (k.cursor + k.declared.toNat)) := by
  simp [-Host.Outcome.next.injEq, runChannel, orFault_next, next_iff]

theorem execDispatchCh_next {c : Nat} {declared : HalfWord} :
    execDispatchCh c declared s = .next t ↔
      (∃ cursor, s.work = .demux c cursor ∧ isChannel s.dec c declared = true ∧ runChannel (.start s c cursor declared) s = .next t) ∨
      (∃ k, s.work = .copy k ∧ c = k.c ∧ declared = k.declared ∧ runChannel k s = .next t) := by
  unfold execDispatchCh
  cases hw : s.work with
  | idle => simp
  | scan r => simp
  | demux at_ cursor =>
    by_cases hc : c = at_
    · by_cases hd : isChannel s.dec c declared = true
      · simp [hc, hc ▸ hd]
      · simp [hc, hc ▸ hd]
    · simp [hc, Ne.symm hc]
  | copy k =>
    by_cases hc : c = k.c ∧ declared = k.declared
    · simp [hc]
    · simp only [if_neg hc, reduceCtorEq, false_and, exists_false, Work.copy.injEq, false_or, false_iff, not_exists]
      rintro k' ⟨rfl, h1, h2, -⟩
      exact hc ⟨h1, h2⟩

theorem execCopyPx_next {c i q : Nat} :
    execCopyPx c i q s = .next t ↔
      ∃ k chb, s.work = .copy k ∧ (c = k.c ∧ i = k.i ∧ i < k.m ∧ q = k.cursor + k.i) ∧
        copyPixel s c i q s.chbuf = .ok chb ∧
        t = (s.setChbuf chb).setWork (.copy { k with i := k.i + 1, pixel := none }) := by
  unfold execCopyPx
  cases hw : s.work with
  | idle => simp
  | scan r => simp
  | demux at_ cursor => simp
  | copy k =>
    by_cases hc : c = k.c ∧ i = k.i ∧ i < k.m ∧ q = k.cursor + k.i
    · simp only [if_pos hc, orFault_next, Work.copy.injEq, Host.Outcome.next.injEq]
      constructor
      · rintro ⟨chb, hcp, rfl⟩
        exact ⟨k, chb, rfl, hc, hcp, rfl⟩
      · rintro ⟨k', chb, rfl, -, hcp, rfl⟩
        exact ⟨chb, hcp, rfl⟩
    · simp only [if_neg hc, reduceCtorEq, false_iff, not_exists, Work.copy.injEq]
      rintro k' chb ⟨rfl, h, -⟩
      exact hc h

/-! ### Fetching -/

theorem fetch_idle (h : s.work = .idle) : fetch s = fetchControl s := by
  unfold fetch
  rw [h]

theorem fetch_scan {r : ScanRegs} (h : s.work = .scan r) : fetch s = fetchScan r s := by
  unfold fetch
  rw [h]

theorem fetch_demux {c cursor : Nat} (h : s.work = .demux c cursor) : fetch s = fetchDemux c s := by
  unfold fetch
  rw [h]

theorem fetch_copy {k : CopyRegs} (h : s.work = .copy k) : fetch s = fetchCopy k s := by
  unfold fetch
  rw [h]

theorem Offer.due_iff {o : Offer} {f : Fsm} : o.due f = true ↔ o.before = some f := by
  simp [Offer.due]

/-- Between control steps, what the next step runs: an internal step in the same state, or the environment's next move. -/
theorem fetchControl_run {i : Instr} :
    fetchControl s = .run i t →
      (internalStep s = some i ∧ t = s) ∨
      (∃ o rest, s.inputs = o :: rest ∧ i = classifyInput o.input ∧ inputOnDuty s.cfg o.input = true ∧
        t = s.setInputs rest) := by
  have offer : ∀ o rest, fetchOffer o rest s = .run i t →
      i = classifyInput o.input ∧ inputOnDuty s.cfg o.input = true ∧ t = s.setInputs rest := by
    intro o rest h
    unfold fetchOffer at h
    split at h
    · rename_i hd
      obtain ⟨rfl, rfl⟩ := Fetched.run.inj h
      exact ⟨rfl, hd, rfl⟩
    · simp at h
  intro h
  unfold fetchControl at h
  split at h
  · split at h
    · rename_i j hi
      obtain ⟨rfl, rfl⟩ := Fetched.run.inj h
      exact .inl ⟨hi, rfl⟩
    · simp at h
  · rename_i o rest ho
    split at h
    · exact .inr ⟨o, rest, ho, offer o rest h⟩
    · split at h
      · rename_i j hi
        obtain ⟨rfl, rfl⟩ := Fetched.run.inj h
        exact .inl ⟨hi, rfl⟩
      · exact .inr ⟨o, rest, ho, offer o rest h⟩

/-- The internal step comes next unless the next move is due before it. -/
theorem fetchControl_internal {i : Instr} (hi : internalStep s = some i)
    (ho : ∀ o ∈ s.inputs.head?, o.before ≠ some s.fsm) : fetchControl s = .run i s := by
  unfold fetchControl
  cases hin : s.inputs with
  | nil => simp [hi]
  | cons o rest =>
    have hd : ¬ o.due s.fsm = true := fun h => ho o (by simp [hin]) (Offer.due_iff.mp h)
    simp [hi, hd]

/-- The next move comes next where it is due, or where the block has no internal step. -/
theorem fetchControl_offer {o : Offer} {rest : List Offer} (hin : s.inputs = o :: rest)
    (h : o.before = some s.fsm ∨ internalStep s = none) : fetchControl s = fetchOffer o rest s := by
  unfold fetchControl
  rcases h with h | h
  · simp [hin, Offer.due_iff.mpr h]
  · simp [hin, h]

theorem fetchControl_no_fault {f : Fault} : fetchControl s ≠ .fault f := by
  unfold fetchControl fetchOffer
  repeat' split
  all_goals simp

/-- Inside a scan, the next step runs the pair at `2c`, or closes the scan. -/
theorem fetchScan_eq (r : ScanRegs) (s : State) :
    fetchScan r s =
      if scanOver s.rxLen r = true then .run .decode s
      else .run (classifyPair (s.rxBuf.read (2 * r.c)) (s.rxBuf.read (2 * r.c + 1))) s := by
  unfold fetchScan
  by_cases h : scanOver s.rxLen r = true
  · rw [if_pos (scanOver_iff.mp h), if_pos h]
  · have h' := mt scanOver_iff.mpr h
    rw [if_neg h', if_neg h, readPair_inside (by omega)]

/-- The state that an instruction was fetched in, but for the environment's move taken. -/
theorem fetch_run {i : Instr} (h : fetch s = .run i t) : ∃ os, t = s.setInputs os := by
  unfold fetch at h
  split at h
  · rcases fetchControl_run h with ⟨-, rfl⟩ | ⟨o, rest, -, -, -, rfl⟩
    · exact ⟨_, rfl⟩
    · exact ⟨rest, rfl⟩
  · rw [fetchScan_eq] at h
    split at h <;> (obtain ⟨-, rfl⟩ := Fetched.run.inj h; exact ⟨_, rfl⟩)
  · unfold fetchDemux at h
    split at h <;> (obtain ⟨-, rfl⟩ := Fetched.run.inj h; exact ⟨_, rfl⟩)
  · unfold fetchCopy at h
    split at h
    · split at h
      · obtain ⟨-, rfl⟩ := Fetched.run.inj h
        exact ⟨_, rfl⟩
      · split at h
        · obtain ⟨-, rfl⟩ := Fetched.run.inj h
          exact ⟨_, rfl⟩
        · simp at h
    · obtain ⟨-, rfl⟩ := Fetched.run.inj h
      exact ⟨_, rfl⟩

/-- A step that answers a next state has fetched an instruction and run it. -/
theorem step_next (h : step s = .next t) : ∃ i s', fetch s = .run i s' ∧ exec i s' = .next t := by
  unfold step at h
  split at h
  · rename_i i s' hf
    exact ⟨i, s', hf, h⟩
  · simp at h
  · simp at h

/-- A step runs what was fetched. -/
theorem step_run {i : Instr} {s' : State} (h : fetch s = .run i s') : step s = exec i s' := by
  unfold step
  rw [h]

/-! ### Runs -/

theorem runSteps_succ (k : Nat) (s : State) :
    runSteps (k + 1) s =
      match step s with
      | .next t => runSteps k t
      | .fault f => .fault f
      | .refused r => .refused r := rfl

theorem runSteps_next (k : Nat) (h : step s = .next t) : runSteps (k + 1) s = runSteps k t := by
  rw [runSteps_succ, h]

/-- What every step keeps, a run of any length keeps. -/
theorem runSteps_keeps {P : State → Prop} (keeps : ∀ s t, P s → step s = .next t → P t) (n : Nat) (hs : P s)
    (h : runSteps n s = .next t) : P t := by
  induction n generalizing s with
  | zero => exact Host.Outcome.next.inj h ▸ hs
  | succ k ih =>
    rw [runSteps_succ] at h
    split at h
    · rename_i u hu
      exact ih (keeps s u hs hu) h
    · simp at h
    · simp at h

/-- A run followed by a run is a run. -/
theorem runSteps_add (m k : Nat) (h : runSteps m s = .next t) : runSteps (m + k) s = runSteps k t := by
  induction m generalizing s with
  | zero =>
    obtain rfl := Host.Outcome.next.inj h
    rw [Nat.zero_add]
  | succ n ih =>
    rw [runSteps_succ] at h
    rw [Nat.succ_add, runSteps_succ]
    cases hu : step s with
    | next u =>
      rw [hu] at h
      exact ih h
    | fault f => simp [hu] at h
    | refused r => simp [hu] at h

end Sys2Proof.Machine
end

