-- ==== Sys2Proof/Laws/PerInstr.lean ====
section
/-! SUPPORT. A statement made per instruction: how many bytes each one's encoding has (spec/opcode_table.json; 30_encoding.md
R60, R65, R66, R72; the bytes of a port event after its kind code are the model's own, log 11). -/

namespace Sys2Proof.Laws

/-- The number of bytes of an instruction's encoding, for those that have one. -/
def encodedBytes : Instr → Option Nat
  | .len _ _ => some 2
  | .termL _ => some 2
  | .termH _ => some 2
  | .pix _ _ _ => some 3
  | .tail bytes => some bytes.length
  | .dispatchCh _ _ => none
  | .copyPx _ _ _ => none
  | .initReq => some 1
  | .initOk => some 1
  | .initFail => some 1
  | .rxData _ bytes => some (5 + bytes.length)
  | .rxShort _ bytes => some (5 + bytes.length)
  | .rxError _ => some 5
  | .decode => none
  | .dispatch => some 1
  | .renderOk => some 1
  | .renderFail => some 1
  | .pace => none
  | .cancel => some 1
  | .finalize => some 1

/-- The encoding has the stated number of bytes. -/
def EncodedSize.Statement (i : Instr) : Prop := (encode i).map List.length = encodedBytes i

theorem length_encodeResult (r : Int) (bytes : List Byte) : (encodeResult r bytes).length = 5 + bytes.length := by
  simp [encodeResult, le32Bytes]
  omega

theorem EncodedSize.len (lo hi : Byte) : EncodedSize.Statement (.len lo hi) := rfl
theorem EncodedSize.termL (hi : Byte) : EncodedSize.Statement (.termL hi) := rfl
theorem EncodedSize.termH (lo : Byte) : EncodedSize.Statement (.termH lo) := rfl
theorem EncodedSize.pix (r g b : Byte) : EncodedSize.Statement (.pix r g b) := rfl
theorem EncodedSize.tail (bytes : List Byte) : EncodedSize.Statement (.tail bytes) := rfl
theorem EncodedSize.dispatchCh (c : Nat) (declared : HalfWord) : EncodedSize.Statement (.dispatchCh c declared) := rfl
theorem EncodedSize.copyPx (c i q : Nat) : EncodedSize.Statement (.copyPx c i q) := rfl
theorem EncodedSize.initReq : EncodedSize.Statement .initReq := rfl
theorem EncodedSize.initOk : EncodedSize.Statement .initOk := rfl
theorem EncodedSize.initFail : EncodedSize.Statement .initFail := rfl
theorem EncodedSize.rxData (r : Int) (bytes : List Byte) : EncodedSize.Statement (.rxData r bytes) :=
  congrArg some (length_encodeResult r bytes)
theorem EncodedSize.rxShort (r : Int) (bytes : List Byte) : EncodedSize.Statement (.rxShort r bytes) :=
  congrArg some (length_encodeResult r bytes)
theorem EncodedSize.rxError (r : Int) : EncodedSize.Statement (.rxError r) := congrArg some (length_encodeResult r [])
theorem EncodedSize.decode : EncodedSize.Statement .decode := rfl
theorem EncodedSize.dispatch : EncodedSize.Statement .dispatch := rfl
theorem EncodedSize.renderOk : EncodedSize.Statement .renderOk := rfl
theorem EncodedSize.renderFail : EncodedSize.Statement .renderFail := rfl
theorem EncodedSize.pace : EncodedSize.Statement .pace := rfl
theorem EncodedSize.cancel : EncodedSize.Statement .cancel := rfl
theorem EncodedSize.finalize : EncodedSize.Statement .finalize := rfl

end Sys2Proof.Laws
end

