-- ==== Sys2Proof/Tests/Slice0.lean ====
section
/-! SUPPORT. Tests. Expected values are those of 95_test_vectors.md (the vector is named), of the rule's own example, or worked by
hand from the rule. The `witness` theorems show states and operands that meet the hypotheses of a statement. -/

namespace Sys2Proof.Tests

open Sys2Proof.Machine

/-! ### Small states -/

/-- Two channels of 3 and 2 slots, a 16-byte receive buffer (P2's capacities). -/
def params : Params := ⟨2, [3, 2], 16, 0, true, [⟨3, 0, 0⟩, ⟨2, 0, 0⟩]⟩

/-- The `INIT_PIXELS` convention of 95_test_vectors.md. -/
def pixels : ChannelBuffers := [[0xAA000000, 0xAA000001, 0xAA000002], [0xAA010000, 0xAA010001]]

def start : State := State.resetWith params pixels

def inFsm (f : Fsm) : State := start.setFsm f

/-- A state of the control loop with a datagram in the receive buffer. -/
def holding (f : Fsm) (bytes : List Byte) : State := receive bytes (inFsm f)

/-- `HDR(1, 1) + PX(12,34,56) + PX(A0,B0,C0)`, 12 bytes. -/
def twoPixels : List Byte := [0x01, 0x00, 0x01, 0x00, 0xFF, 0x00, 0x12, 0x34, 0x56, 0xA0, 0xB0, 0xC0]

/-- Its frame (R78). -/
def twoFrame : DecodedFrame := ⟨[1, 1], 2, 2, true, 6, 2⟩

/-- `DISPATCHING` with that datagram decoded. -/
def decoded : State := (holding .dispatching twoPixels).setDec twoFrame

/-- A field of the next state, if there is one. -/
def fieldOf {α : Type} (o : StepOutcome) (f : State → α) : Option α :=
  match o with
  | .next s => some (f s)
  | .fault _ => none
  | .refused _ => none

/-- The refusal, if there is one. -/
def refusalOf (o : StepOutcome) : Option Refusal :=
  match o with
  | .refused r => some r
  | .next _ => none
  | .fault _ => none

/-- The fault, if there is one. -/
def faultOf (o : StepOutcome) : Option Fault :=
  match o with
  | .fault f => some f
  | .next _ => none
  | .refused _ => none

/-! ### Ill-formed terms -/

theorem test_len_lo_sentinel : (Instr.len 0xFF 0x00).wellFormed params = false := by decide
theorem test_len_hi_sentinel : (Instr.len 0x00 0xFF).wellFormed params = false := by decide
theorem test_termH_lo_sentinel : (Instr.termH 0xFF).wellFormed params = false := by decide
theorem test_tail_three : (Instr.tail [0, 0, 0]).wellFormed params = false := by decide
theorem test_dispatchCh_channel : (Instr.dispatchCh 2 0).wellFormed params = false := by decide
theorem test_dispatchCh_length : (Instr.dispatchCh 0 0x00FF).wellFormed params = false := by decide
theorem test_dispatchCh_length_hi : (Instr.dispatchCh 0 0xFF00).wellFormed params = false := by decide
theorem test_copyPx_channel : (Instr.copyPx 2 0 0).wellFormed params = false := by decide
theorem test_copyPx_slot : (Instr.copyPx 1 2 0).wellFormed params = false := by decide
theorem test_rxData_short : (Instr.rxData 3 [0, 0, 0]).wellFormed params = false := by decide
theorem test_rxData_count : (Instr.rxData 5 [0, 0, 0, 0]).wellFormed params = false := by decide
theorem test_rxData_size : (Instr.rxData 17 (List.replicate 17 0)).wellFormed params = false := by decide
theorem test_rxShort_negative : (Instr.rxShort (-1) []).wellFormed params = false := by decide
theorem test_rxShort_long : (Instr.rxShort 4 [0, 0, 0, 0]).wellFormed params = false := by decide
theorem test_rxShort_count : (Instr.rxShort 2 [0]).wellFormed params = false := by decide
theorem test_rxError_zero : (Instr.rxError 0).wellFormed params = false := by decide

/-! ### Words written out from the encodings (V2.1, V2.2; R60, R65, R66, R72) -/

theorem test_decode_len : firstOf (decode .header [0x05, 0x00]) = some (.len 0x05 0x00) := by decide
theorem test_decode_len_largest : firstOf (decode .header [0xFE, 0xFE]) = some (.len 0xFE 0xFE) := by decide
theorem test_decode_termL : firstOf (decode .header [0xFF, 0x01]) = some (.termL 0x01) := by decide
theorem test_decode_termL_both : firstOf (decode .header [0xFF, 0xFF]) = some (.termL 0xFF) := by decide
theorem test_decode_termH : firstOf (decode .header [0xFE, 0xFF]) = some (.termH 0xFE) := by decide
theorem test_decode_pix : firstOf (decode .payload [0x12, 0x34, 0x56]) = some (.pix 0x12 0x34 0x56) := by decide
theorem test_decode_tail : firstOf (decode .tail [0x00, 0x09]) = some (.tail [0x00, 0x09]) := by decide
theorem test_decode_initReq : firstOf (decode .port [0x08]) = some .initReq := by decide
theorem test_decode_initOk : firstOf (decode .port [0x11]) = some .initOk := by decide
theorem test_decode_initFail : firstOf (decode .port [0x01]) = some .initFail := by decide
theorem test_decode_rxData :
    firstOf (decode .port [0x02, 0x04, 0x00, 0x00, 0x00, 0xFF, 0x00, 0x00, 0x00]) =
      some (.rxData 4 [0xFF, 0x00, 0x00, 0x00]) := by decide
theorem test_decode_rxShort :
    firstOf (decode .port [0x02, 0x03, 0x00, 0x00, 0x00, 0x05, 0x00, 0xFF]) = some (.rxShort 3 [0x05, 0x00, 0xFF]) := by
  decide
theorem test_decode_rxError : firstOf (decode .port [0x02, 0xFF, 0xFF, 0xFF, 0xFF]) = some (.rxError (-1)) := by decide
theorem test_decode_dispatch : firstOf (decode .port [0x09]) = some .dispatch := by decide
theorem test_decode_renderOk : firstOf (decode .port [0x13]) = some .renderOk := by decide
theorem test_decode_renderFail : firstOf (decode .port [0x03]) = some .renderFail := by decide
theorem test_decode_cancel : firstOf (decode .port [0x04]) = some .cancel := by decide
theorem test_decode_finalize : firstOf (decode .port [0x0A]) = some .finalize := by decide
theorem test_no_bytes :
    [Instr.dispatchCh 0 0, .copyPx 0 0 0, .decode, .pace].map encode = [none, none, none, none] := by decide
theorem test_reject_kind : decode .port [0x05] = .error (.unknownKind 5) := rfl
theorem test_reject_result : decode .port [0x02, 0x01, 0x00, 0x00, 0x00] = .error .resultTooShort := rfl
theorem test_reject_triple : decode .payload [0x01, 0x02] = .error .tripleTooShort := rfl
theorem test_reject_tail : decode .tail [0, 0, 0] = .error .tailTooLong := rfl

/-- The elements of V1.2's shape with one pixel and a tail: `HDR(1) + PX(1,2,3) + PAD(1)`. -/
theorem test_elements :
    elements [0x01, 0x00, 0xFF, 0x00, 0x01, 0x02, 0x03, 0x00] =
      [.len 0x01 0x00, .termL 0x00, .pix 0x01 0x02 0x03, .tail [0x00]] := by decide

/-! ### The notation of scripts (R73, R74) -/

/-- P2's datagram d3. -/
theorem test_assemble : assemble [.endFF, .pad 2] = some [0xFF, 0xFF, 0x00, 0x00] := by decide
theorem test_assemble_unencodable : assemble [.hdr [511]] = none := by decide

/-! ### One step of each instruction -/

theorem test_reset_view : start.statusView = 0x10 := by decide

/-- R79: kept while the channel exists. -/
theorem test_len : fieldOf (exec (.len 0x01 0x02) (start.setWork (.scan ⟨1, false, [5]⟩))) State.work =
    some (.scan ⟨2, false, [5, 513]⟩) := by decide
theorem test_len_excess : fieldOf (exec (.len 0x07 0x00) (start.setWork (.scan ⟨2, false, [4, 3]⟩))) State.work =
    some (.scan ⟨3, false, [4, 3]⟩) := by decide
theorem test_termL : fieldOf (exec (.termL 0x00) (start.setWork (.scan ⟨1, false, [5]⟩))) State.work =
    some (.scan ⟨1, true, [5]⟩) := by decide
theorem test_termH : fieldOf (exec (.termH 0x10) (start.setWork (.scan ⟨1, false, [2]⟩))) State.work =
    some (.scan ⟨1, true, [2]⟩) := by decide
/-- V2.2. -/
theorem test_pix : fieldOf (exec (.pix 0xA0 0xB0 0xC0) (start.setWork (.copy ⟨0, 0, 1, 1, 0, none⟩))) State.work =
    some (.copy ⟨0, 0, 1, 1, 0, some 0x00A0B0C0⟩) := by decide
theorem test_tail : fieldOf (exec (.tail [0x00]) start) (fun s => s == start) = some true := by decide
/-- R96: the cursor advances by the declared length, past what was copied. -/
theorem test_dispatchCh : fieldOf (exec (.dispatchCh 1 7) ((decoded.setDec ⟨[1, 7], 2, 2, true, 6, 2⟩).setWork (.demux 1 1)))
    (fun s => (s.work, s.chbuf[1]?)) = some (.demux 2 8, some [0x00A0B0C0, 0xAA010001]) := by decide
/-- X5: a cursor beyond the payload copies nothing. -/
theorem test_dispatchCh_beyond : fieldOf (exec (.dispatchCh 1 2) ((decoded.setDec ⟨[3, 2], 2, 2, true, 6, 2⟩).setWork (.demux 1 3)))
    (fun s => (s.work, s.chbuf == pixels)) = some (.demux 2 5, true) := by decide
/-- R95: the slot counts from the start of the channel's buffer. -/
theorem test_copyPx : fieldOf (exec (.copyPx 1 0 1) (decoded.setWork (.copy ⟨1, 1, 1, 1, 0, none⟩))) State.chbuf =
    some [[0xAA000000, 0xAA000001, 0xAA000002], [0x00A0B0C0, 0xAA010001]] := by decide
/-- K1. -/
theorem test_initReq : fieldOf (exec .initReq start) (fun s => (s.statusView, s.trace)) =
    some (0x11, [.initReq params.channelConfig]) := by decide
/-- K2, K3. -/
theorem test_initOk : fieldOf (exec .initOk (inFsm .initWait)) State.statusView = some 0x12 := by decide
theorem test_initOk_cancelled :
    fieldOf (exec .initOk ((inFsm .initWait).setLooping false)) State.statusView = some 0x47 := by decide
/-- K4. -/
theorem test_initFail : fieldOf (exec .initFail (inFsm .initWait)) State.statusView = some 0xD8 := by decide
/-- K6; the bytes at and beyond `r` stay as they were (R48). -/
theorem test_rxData :
    fieldOf (exec (.rxData 4 [0xFF, 0x00, 0x00, 0x00]) (holding .waitingForPacket [1, 2, 3, 4, 5]))
      (fun s => (s.statusView, s.rxLen, s.rxBuf)) = some (0x13, 4, [(0, 0xFF), (4, 5)]) := by decide
/-- K26. -/
theorem test_rxData_unsolicited : refusalOf (exec (.rxData 4 [0xFF, 0x00, 0x00, 0x00]) (inFsm .rendering)) =
    some .notEnabled := by decide
/-- K7, K9. -/
theorem test_rxShort : fieldOf (exec (.rxShort 3 [0x05, 0x00, 0xFF]) (inFsm .waitingForPacket))
    (fun s => (s.statusView, s.rxLen, s.chbuf == pixels)) = some (0x12, 3, true) := by decide
theorem test_rxShort_cancelled :
    fieldOf (exec (.rxShort 2 [0xFF, 0xFF]) ((inFsm .waitingForPacket).setLooping false)) State.statusView =
      some 0x47 := by decide
/-- K10, K11. -/
theorem test_rxError : fieldOf (exec (.rxError (-1)) (holding .waitingForPacket [1, 2, 3, 4]))
    (fun s => (s.statusView, s.rxLen, s.rxBuf)) = some (0x12, 4, [(0, 1), (1, 2), (2, 3), (3, 4)]) := by decide
theorem test_rxError_cancelled :
    fieldOf (exec (.rxError (-1)) ((inFsm .waitingForPacket).setLooping false)) State.statusView = some 0x47 := by decide
/-- D-18: the header ends at a `TERM.H` pair. -/
theorem test_decode : fieldOf (exec .decode
      (holding .decoding [0x02, 0x00, 0x10, 0xFF, 0x00, 0x00, 0x00, 0x01, 0x01, 0x01])) State.dec =
    some ⟨[2], 1, 1, true, 4, 2⟩ := by decide
/-- D-23: unterminated, odd, more length fields than channels. -/
theorem test_decode_unterminated :
    fieldOf (exec .decode (holding .decoding [0x01, 0x00, 0x02, 0x00, 0x03, 0x00, 0x09])) State.dec =
      some ⟨[1, 2], 2, 3, false, 6, 0⟩ := by decide
/-- R93, R113: the copies, and a snapshot of every slot. -/
theorem test_dispatch : fieldOf (exec .dispatch decoded) (fun s => (s.statusView, s.trace)) =
    some (0x15, [.renderReq [[0x00123456, 0xAA000001, 0xAA000002], [0x00A0B0C0, 0xAA010001]]]) := by decide
/-- K14. -/
theorem test_renderOk : fieldOf (exec .renderOk (inFsm .rendering)) State.statusView = some 0x16 := by decide
/-- K15, K17. -/
theorem test_renderFail : fieldOf (exec .renderFail (inFsm .rendering)) State.statusView = some 0x97 := by decide
theorem test_renderFail_cancelled :
    fieldOf (exec .renderFail ((inFsm .rendering).setLooping false)) State.statusView = some 0x87 := by decide
/-- K18, K19. -/
theorem test_pace : fieldOf (exec .pace (inFsm .pacedIdle)) State.statusView = some 0x12 := by decide
theorem test_pace_cancelled :
    fieldOf (exec .pace ((inFsm .pacedIdle).setLooping false)) State.statusView = some 0x47 := by decide
/-- K20, K21. -/
theorem test_cancel : fieldOf (exec .cancel (inFsm .dispatching)) State.statusView = some 0x04 := by decide
theorem test_cancel_halted :
    fieldOf (exec .cancel ((inFsm .halted).setExit .initError)) State.statusView = some 0xD8 := by decide
/-- K23; R118: at most once. -/
theorem test_finalize : fieldOf (exec .finalize (((inFsm .shutdown).setLooping false).setExit .clean))
    (fun s => (s.statusView, s.trace)) = some (0x68, [.finalizeReq]) := by decide
theorem test_finalize_twice : refusalOf (exec .finalize ((inFsm .shutdown).setFinalized true)) = some .notEnabled := by
  decide

/-! ### Fetch and placement -/

theorem test_step_reset : fieldOf (step start) State.fsm = some .initWait := by decide
theorem test_step_waits : refusalOf (step (inFsm .rendering)) = some .awaitingHost := by decide
theorem test_step_ended : refusalOf (step (inFsm .halted)) = some .runEnded := by decide
/-- P6: a cancellation before the renderer has answered. -/
theorem test_step_early : fieldOf (step (start.setInputs [⟨.cancel, some .init⟩])) (fun s => (s.fsm, s.continueLooping)) =
    some (.init, false) := by decide
/-- R53: a cancellation between `DECODE` and `DISPATCH`. -/
theorem test_step_between : fieldOf (runSteps 2 ((holding .decoding twoPixels).setInputs [⟨.cancel, some .dispatching⟩]))
    (fun s => (s.fsm, s.continueLooping, s.trace)) = some (.dispatching, false, [.input .cancel]) := by decide
theorem test_table_len : decodeTableWord 16 0x0005 = some (.len 0x05 0x00) := by decide
theorem test_table_pix : decodeTableWord 24 0x563412 = some (.pix 0x12 0x34 0x56) := by decide
theorem test_table_cancel : decodeTableWord 4 0x4 = some .cancel := by decide
theorem test_place_termH : fieldOf (step (start.withFetchWord 16 0xFF10)) State.work = some (.scan ⟨0, true, []⟩) := by
  decide

/-! ### The invariant holds in states that are not the reset state -/

/-- Waiting for a datagram, with the moves of one whole cycle pending. -/
def waiting : State :=
  (inFsm .waitingForPacket).setInputs [⟨.rx 12 twoPixels, none⟩, ⟨.renderResp true, none⟩]

theorem witness_inv_waiting : waiting.Inv where
  cfgLegal := by decide
  rxCanonical := by decide
  rxInside := by decide
  rxLenInside := by decide
  chbShaped := by decide
  exitMatches := by decide
  cleanMeansCancelled := by decide
  finalizedLate := by decide
  shutdownFinalizes := by decide
  haltedFinalized := by decide
  finalizeOnce := by decide
  renderEach := by decide
  decodingLong := by decide
  dispatchingCurrent := nofun
  workInPlace := trivial

/-- In the middle of a dispatch: the receive result in the trace, channel 1 about to be copied. -/
def midCopy : State := (decoded.record (.input (.rx 12 twoPixels))).setWork (.copy ⟨1, 1, 1, 1, 0, none⟩)

theorem witness_inv_midCopy : midCopy.Inv where
  cfgLegal := by decide
  rxCanonical := by decide
  rxInside := by decide
  rxLenInside := by decide
  chbShaped := by decide
  exitMatches := by decide
  cleanMeansCancelled := by decide
  finalizedLate := by decide
  shutdownFinalizes := by decide
  haltedFinalized := by decide
  finalizeOnce := by decide
  renderEach := by decide
  decodingLong := by decide
  dispatchingCurrent := fun _ => rfl
  workInPlace := ⟨rfl, by decide, by decide, by decide, by decide, by decide⟩

theorem decoded_fits : FrameFits decoded := ⟨by decide, by decide⟩

/-! ### Witnesses: the hypotheses of each statement can be met, at the boundaries of its clauses -/

/-- An outcome is a next state. -/
def runs (o : StepOutcome) : Bool := (fieldOf o fun _ => ()).isSome

/-- A machine whose render failures are not followed by a finalize request. -/
def noFinalize : State := State.resetWith ⟨2, [3, 2], 16, 0, false, [⟨3, 0, 0⟩, ⟨2, 0, 0⟩]⟩ pixels

theorem witness_DecodeOfEncode :
    (Instr.rxData 4 [0, 0, 0, 0]).wellFormed params = true ∧ encodable (.rxData 4 [0, 0, 0, 0]) = true ∧
    (Instr.rxData 4 [0, 0, 0, 0]).stream ≠ .tail ∧
    encode (.rxData 4 [0, 0, 0, 0]) = some [0x02, 0x04, 0, 0, 0, 0, 0, 0, 0] ∧
    encodable (.rxError (-2147483648)) = true ∧ (Instr.rxError (-2147483648)).wellFormed params = true ∧
    (Instr.tail [0, 0]).wellFormed params = true := by decide
theorem witness_HeaderPairClasses :
    (0xFF : Byte) = 0xFF ∧ ((0xFE : Byte) ≠ 0xFF ∧ (0xFF : Byte) = 0xFF) ∧ ((0xFE : Byte) ≠ 0xFF ∧ (0x00 : Byte) ≠ 0xFF) := by
  decide
theorem witness_ReceiveResultClasses :
    (-1 : Int) < 0 ∧ ((0 : Int) ≤ 0 ∧ (0 : Int) ≤ 3) ∧ ((0 : Int) ≤ 3 ∧ (3 : Int) ≤ 3) ∧ (4 : Int) ≤ 4 := by decide
theorem witness_PairValueLittleEndian : 2 * 1 + 2 ≤ 4 ∧ 2 * 0 + 2 ≤ 2 := by decide
theorem witness_MemoryPrimitives :
    params.wf ∧ params.fits pixels ∧ (1 < params.maxChannels ∧ 1 < params.capOf 1) ∧
    ¬ (1 < params.maxChannels ∧ 2 < params.capOf 1) ∧ ¬ (2 < params.maxChannels ∧ 0 < params.capOf 2) ∧
    (3 < 4 ∧ 4 ≤ 4) ∧ ((0 : Nat) ≠ 1 ∨ 1 ≠ 1) := by decide
theorem witness_ReceiveWritesPrefix :
    start.rxBuf.wf ∧ runs (exec (.rxData 4 [1, 2, 3, 4]) (inFsm .waitingForPacket)) = true ∧
    runs (exec (.rxShort 3 [1, 2, 3]) (inFsm .waitingForPacket)) = true ∧
    runs (exec (.rxShort 0 []) (inFsm .waitingForPacket)) = true ∧
    runs (exec (.rxError (-1)) (inFsm .waitingForPacket)) = true := by decide
theorem witness_SocketTruncates :
    params.messageSize ≤ (List.replicate 16 (0 : Byte)).length ∧ params.messageSize ≤ (List.replicate 17 (0 : Byte)).length := by
  decide
theorem witness_ResetState :
    params.wf ∧ params.fits pixels ∧ (1 < params.maxChannels ∧ 1 < params.capOf 1) ∧ (0 < params.maxChannels ∧ 2 < params.capOf 0) ∧
    runs (runSteps 1 start) = true ∧ runs (runSteps 2 (start.setInputs [⟨.initResp true, none⟩])) = true := by decide
theorem witness_LenResult :
    (start.setWork (.scan ⟨1, false, [5]⟩)).work = .scan ⟨1, false, [5]⟩ ∧ (⟨1, false, [5]⟩ : ScanRegs).terminated = false ∧
    (start.setWork (.scan ⟨2, false, [5, 5]⟩)).work = .scan ⟨2, false, [5, 5]⟩ := by decide
theorem witness_DecodeResult :
    (holding .decoding [0xFF, 0, 0, 0]).fsm = .decoding ∧ (holding .decoding [0xFF, 0, 0, 0]).work = .idle ∧
    4 ≤ (holding .decoding [0xFF, 0, 0, 0]).rxLen := by decide
theorem witness_DecodeDropsShort :
    (holding .decoding [0xFF, 0, 0]).fsm = .decoding ∧ (holding .decoding [0xFF, 0, 0]).work = .idle ∧
    (holding .decoding [0xFF, 0, 0]).rxLen < 4 ∧
    ((holding .decoding [0xFF, 0, 0]).continueLooping = false → (holding .decoding [0xFF, 0, 0]).exitStatus = .none) ∧
    ((holding .decoding [0xFF, 0, 0]).setLooping false).exitStatus = .none := by decide
theorem witness_DecodeMatchesElements : 4 ≤ 4 := by decide
theorem witness_DecodeLaws :
    decodeFrame 2 (holding .decoding [0xFF, 0, 0, 0]).rxBuf 4 = .ok (.ok ⟨[], 0, 0, true, 2, 0⟩) ∧
    ∀ i, i < 2 → (holding .decoding [0xFF, 0, 7, 9]).rxBuf.read i = (holding .decoding [0xFF, 0, 0, 0]).rxBuf.read i :=
  ⟨rfl, by decide⟩
theorem witness_PixResult : midCopy.work = .copy ⟨1, 1, 1, 1, 0, none⟩ := by decide
theorem witness_TailResult :
    decoded.work = .idle ∧ FrameFits decoded ∧
    ∀ i, i < decoded.dec.offset + 3 * decoded.dec.total → (decoded.rxBuf.write 12 7).read i = decoded.rxBuf.read i :=
  ⟨rfl, decoded_fits, by decide⟩
theorem witness_CopyPixelResult :
    midCopy.work = .copy ⟨1, 1, 1, 1, 0, none⟩ ∧ 0 < 1 ∧ midCopy.cfg.wf ∧ midCopy.cfg.fits midCopy.chbuf ∧
    1 < midCopy.cfg.maxChannels ∧ 1 ≤ midCopy.cfg.capOf 1 ∧ midCopy.dec.offset + 3 * (1 + 0) + 3 ≤ midCopy.rxLen := by
  decide
theorem witness_DispatchChannelResult :
    (decoded.setWork (.demux 1 1)).work = .demux 1 1 ∧ 1 < decoded.dec.nchan ∧ (1 : HalfWord) = decoded.dec.lengthAt 1 ∧
    decoded.cfg.wf ∧ decoded.cfg.fits decoded.chbuf ∧ FrameFits (decoded.setWork (.demux 1 1)) :=
  ⟨rfl, by decide, rfl, by decide, by decide, by decide, by decide⟩
theorem witness_DispatchResult :
    decoded.fsm = .dispatching ∧ decoded.work = .idle ∧ decoded.cfg.wf ∧ decoded.cfg.fits decoded.chbuf ∧ FrameFits decoded :=
  ⟨rfl, rfl, by decide, by decide, decoded_fits⟩
theorem witness_DispatchIdempotent : runs (exec .dispatch decoded) = true := by decide
theorem witness_SlicesDisjoint :
    0 < 1 ∧ 0 < decoded.copied 0 ∧ 0 < decoded.copied 1 ∧ decoded.dec.cursorAt 1 + 0 = decoded.dec.cursorAt 1 + 0 := by decide
theorem witness_WellFormedDatagramDelivered :
    waiting.Inv ∧ waiting.fsm = .waitingForPacket ∧ waiting.work = .idle ∧
    assemble [.hdr [1, 1], .bytes (([[(0x12, 0x34, 0x56)], [(0xA0, 0xB0, 0xC0)]] : List (List (Byte × Byte × Byte))).flatten.flatMap
      fun x => [x.1, x.2.1, x.2.2])] = some twoPixels ∧
    ([[(0x12, 0x34, 0x56)], [(0xA0, 0xB0, 0xC0)]] : List (List (Byte × Byte × Byte))).map List.length = [1, 1] ∧
    [1, 1].length ≤ waiting.cfg.maxChannels ∧ 4 ≤ twoPixels.length ∧ twoPixels.length ≤ waiting.cfg.messageSize :=
  ⟨witness_inv_waiting, rfl, rfl, by decide, by decide, by decide, by decide, by decide⟩
theorem witness_InitSteps :
    start.fsm = .init ∧ (inFsm .initWait).fsm = .initWait ∧ (inFsm .initWait).continueLooping = true ∧
    ((inFsm .initWait).setLooping false).fsm = .initWait ∧ ((inFsm .initWait).setLooping false).exitStatus = .none := by decide
theorem witness_RxDataResult :
    waiting.fsm = .waitingForPacket ∧ 4 ≤ (List.replicate 4 (0 : Byte)).length ∧ 4 ≤ (List.replicate 16 (0 : Byte)).length ∧
    (List.replicate 16 (0 : Byte)).length ≤ waiting.cfg.messageSize := by decide
theorem witness_RxShortResult :
    waiting.fsm = .waitingForPacket ∧ ([] : List Byte).length ≤ 3 ∧ (List.replicate 3 (0 : Byte)).length ≤ 3 ∧
    (List.replicate 3 (0 : Byte)).length ≤ waiting.cfg.messageSize ∧
    (waiting.setLooping false).fsm = .waitingForPacket ∧ (waiting.setLooping false).exitStatus = .none := by decide
theorem witness_RxErrorResult :
    waiting.fsm = .waitingForPacket ∧ (-1 : Int) < 0 ∧ waiting.continueLooping = true ∧ waiting.exitStatus = .none := by decide
theorem witness_RenderSteps :
    (inFsm .rendering).fsm = .rendering ∧ (inFsm .rendering).exitStatus = .none ∧
    (inFsm .rendering).cfg.finalizeOnFatal = true ∧ (noFinalize.setFsm .rendering).fsm = .rendering ∧
    (noFinalize.setFsm .rendering).exitStatus = .none ∧ (noFinalize.setFsm .rendering).cfg.finalizeOnFatal = false := by
  decide
theorem witness_PaceResult :
    (inFsm .pacedIdle).fsm = .pacedIdle ∧ (inFsm .pacedIdle).continueLooping = true ∧
    ((inFsm .pacedIdle).setLooping false).fsm = .pacedIdle ∧ ((inFsm .pacedIdle).setLooping false).exitStatus = .none := by
  decide
theorem witness_FinalizeResult :
    (inFsm .shutdown).fsm = .shutdown ∧ (inFsm .shutdown).finalized = false ∧
    ((inFsm .shutdown).setFinalized true).fsm = .shutdown ∧ ((inFsm .shutdown).setFinalized true).finalized = true := by
  decide
theorem witness_StepsOnlyWhereEnabled :
    start.fsm ≠ .initWait ∧ start.fsm ≠ .waitingForPacket ∧ waiting.fsm ≠ .init ∧ start.work = .idle ∧
    refusalOf (exec (.dispatchCh 1 7) (decoded.setWork (.demux 1 1))) = some .notEnabled ∧
    refusalOf (exec (.dispatchCh 2 0) (decoded.setWork (.demux 2 2))) = some .notEnabled ∧
    refusalOf (exec (.dispatchCh 0 1) (decoded.setWork (.demux 1 1))) = some .notEnabled ∧
    refusalOf (exec (.copyPx 1 1 2) midCopy) = some .notEnabled ∧
    refusalOf (exec (.dispatchCh 1 7) midCopy) = some .notEnabled ∧
    refusalOf (exec (.len 1 0) midCopy) = some .notEnabled ∧
    refusalOf (exec (.len 1 0) (start.setWork (.scan ⟨1, true, [5]⟩))) = some .notEnabled ∧
    refusalOf (exec (.pix 1 2 3) (decoded.setWork (.demux 1 1))) = some .notEnabled ∧
    refusalOf (exec (.dispatchCh 0 1) (start.setWork (.scan ⟨1, false, [5]⟩))) = some .notEnabled ∧
    refusalOf (exec .decode ((holding .decoding twoPixels).setWork (.demux 0 0))) = some .notEnabled ∧
    refusalOf (exec .dispatch (decoded.setWork (.scan ⟨1, false, [5]⟩))) = some .notEnabled ∧
    refusalOf (exec (.copyPx 1 0 0) midCopy) = some .notEnabled := by decide
theorem witness_BrokenDutyRefused :
    waiting.fsm = .waitingForPacket ∧ (3 : Int) < 4 ∧ (([0, 0, 0, 0] : List Byte).length : Int) ≠ 5 ∧
    (waiting.cfg.messageSize : Int) < 17 ∧ (-1 : Int) < 0 ∧ (3 : Int) < 4 ∧ (0 : Int) ≤ 0 := by decide
theorem witness_ExitStatusWrittenOnce :
    fieldOf (exec .pace ((inFsm .pacedIdle).setLooping false)) State.exitStatus = some .clean ∧
    fieldOf (exec .renderFail (inFsm .rendering)) State.exitStatus = some .renderError ∧
    fieldOf (exec .initFail (inFsm .initWait)) State.exitStatus = some .initError := by decide
theorem witness_SecondExitFaults :
    faultOf (exec .pace (((inFsm .pacedIdle).setExit .clean).setLooping false)) = some .exitRewritten ∧
    faultOf (exec .initOk (((inFsm .initWait).setExit .clean).setLooping false)) = some .exitRewritten ∧
    faultOf (exec (.rxShort 3 [1, 2, 3]) (((inFsm .waitingForPacket).setExit .clean).setLooping false)) = some .exitRewritten ∧
    faultOf (exec (.rxError (-1)) (((inFsm .waitingForPacket).setExit .clean).setLooping false)) = some .exitRewritten ∧
    faultOf (exec .decode (((holding .decoding [1, 2, 3]).setExit .clean).setLooping false)) = some .exitRewritten ∧
    faultOf (exec .renderFail ((inFsm .rendering).setExit .clean)) = some .exitRewritten ∧
    faultOf (exec .initFail ((inFsm .initWait).setExit .clean)) = some .exitRewritten := by decide
theorem witness_Writers :
    runs (exec .initReq start) = true ∧
    fieldOf (exec .cancel waiting) (fun t => t.continueLooping != waiting.continueLooping) = some true ∧
    fieldOf (exec .finalize (inFsm .shutdown)) State.finalized = some true ∧
    fieldOf (exec (.rxData 4 [1, 2, 3, 4]) waiting) (fun t => t.rxBuf != waiting.rxBuf) = some true ∧
    fieldOf (exec .decode (holding .decoding twoPixels)) (fun t => t.dec != DecodedFrame.atReset) = some true ∧
    fieldOf (exec .dispatch decoded) (fun t => t.chbuf != decoded.chbuf) = some true := by decide
/-- A run that finalizes: cancelled before `INIT_REQ`, it ends at the loop head of `INIT_OK`. -/
theorem witness_FinalizedWriters :
    params.wf ∧ params.fits pixels ∧
    fieldOf (runSteps 4 (start.setInputs [⟨.cancel, some .init⟩, ⟨.initResp true, none⟩]))
      (fun t => (t.fsm, t.finalized, finalizeCount t.trace)) = some (.halted, true, 1) := by decide
theorem witness_HaltedIsTerminal :
    (inFsm .halted).fsm = .halted ∧ (inFsm .halted).work = .idle ∧ runs (exec .cancel (inFsm .halted)) = true ∧
    (waiting.Inv ∧ waiting.work = .idle ∧ waiting.fsm ≠ .halted) :=
  ⟨rfl, rfl, by decide, witness_inv_waiting, rfl, by decide⟩
theorem witness_StepRunsDecoded :
    (start.fsm = .init ∧ start.work = .idle ∧ (∀ o ∈ start.inputs.head?, o.before ≠ some start.fsm)) ∧
    (waiting.inputs = [⟨.rx 12 twoPixels, none⟩, ⟨.renderResp true, none⟩] ∧
      waiting.fsm ∈ [Fsm.initWait, .waitingForPacket, .rendering, .halted] ∧
      inputOnDuty waiting.cfg (.rx 12 twoPixels) = true ∧ inputOnDuty waiting.cfg (.rx 17 twoPixels) = false) ∧
    ((inFsm .shutdown).setFinalized true).finalized = true ∧
    (holding .decoding twoPixels).rxLen < 2 * 6 + 2 ∧ 1 < decoded.dec.nchan ∧ decoded.dec.nchan ≤ 2 ∧
    decoded.rxLen < decoded.dec.offset + 3 * (1 + 1) + 3 ∧
    (2 * 5 + 2 ≤ (holding .decoding twoPixels).rxLen ∧
      firstOf (decode .header [(holding .decoding twoPixels).rxBuf.read (2 * 5),
        (holding .decoding twoPixels).rxBuf.read (2 * 5 + 1)]) = some (.len 0xB0 0xC0)) ∧
    (midCopy.dec.offset + 3 * (1 + 0) + 3 ≤ midCopy.rxLen ∧
      firstOf (decode .payload [midCopy.rxBuf.read 9, midCopy.rxBuf.read 10, midCopy.rxBuf.read 11]) =
        some (.pix 0xA0 0xB0 0xC0)) := by decide
theorem witness_NoStepWithoutInput :
    (inFsm .waitingForPacket).work = .idle ∧ (inFsm .waitingForPacket).inputs = [] ∧
    (inFsm .waitingForPacket).fsm ∈ [Fsm.initWait, .waitingForPacket, .rendering] ∧ (inFsm .halted).fsm = .halted ∧
    ((inFsm .shutdown).setFinalized true).fsm = .shutdown ∧ ((inFsm .shutdown).setFinalized true).finalized = true := by decide
theorem witness_StepKeepsInvariant :
    waiting.Inv ∧ runs (step waiting) = true ∧ midCopy.Inv ∧ runs (step midCopy) = true :=
  ⟨witness_inv_waiting, by decide, witness_inv_midCopy, by decide⟩
theorem witness_DecodeIsElementwise :
    (holding .decoding twoPixels).fsm = .decoding ∧ (holding .decoding twoPixels).work = .idle := by decide
theorem witness_DispatchIsElementwise :
    decoded.fsm = .dispatching ∧ decoded.work = .idle ∧ (decoded.setWork (.demux 1 1)).work = .demux 1 1 ∧
    1 < decoded.dec.nchan ∧ (decoded.dec.lengths.getD 1 0) = 1 := by decide
theorem witness_HiddenBytesNeverMatter :
    decoded.rxBuf.wf ∧ (decoded.rxBuf.write 12 7).wf ∧
    decoded.agreeVisible (decoded.setRx (decoded.rxBuf.write 12 7) decoded.rxLen) ∧ runs (step decoded) = true :=
  ⟨by decide, by decide, ⟨rfl, by decide⟩, by decide⟩
theorem witness_CancelAgainstReceive :
    waiting.fsm = .waitingForPacket ∧ inputOnDuty waiting.cfg (.rx 4 [1, 2, 3, 4]) = true ∧
    inputOnDuty waiting.cfg (.rx 3 [1, 2, 3]) = true ∧ inputOnDuty waiting.cfg (.rx (-1) []) = true ∧
    waiting.continueLooping = true ∧ waiting.exitStatus = .none := by decide
theorem witness_CancelBetweenAnyTwoSteps :
    waiting.work = .idle ∧ runs (runSteps 0 waiting) = true ∧ runs (runSteps 2 waiting) = true ∧
    runs (runSteps 5 waiting) = true := by decide
theorem witness_CancelledLoopReadsNoMore :
    (waiting.setLooping false).continueLooping = false ∧
    fieldOf (runSteps 1 (waiting.setLooping false)) (fun t => rxCount t.trace) = some 1 ∧
    (inFsm .rendering).fsm ≠ .waitingForPacket := by decide
theorem witness_FullCycle :
    waiting.Inv ∧ waiting.fsm = .waitingForPacket ∧ waiting.work = .idle ∧ 4 ≤ twoPixels.length ∧
    twoPixels.length ≤ waiting.cfg.messageSize ∧
    waiting.inputs = ⟨.rx twoPixels.length twoPixels, none⟩ :: ⟨.renderResp true, none⟩ :: [] :=
  ⟨witness_inv_waiting, rfl, rfl, by decide, by decide, rfl⟩

end Sys2Proof.Tests
end

section
/-! 00_scope.md, the memory primitives (R12, R39, R40): what `MemRead` and `MemWrite` answer outside the slots, and the
obligation on both memories. -/

namespace Sys2Proof.Proofs.Scope

open Sys2Proof.Machine

/-- Outside its slots a read of `CHB` faults (log 14). -/
theorem memReadChb_absent {p : Params} {c i : Nat} (hs : ¬ slotExists p c i = true) (chb : ChannelBuffers) :
    memReadChb p chb c i = .error .chbOob := if_neg hs

/-- Outside its slots a write to `CHB` faults (R12, R40). -/
theorem memWriteChb_absent {p : Params} {c i : Nat} (hs : ¬ slotExists p c i = true) (chb : ChannelBuffers) (v : Word) :
    memWriteChb p chb c i v = .error .chbOob := if_neg hs

/-- Settles O8: the reads of `RX` by its two bounds, and the accesses of `CHB` by whether the slot exists; there the laws of
a write (`memReadChb_write` and `memWriteChb_fits`) give the word read back, the frame and the shape. -/
theorem memoryPrimitives : Obligations.MemoryPrimitives := by
  refine ⟨fun buf n i => ⟨memReadRx_inside, memReadRx_outside⟩, fun p chb c i v hp hf => ⟨fun hin => ?_, fun hout => ?_⟩⟩
  · have hw : memWriteChb p chb c i v = .ok (chb.modify c fun row => row.set i v) :=
      memWriteChb_ok.mpr ⟨slotExists_iff.mpr hin, rfl⟩
    refine ⟨_, hw, memWriteChb_fits hw hf, ?_, fun c' i' hother => ?_⟩
    · rw [memReadChb_write hp hf hw, if_pos ⟨rfl, rfl⟩]
    · have hne : ¬ (c' = c ∧ i' = i) := fun ⟨hc, hi⟩ => hother.elim (· hc) (· hi)
      rw [memReadChb_write hp hf hw, if_neg hne]
  · have hs : ¬ slotExists p c i = true := mt slotExists_iff.mp hout
    exact ⟨memWriteChb_absent hs chb v, memReadChb_absent hs chb⟩

end Sys2Proof.Proofs.Scope
end

section
/-! 10_state.md, the control registers: the status view (R32), a second exit (R20, log 16), and which instruction writes
`exit_status`, `continue_looping`, `finalized` and the parameters (R19, R20, R21, R31). The last go through one inversion,
`exec_controlWrite`, of what any instruction can have written to them. -/

namespace Sys2Proof.Proofs.Registers

open Sys2Proof.Machine

variable {s t : State}

/-! ### The status view (R17, R32) -/

theorem statusView_fsm (s : State) : s.statusView.extractLsb' 0 4 = s.fsm.code :=
  BitVec.extractLsb'_append_eq_right

theorem statusView_exitStatus (s : State) : s.statusView.extractLsb' 6 2 = s.exitStatus.code := by
  refine BitVec.eq_of_getLsbD_eq fun i hi => ?_
  rw [BitVec.getLsbD_extractLsb', State.statusView, BitVec.getLsbD_append, BitVec.getLsbD_append, BitVec.getLsbD_append,
    if_neg (by omega), if_neg (by omega), if_neg (by omega), decide_eq_true hi, Bool.true_and]
  congr 1
  omega

theorem statusView_looping (s : State) : s.statusView.getLsbD 4 = s.continueLooping := by
  rw [State.statusView, BitVec.getLsbD_append, BitVec.getLsbD_append]
  simp

theorem statusView_finalized (s : State) : s.statusView.getLsbD 5 = s.finalized := by
  rw [State.statusView, BitVec.getLsbD_append, BitVec.getLsbD_append, BitVec.getLsbD_append]
  simp

/-- Settles O13: the view is an append of four fields, so each is read back at its own offset. -/
theorem statusViewFields : Obligations.StatusViewFields :=
  ⟨rfl, fun s => ⟨statusView_fsm s, statusView_looping s, statusView_finalized s, statusView_exitStatus s⟩, rfl⟩

/-! ### A second exit (R20, log 16) -/

theorem loopHead_rewrites (hx : s.exitStatus ≠ .none) (hl : s.continueLooping = false) :
    loopHead s = .fault .exitRewritten := loopHead_fault.mpr ⟨hl, hx, rfl⟩

theorem raiseFatal_rewrites (e : FatalError) (hx : s.exitStatus ≠ .none) :
    raiseFatal e s = .fault .exitRewritten := raiseFatal_fault.mpr ⟨hx, rfl⟩

theorem execRxShort_onDuty {bytes : List Byte} (hf : s.fsm = .waitingForPacket) (h3 : bytes.length ≤ 3)
    (hm : bytes.length ≤ s.cfg.messageSize) :
    execRxShort bytes.length bytes s = loopHead ((receive bytes s).record (.input (.rx bytes.length bytes))) := by
  have hd : dutyKept s.cfg bytes.length bytes = true := dutyKept_iff.mpr ⟨rfl, hm⟩
  rw [execRxShort, enabledIn_self hf, if_pos (by omega), onDuty, if_pos hd, raiseDrop_eq]

theorem execRxError_negative {r : Int} (hf : s.fsm = .waitingForPacket) (hr : r < 0) :
    execRxError r s = loopHead (s.record (.input (.rx r []))) := by
  rw [execRxError, enabledIn_self hf, if_pos hr, raiseDrop_eq]

theorem execDecode_short (hf : s.fsm = .decoding) (hw : s.work = .idle) (hn : s.rxLen < 4) :
    execDecode s = loopHead (s.setWork .idle) := by
  rw [execDecode, enabledIn_self hf, hw]
  show runDecode .start s = _
  rw [runDecode, decodeFrom_short _ _ hn]
  rfl

/-- Settles O43: each of these steps comes to the loop head or to a fatal error, and both fault once the status is set. -/
theorem secondExitFaults : Obligations.SecondExitFaults := by
  intro s hx
  refine ⟨fun hl hf => ?_, fun hl hf => ?_, fun bytes hl hf h3 hm => ?_, fun r hl hf hr => ?_, fun hl hf hw hn => ?_,
    fun hf => ?_, fun hf => ?_⟩
  · exact (enabledIn_self hf).trans (loopHead_rewrites hx hl)
  · exact (enabledIn_self hf).trans (loopHead_rewrites hx hl)
  · exact (execRxShort_onDuty hf h3 hm).trans (loopHead_rewrites hx hl)
  · exact (execRxError_negative hf hr).trans (loopHead_rewrites hx hl)
  · exact (execDecode_short hf hw hn).trans (loopHead_rewrites hx hl)
  · exact (enabledIn_self hf).trans (raiseFatal_rewrites .renderError hx)
  · exact (enabledIn_self hf).trans (raiseFatal_rewrites .initError hx)

/-! ### Who writes the control registers (R19, R20, R21, R31) -/

/-- The parameters, `continue_looping`, `exit_status` and `finalized`. -/
def controlOf (s : State) : Params × Bool × ExitStatus × Bool :=
  (s.cfg, s.continueLooping, s.exitStatus, s.finalized)

theorem controlOf_eq_iff :
    controlOf t = controlOf s ↔
      t.cfg = s.cfg ∧ t.continueLooping = s.continueLooping ∧ t.exitStatus = s.exitStatus ∧ t.finalized = s.finalized := by
  simp [controlOf]

/-- The instructions that can end in the loop head (R105). -/
def EndsInLoopHead (i : Instr) : Prop :=
  i = .initOk ∨ i = .pace ∨ i = .decode ∨ (∃ r, i = .rxError r) ∨ ∃ r bytes, i = .rxShort r bytes

/-- The instruction `i`, run in `s`, has a reason to leave the loop with exit status `e` (R20). -/
def ExitCause (s : State) (i : Instr) (e : ExitStatus) : Prop :=
  e = .clean ∧ s.continueLooping = false ∧ EndsInLoopHead i ∨
    e = .renderError ∧ i = .renderFail ∨ e = .initError ∧ i = .initFail

/-- What an instruction that leads from `s` to a next state has written to the control registers: nothing, an exit status that
was `NONE`, `continue_looping` by `CANCEL`, or `finalized` by `FINALIZE`. -/
inductive ControlWrite (s : State) : Instr → State → Prop
  | nothing {i : Instr} {t : State} (h : controlOf t = controlOf s) : ControlWrite s i t
  | exit {i : Instr} {t : State} {e : ExitStatus} (unset : s.exitStatus = .none) (cause : ExitCause s i e)
      (h : controlOf t = controlOf (s.setExit e)) : ControlWrite s i t
  | cancel {t : State} (h : controlOf t = controlOf (s.setLooping (loopingAfterCancel s))) : ControlWrite s .cancel t
  | finalize {t : State} (unset : s.finalized = false) (h : controlOf t = controlOf (s.setFinalized true)) :
      ControlWrite s .finalize t

/-- The loop head writes an exit status or nothing, whatever was recorded or received before it. -/
theorem loopHead_controlWrite {i : Instr} {u : State} (hi : EndsInLoopHead i) (h : loopHead u = .next t)
    (hu : controlOf u = controlOf s) : ControlWrite s i t := by
  obtain ⟨hcfg, hloop, hexit, hfin⟩ := controlOf_eq_iff.mp hu
  rcases loopHead_next.mp h with ⟨-, rfl⟩ | ⟨hl, hn, rfl⟩
  · exact .nothing hu
  · refine .exit (e := .clean) (hexit ▸ hn) (.inl ⟨rfl, hloop ▸ hl, hi⟩) ?_
    exact controlOf_eq_iff.mpr ⟨hcfg, hloop, rfl, hfin⟩

theorem runChannel_control {k : CopyRegs} (h : runChannel k s = .next t) : controlOf t = controlOf s := by
  obtain ⟨chb, -, rfl⟩ := runChannel_next.mp h
  rfl

theorem execDecode_controlWrite (h : execDecode s = .next t) : ControlWrite s .decode t := by
  have run : ∀ r, runDecode r s = .next t → ControlWrite s .decode t := by
    intro r hr
    rcases runDecode_next.mp hr with ⟨-, hl⟩ | ⟨frame, -, rfl⟩
    · exact loopHead_controlWrite (by simp [EndsInLoopHead]) hl rfl
    · exact .nothing rfl
  obtain ⟨-, ⟨-, hr⟩ | ⟨r, -, hr⟩⟩ := execDecode_next.mp h
  · exact run _ hr
  · exact run _ hr

/-- What each instruction has written to the control registers when it answers a next state. -/
theorem exec_controlWrite {i : Instr} (h : exec i s = .next t) : ControlWrite s i t := by
  cases i with
  | len lo hi => obtain ⟨r, -, -, rfl⟩ := execLen_next.mp h; exact .nothing rfl
  | termL hi => obtain ⟨r, -, -, rfl⟩ := (execTermL_next (hi := hi)).mp h; exact .nothing rfl
  | termH lo => obtain ⟨r, -, -, rfl⟩ := (execTermH_next (lo := lo)).mp h; exact .nothing rfl
  | pix r g b => obtain ⟨k, -, rfl⟩ := execPix_next.mp h; exact .nothing rfl
  | tail bytes => obtain rfl := next_iff.mp h; exact .nothing rfl
  | dispatchCh c declared =>
    obtain ⟨cursor, -, -, hr⟩ | ⟨k, -, -, -, hr⟩ := execDispatchCh_next.mp h
    · exact .nothing (runChannel_control hr)
    · exact .nothing (runChannel_control hr)
  | copyPx c j q => obtain ⟨k, chb, -, -, -, rfl⟩ := execCopyPx_next.mp h; exact .nothing rfl
  | initReq => obtain ⟨-, rfl⟩ := execInitReq_next.mp h; exact .nothing rfl
  | initOk => exact loopHead_controlWrite (by simp [EndsInLoopHead]) (execInitOk_next.mp h).2 rfl
  | initFail =>
    obtain ⟨-, hn, rfl⟩ := execInitFail_next.mp h
    exact .exit hn (.inr (.inr ⟨rfl, rfl⟩)) rfl
  | rxData r bytes => obtain ⟨-, -, -, rfl⟩ := execRxData_next.mp h; exact .nothing rfl
  | rxShort r bytes =>
    obtain ⟨-, -, -, hl⟩ := execRxShort_next.mp h
    exact loopHead_controlWrite (by simp [EndsInLoopHead]) hl rfl
  | rxError r =>
    obtain ⟨-, -, hl⟩ := execRxError_next.mp h
    exact loopHead_controlWrite (by simp [EndsInLoopHead]) hl rfl
  | decode => exact execDecode_controlWrite h
  | dispatch => obtain ⟨-, -, chb, -, rfl⟩ := execDispatch_next.mp h; exact .nothing rfl
  | renderOk => obtain ⟨-, rfl⟩ := execRenderOk_next.mp h; exact .nothing rfl
  | renderFail =>
    obtain ⟨-, hn, rfl⟩ := execRenderFail_next.mp h
    exact .exit hn (.inr (.inl ⟨rfl, rfl⟩)) rfl
  | pace => exact loopHead_controlWrite (by simp [EndsInLoopHead]) (execPace_next.mp h).2 rfl
  | cancel => obtain rfl := execCancel_next.mp h; exact .cancel rfl
  | finalize => obtain ⟨-, hf, rfl⟩ := execFinalize_next.mp h; exact .finalize hf rfl

/-- Settles O44: no kind of control write touches the parameters. -/
theorem configurationReadOnly : Obligations.ConfigurationReadOnly := by
  intro i s t h
  cases exec_controlWrite h with
  | nothing hc => exact (controlOf_eq_iff.mp hc).1
  | exit _ _ hc => exact (controlOf_eq_iff.mp hc).1
  | cancel hc => exact (controlOf_eq_iff.mp hc).1
  | finalize _ hc => exact (controlOf_eq_iff.mp hc).1

/-- A `CANCEL` that changes the flag clears it, and comes before the end of the loop (R117). -/
theorem loopingAfterCancel_changes (h : loopingAfterCancel s ≠ s.continueLooping) :
    loopingAfterCancel s = false ∧ s.fsm.loopEnded = false := by
  unfold loopingAfterCancel at h ⊢
  cases he : s.fsm.loopEnded with
  | false => exact ⟨rfl, rfl⟩
  | true => exact absurd (by simp [he]) h

theorem loopEnded_iff {f : Fsm} : f.loopEnded = true ↔ f = .shutdown ∨ f = .halted := by
  cases f <;> simp [Fsm.loopEnded]

/-- Settles O45: of the control writes only that of `CANCEL` touches the flag. -/
theorem loopingFlagWriters : Obligations.LoopingFlagWriters := by
  intro i s t h hne
  cases exec_controlWrite h with
  | nothing hc => exact absurd (controlOf_eq_iff.mp hc).2.1 hne
  | exit _ _ hc => exact absurd (controlOf_eq_iff.mp hc).2.1 hne
  | finalize _ hc => exact absurd (controlOf_eq_iff.mp hc).2.1 hne
  | cancel hc =>
    obtain ⟨-, hl, -, -⟩ := controlOf_eq_iff.mp hc
    rw [hl, State.setLooping_continueLooping] at hne
    obtain ⟨hclear, hrun⟩ := loopingAfterCancel_changes hne
    have hnot : ¬ (s.fsm = .shutdown ∨ s.fsm = .halted) := fun hx => by simp [loopEnded_iff.mpr hx] at hrun
    exact ⟨rfl, hl.trans hclear, fun hx => hnot (.inl hx), fun hx => hnot (.inr hx)⟩

/-- Settles O42: of the control writes only an exit touches the status, and it found `NONE`. -/
theorem exitStatusWrittenOnce : Obligations.ExitStatusWrittenOnce := by
  refine ⟨rfl, fun _ _ => rfl, fun i s t h hne => ?_⟩
  cases exec_controlWrite h with
  | nothing hc => exact absurd (controlOf_eq_iff.mp hc).2.2.1 hne
  | cancel hc => exact absurd (controlOf_eq_iff.mp hc).2.2.1 hne
  | finalize _ hc => exact absurd (controlOf_eq_iff.mp hc).2.2.1 hne
  | exit hn cause hc =>
    obtain ⟨-, -, he, -⟩ := controlOf_eq_iff.mp hc
    exact ⟨hn, by rw [he]; exact cause⟩

theorem finalized_changes {i : Instr} (h : exec i s = .next t) (hne : t.finalized ≠ s.finalized) :
    i = .finalize ∧ s.finalized = false ∧ t.finalized = true := by
  cases exec_controlWrite h with
  | nothing hc => exact absurd (controlOf_eq_iff.mp hc).2.2.2 hne
  | exit _ _ hc => exact absurd (controlOf_eq_iff.mp hc).2.2.2 hne
  | cancel hc => exact absurd (controlOf_eq_iff.mp hc).2.2.2 hne
  | finalize unset hc => exact ⟨rfl, unset, (controlOf_eq_iff.mp hc).2.2.2⟩

theorem execFinalize_sets (h : exec .finalize s = .next t) : s.finalized = false ∧ t.finalized = true := by
  obtain ⟨-, hf, rfl⟩ := execFinalize_next.mp h
  exact ⟨hf, rfl⟩

end Sys2Proof.Proofs.Registers
end

section
/-! 10_state.md, the invariant of the block: it holds after reset (R36), every update of the state keeps it under a condition on
where the block stands, and so every step does (R20, R21, R23, R28, R31). Only the header elements need more than the invariant:
the pair they are given has to be the one the scan stands at, which the fetch sees to. -/

namespace Sys2Proof.Proofs.Invariant

open Sys2Proof.Machine

variable {s t : State}

/-! ### After reset (R36, R143) -/

theorem inv_resetWith {p : Params} {pixels : ChannelBuffers} (hp : p.wf) (hf : p.fits pixels) :
    (State.resetWith p pixels).Inv where
  cfgLegal := hp
  rxCanonical := Memory.wf_nil
  rxInside := nofun
  rxLenInside := Nat.zero_le _
  chbShaped := hf
  exitMatches := iff_of_true rfl rfl
  cleanMeansCancelled := nofun
  finalizedLate := fun _ => rfl
  shutdownFinalizes := nofun
  haltedFinalized := nofun
  finalizeOnce := rfl
  renderEach := rfl
  decodingLong := nofun
  dispatchingCurrent := nofun
  workInPlace := trivial

theorem params_wf : Config.params.wf := by
  simp [Params.wf, Config.params]

theorem initPixels_fit : Config.params.fits Config.initPixels := by
  simp [Params.fits, Config.params, Config.initPixels]

/-- Settles O12: the opaque constants of Config make legal parameters, so `State.reset` is one of the reset states. -/
theorem resetMeetsInvariant : Obligations.ResetMeetsInvariant :=
  ⟨inv_resetWith params_wf initPixels_fit, fun _ _ => inv_resetWith⟩

/-! ### The counters of the trace -/

theorem finalizeCount_snoc (tr : List Event) (e : Event) : finalizeCount (tr ++ [e]) = finalizeCount tr + finalizeCount [e] :=
  List.countP_append

theorem rxDataCount_snoc (tr : List Event) (e : Event) : rxDataCount (tr ++ [e]) = rxDataCount tr + rxDataCount [e] :=
  List.countP_append

theorem renderCount_snoc (tr : List Event) (e : Event) : renderCount (tr ++ [e]) = renderCount tr + renderCount [e] :=
  List.countP_append

/-- An event that the invariant counts nowhere: no finalize request, no render request, no datagram of four bytes or more. -/
structure Uncounted (e : Event) : Prop where
  finalize : finalizeCount [e] = 0
  rxData : rxDataCount [e] = 0
  render : renderCount [e] = 0

theorem uncounted_initReq (config : List ChannelConfig) : Uncounted (.initReq config) := ⟨rfl, rfl, rfl⟩
theorem uncounted_initResp (ok : Bool) : Uncounted (.input (.initResp ok)) := ⟨rfl, rfl, rfl⟩
theorem uncounted_renderResp (ok : Bool) : Uncounted (.input (.renderResp ok)) := ⟨rfl, rfl, rfl⟩
theorem uncounted_cancel : Uncounted (.input .cancel) := ⟨rfl, rfl, rfl⟩
theorem uncounted_rx {r : Int} (h : r < 4) (bytes : List Byte) : Uncounted (.input (.rx r bytes)) :=
  ⟨rfl, by simp [rxDataCount, h], rfl⟩

theorem rxDataCount_rx {r : Int} (h : 4 ≤ r) (bytes : List Byte) : rxDataCount [.input (.rx r bytes)] = 1 := by
  simp [rxDataCount, h]

/-! ### Where the working registers are idle -/

/-- Running, with no datagram whose render is owed: the states between two datagrams, where no atomic step with working
registers can be in progress. -/
def Between (f : Fsm) : Prop := f.loopEnded = false ∧ f.renderOwed = false

theorem between_ne_decoding {f : Fsm} (h : Between f) : f ≠ .decoding := fun he => by
  simp [he, Between, Fsm.renderOwed] at h
theorem between_ne_dispatching {f : Fsm} (h : Between f) : f ≠ .dispatching := fun he => by
  simp [he, Between, Fsm.renderOwed] at h
theorem between_ne_shutdown {f : Fsm} (h : Between f) : f ≠ .shutdown := fun he => by
  simp [he, Between, Fsm.loopEnded] at h
theorem between_ne_halted {f : Fsm} (h : Between f) : f ≠ .halted := fun he => by
  simp [he, Between, Fsm.loopEnded] at h

theorem between_init : Between .init := ⟨rfl, rfl⟩
theorem between_initWait : Between .initWait := ⟨rfl, rfl⟩
theorem between_waiting : Between .waitingForPacket := ⟨rfl, rfl⟩
theorem between_rendering : Between .rendering := ⟨rfl, rfl⟩
theorem between_pacedIdle : Between .pacedIdle := ⟨rfl, rfl⟩

/-- The working registers stand inside a step only while `fsm` is `DECODING` or `DISPATCHING` (log 6). -/
theorem work_idle (h : s.workPlaced) (hd : s.fsm ≠ .decoding) (hp : s.fsm ≠ .dispatching) : s.work = .idle := by
  unfold State.workPlaced at h
  cases hw : s.work with
  | idle => rfl
  | scan r => rw [hw] at h; exact absurd h.1 hd
  | demux c cursor => rw [hw] at h; exact absurd h.1 hp
  | copy k => rw [hw] at h; exact absurd h.1 hp

theorem workPlaced_of_idle (h : s.work = .idle) : s.workPlaced := by
  unfold State.workPlaced
  rw [h]
  trivial

theorem workPlaced_scan {r : ScanRegs} (hw : s.work = .scan r) (h : s.workPlaced) : s.scanPlaced r := by
  rwa [State.workPlaced, hw] at h

theorem workPlaced_demux {c cursor : Nat} (hw : s.work = .demux c cursor) (h : s.workPlaced) : s.demuxPlaced c cursor := by
  rwa [State.workPlaced, hw] at h

theorem workPlaced_copy {k : CopyRegs} (hw : s.work = .copy k) (h : s.workPlaced) : s.copyPlaced k := by
  rwa [State.workPlaced, hw] at h

/-! ### What each update keeps -/

theorem inv_setInputs (h : s.Inv) (os : List Offer) : (s.setInputs os).Inv := { h with }

theorem inv_record (h : s.Inv) {e : Event} (he : Uncounted e) : (s.record e).Inv :=
  { h with
    finalizeOnce := by rw [State.record_trace, finalizeCount_snoc, he.finalize]; exact h.finalizeOnce
    renderEach := by
      rw [State.record_trace, rxDataCount_snoc, renderCount_snoc, he.rxData, he.render]; exact h.renderEach }

theorem inv_setWork (h : s.Inv) {w : Work} (hw : (s.setWork w).workPlaced) : (s.setWork w).Inv :=
  { h with workInPlace := hw }

theorem inv_setChbuf (h : s.Inv) {chb : ChannelBuffers} (hf : s.cfg.fits chb) : (s.setChbuf chb).Inv :=
  { h with chbShaped := hf }

theorem inv_idle (h : s.Inv) (hb : Between s.fsm) : s.work = .idle :=
  work_idle h.workInPlace (between_ne_decoding hb) (between_ne_dispatching hb)

/-- A move between two states without a datagram in hand. -/
theorem inv_setFsm (h : s.Inv) (hs : Between s.fsm) {f : Fsm} (hf : Between f) : (s.setFsm f).Inv :=
  { h with
    exitMatches := iff_of_true (h.exitMatches.mpr hs.1) hf.1
    finalizedLate := fun _ => h.finalizedLate (between_ne_halted hs)
    shutdownFinalizes := fun he => absurd he (between_ne_shutdown hf)
    haltedFinalized := fun he => absurd he (between_ne_halted hf)
    renderEach := by
      rw [State.setFsm_trace, State.setFsm_fsm, hf.2, ← hs.2]
      exact h.renderEach
    decodingLong := fun he => absurd he (between_ne_decoding hf)
    dispatchingCurrent := fun he => absurd he (between_ne_dispatching hf)
    workInPlace := workPlaced_of_idle (inv_idle (s := s) h hs) }

/-- An exit: to `SHUTDOWN` if its status asks for a finalize request, else to `HALTED` (R105, R128). -/
theorem inv_exit (h : s.Inv) (hs : Between s.fsm) {e : ExitStatus} {f : Fsm} (he : e ≠ .none)
    (hclean : e = .clean → s.continueLooping = false)
    (hf : f = if (s.setExit e).exitFinalizes then .shutdown else .halted) : ((s.setExit e).setFsm f).Inv := by
  have hunset : s.finalized = false := h.finalizedLate (between_ne_halted hs)
  have hend : f.loopEnded = true ∧ f.renderOwed = false := by subst hf; split <;> exact ⟨rfl, rfl⟩
  have hrun : f ≠ .decoding ∧ f ≠ .dispatching := by subst hf; split <;> exact ⟨nofun, nofun⟩
  exact { h with
    exitMatches := iff_of_false he (by simp [hend.1])
    cleanMeansCancelled := hclean
    finalizedLate := fun _ => hunset
    shutdownFinalizes := fun hx => by
      by_contra hc
      rw [if_neg (show ¬ (s.setExit e).exitFinalizes = true from hc)] at hf
      exact absurd (hf.symm.trans hx) nofun
    haltedFinalized := fun hx => by
      by_cases hc : (s.setExit e).exitFinalizes = true
      · rw [if_pos hc] at hf
        exact absurd (hf.symm.trans hx) nofun
      · exact hunset.trans (Bool.eq_false_iff.mpr hc).symm
    renderEach := by
      rw [State.setFsm_trace, State.setFsm_fsm, hend.2, ← hs.2]
      exact h.renderEach
    decodingLong := fun hx => absurd hx hrun.1
    dispatchingCurrent := fun hx => absurd hx hrun.2
    workInPlace := workPlaced_of_idle (inv_idle (s := s) h hs) }

theorem inv_loopHead (h : s.Inv) (hs : Between s.fsm) (hl : loopHead s = .next t) : t.Inv := by
  rcases loopHead_next.mp hl with ⟨-, rfl⟩ | ⟨hcancel, -, rfl⟩
  · exact inv_setFsm h hs between_waiting
  · exact inv_exit h hs nofun (fun _ => hcancel) rfl

theorem inv_receive (h : s.Inv) (hs : Between s.fsm) {bytes : List Byte} (hb : bytes.length ≤ s.cfg.messageSize) :
    (receive bytes s).Inv :=
  { h with
    rxCanonical := Memory.writeBytes_wf h.rxCanonical 0 bytes
    rxInside := fun x hx => by
      rcases Memory.mem_writeBytes hx with ⟨-, hlt⟩ | hold
      · exact lt_of_lt_of_le (by omega) hb
      · exact h.rxInside x hold
    rxLenInside := hb
    decodingLong := fun he => absurd he (between_ne_decoding hs)
    dispatchingCurrent := fun he => absurd he (between_ne_dispatching hs)
    workInPlace := workPlaced_of_idle (inv_idle (s := s) h hs) }

/-! ### Control steps (R106 to R118) -/

theorem inv_initReq (h : s.Inv) (he : execInitReq s = .next t) : t.Inv := by
  obtain ⟨hf, rfl⟩ := execInitReq_next.mp he
  exact inv_setFsm (inv_record h (uncounted_initReq _)) (hf ▸ between_init) between_initWait

theorem inv_initOk (h : s.Inv) (he : execInitOk s = .next t) : t.Inv := by
  obtain ⟨hf, hl⟩ := execInitOk_next.mp he
  exact inv_loopHead (inv_record h (uncounted_initResp true)) (hf ▸ between_initWait) hl

theorem inv_initFail (h : s.Inv) (he : execInitFail s = .next t) : t.Inv := by
  obtain ⟨hf, -, rfl⟩ := execInitFail_next.mp he
  exact inv_exit (inv_record h (uncounted_initResp false)) (hf ▸ between_initWait) nofun nofun rfl

theorem inv_rxData {r : Int} {bytes : List Byte} (h : s.Inv) (he : execRxData r bytes s = .next t) : t.Inv := by
  obtain ⟨hf, hr, hduty, rfl⟩ := execRxData_next.mp he
  obtain ⟨hlen, hsize⟩ := dutyKept_iff.mp hduty
  have hb : Between s.fsm := hf ▸ between_waiting
  have hi : (receive bytes s).Inv := inv_receive h hb (hlen ▸ hsize)
  have hcount : rxDataCount s.trace = renderCount s.trace := by simpa [hb.2] using h.renderEach
  exact { hi with
    exitMatches := iff_of_true (h.exitMatches.mpr hb.1) rfl
    finalizedLate := fun _ => h.finalizedLate (between_ne_halted hb)
    shutdownFinalizes := nofun
    haltedFinalized := nofun
    finalizeOnce := by
      rw [State.setFsm_trace, State.record_trace, finalizeCount_snoc]
      exact h.finalizeOnce
    renderEach := by
      rw [State.setFsm_trace, State.record_trace, rxDataCount_snoc, renderCount_snoc, rxDataCount_rx hr]
      exact congrArg (· + 1) hcount
    decodingLong := fun _ => show 4 ≤ bytes.length by omega
    dispatchingCurrent := nofun
    workInPlace := workPlaced_of_idle (inv_idle (s := s) h hb) }

theorem inv_rxShort {r : Int} {bytes : List Byte} (h : s.Inv) (he : execRxShort r bytes s = .next t) : t.Inv := by
  obtain ⟨hf, hr, hduty, hl⟩ := execRxShort_next.mp he
  obtain ⟨hlen, hsize⟩ := dutyKept_iff.mp hduty
  have hb : Between s.fsm := hf ▸ between_waiting
  exact inv_loopHead (inv_record (inv_receive h hb (hlen ▸ hsize)) (uncounted_rx (by omega) bytes)) hb hl

theorem inv_rxError {r : Int} (h : s.Inv) (he : execRxError r s = .next t) : t.Inv := by
  obtain ⟨hf, hr, hl⟩ := execRxError_next.mp he
  exact inv_loopHead (inv_record h (uncounted_rx (by omega) [])) (hf ▸ between_waiting) hl

/-- The frame that `DECODE` keeps is the datagram's own (R112): from `idle` by definition, from inside the scan because the
scan so far is a part of the whole one. -/
theorem inv_decode (h : s.Inv) (he : execDecode s = .next t) : t.Inv := by
  obtain ⟨hf, hrun⟩ := execDecode_next.mp he
  have whole : ∃ r, runDecode r s = .next t ∧
      decodeFrom s.cfg.maxChannels s.rxBuf s.rxLen r = decodeFrame s.cfg.maxChannels s.rxBuf s.rxLen := by
    rcases hrun with ⟨-, hr⟩ | ⟨r, hw, hr⟩
    · exact ⟨_, hr, rfl⟩
    · exact ⟨r, hr, (workPlaced_scan hw h.workInPlace).2.2⟩
  obtain ⟨r, hr, hsame⟩ := whole
  obtain ⟨hshort, -⟩ | ⟨frame, hd, rfl⟩ := runDecode_next.mp hr
  · exact absurd (h.decodingLong hf) (by omega)
  exact { h with
    exitMatches := iff_of_true (h.exitMatches.mpr (by rw [hf]; rfl)) rfl
    finalizedLate := fun _ => h.finalizedLate (by simp [hf])
    shutdownFinalizes := nofun
    haltedFinalized := nofun
    renderEach := by simpa [hf, Fsm.renderOwed] using h.renderEach
    decodingLong := nofun
    dispatchingCurrent := fun _ => hsame.symm.trans hd
    workInPlace := trivial }

theorem dispatchBuffers_fits {chb : ChannelBuffers} (h : dispatchBuffers s = .ok chb) (hf : s.cfg.fits s.chbuf) :
    s.cfg.fits chb := by
  unfold dispatchBuffers at h
  cases hw : s.work with
  | idle => rw [hw] at h; exact dispatchChannels_fits h hf
  | scan r => rw [hw] at h; exact dispatchChannels_fits h hf
  | demux c cursor => rw [hw] at h; exact dispatchChannels_fits h hf
  | copy k =>
    rw [hw] at h
    obtain ⟨mid, hm, hd⟩ := Except.bind_ok_iff.mp h
    exact dispatchChannels_fits hd (copyPixels_fits hm hf)

theorem inv_dispatch (h : s.Inv) (he : execDispatch s = .next t) : t.Inv := by
  obtain ⟨hf, -, chb, hchb, rfl⟩ := execDispatch_next.mp he
  have howed : rxDataCount s.trace = renderCount s.trace + 1 := by simpa [hf, Fsm.renderOwed] using h.renderEach
  exact { h with
    chbShaped := dispatchBuffers_fits (s := s) hchb h.chbShaped
    exitMatches := iff_of_true (h.exitMatches.mpr (by rw [hf]; rfl)) rfl
    finalizedLate := fun _ => h.finalizedLate (by simp [hf])
    shutdownFinalizes := nofun
    haltedFinalized := nofun
    finalizeOnce := by
      rw [State.setFsm_trace, State.record_trace, finalizeCount_snoc]
      exact h.finalizeOnce
    renderEach := by
      rw [State.setFsm_trace, State.record_trace, rxDataCount_snoc, renderCount_snoc]
      exact howed
    decodingLong := nofun
    dispatchingCurrent := nofun
    workInPlace := trivial }

theorem inv_renderOk (h : s.Inv) (he : execRenderOk s = .next t) : t.Inv := by
  obtain ⟨hf, rfl⟩ := execRenderOk_next.mp he
  exact inv_setFsm (inv_record h (uncounted_renderResp true)) (hf ▸ between_rendering) between_pacedIdle

theorem inv_renderFail (h : s.Inv) (he : execRenderFail s = .next t) : t.Inv := by
  obtain ⟨hf, -, rfl⟩ := execRenderFail_next.mp he
  exact inv_exit (inv_record h (uncounted_renderResp false)) (hf ▸ between_rendering) nofun nofun rfl

theorem inv_pace (h : s.Inv) (he : execPace s = .next t) : t.Inv := by
  obtain ⟨hf, hl⟩ := execPace_next.mp he
  exact inv_loopHead h (hf ▸ between_pacedIdle) hl

theorem inv_cancel (h : s.Inv) (he : execCancel s = .next t) : t.Inv := by
  obtain rfl := execCancel_next.mp he
  have hi : (s.setLooping (loopingAfterCancel s)).Inv :=
    { h with
      cleanMeansCancelled := fun hc => by
        rw [State.setLooping_continueLooping, loopingAfterCancel, h.cleanMeansCancelled hc, Bool.and_false] }
  exact inv_record hi uncounted_cancel

theorem inv_finalize (h : s.Inv) (he : execFinalize s = .next t) : t.Inv := by
  obtain ⟨hf, hunset, rfl⟩ := execFinalize_next.mp he
  have hcount : rxDataCount s.trace = renderCount s.trace := by simpa [hf, Fsm.renderOwed] using h.renderEach
  have hidle : s.work = .idle := work_idle h.workInPlace (by simp [hf]) (by simp [hf])
  exact { h with
    exitMatches := iff_of_false (mt h.exitMatches.mp (by simp [hf, Fsm.loopEnded])) nofun
    finalizedLate := fun hx => absurd rfl hx
    shutdownFinalizes := nofun
    haltedFinalized := fun _ => (h.shutdownFinalizes hf).symm
    finalizeOnce := by
      have hnone : finalizeCount s.trace = 0 := by simpa [hunset] using h.finalizeOnce
      rw [State.setFsm_trace, State.setFinalized_trace, State.record_trace, finalizeCount_snoc, hnone]
      rfl
    renderEach := by
      rw [State.setFsm_trace, State.setFinalized_trace, State.record_trace, rxDataCount_snoc, renderCount_snoc]
      exact hcount
    decodingLong := nofun
    dispatchingCurrent := nofun
    workInPlace := workPlaced_of_idle hidle }

/-! ### Wire elements and micro-operations (log 6) -/

/-- The header element of a pair does to the scan registers what the scan does with the pair (R78). -/
theorem exec_classifyPair {lo hi : Byte} (h : exec (classifyPair lo hi) s = .next t) :
    ∃ r, s.work = .scan r ∧ r.terminated = false ∧ t = s.setWork (.scan (scanPair s.cfg.maxChannels lo hi r)) := by
  unfold classifyPair at h
  split at h
  · rename_i hlo
    obtain ⟨r, hw, ht, rfl⟩ := (execTermL_next (hi := hi)).mp h
    exact ⟨r, hw, ht, by rw [scanPair_stop _ _ (.inl hlo)]⟩
  · rename_i hlo
    split at h
    · rename_i hhi
      obtain ⟨r, hw, ht, rfl⟩ := (execTermH_next (lo := lo)).mp h
      exact ⟨r, hw, ht, by rw [scanPair_stop _ _ (.inr hhi)]⟩
    · rename_i hhi
      obtain ⟨r, hw, ht, rfl⟩ := execLen_next.mp h
      exact ⟨r, hw, ht, by rw [scanPair_go _ _ (not_or.mpr ⟨hlo, hhi⟩)]⟩

/-- A pair of either kind takes the scan two bytes on. -/
theorem scanPair_advance (maxCh : Nat) (lo hi : Byte) {r : ScanRegs} (h : r.terminated = false) :
    (scanPair maxCh lo hi r).c + (scanPair maxCh lo hi r).terminated.toNat = r.c + 1 := by
  by_cases hs : lo = 0xFF ∨ hi = 0xFF
  · rw [scanPair_stop maxCh r hs]
    rfl
  · rw [scanPair_go maxCh r hs]
    simp [scanLen, h]

/-- The element that the pair at `2c` decodes to keeps the scan inside the scan of the datagram. -/
theorem inv_scanElement {r : ScanRegs} (h : s.Inv) (hw : s.work = .scan r) (ho : scanOver s.rxLen r = false)
    (he : exec (classifyPair (s.rxBuf.read (2 * r.c)) (s.rxBuf.read (2 * r.c + 1))) s = .next t) : t.Inv := by
  obtain ⟨r', hw', ht, rfl⟩ := exec_classifyPair he
  obtain rfl : r' = r := Work.scan.inj (hw'.symm.trans hw)
  obtain ⟨hf, -, hsame⟩ := workPlaced_scan hw h.workInPlace
  have hroom : 2 * r'.c + 2 ≤ s.rxLen := by
    have hin : ¬ s.rxLen < 2 * r'.c + 2 := fun hlt => by simp [scanOver_iff.mpr (.inr hlt)] at ho
    omega
  refine inv_setWork h ⟨hf, ?_, (decodeFrom_round ho).trans hsame⟩
  rw [scanPair_advance _ _ _ ht]
  exact hroom

/-- A channel's copies, made to their end, leave the dispatch before the next channel (R94, R96). -/
theorem inv_runChannel {k : CopyRegs} (h : s.Inv) (hk : s.copyPlaced k) (hr : runChannel k s = .next t) : t.Inv := by
  obtain ⟨chb, hchb, rfl⟩ := runChannel_next.mp hr
  obtain ⟨hf, hc, hdecl, hcursor, -, -⟩ := hk
  refine inv_setWork (inv_setChbuf h (copyPixels_fits hchb h.chbShaped)) ⟨hf, hc, ?_⟩
  rw [hdecl, hcursor]
  exact (DecodedFrame.cursorAt_succ ..).symm

theorem inv_dispatchCh {c : Nat} {declared : HalfWord} (h : s.Inv) (he : execDispatchCh c declared s = .next t) :
    t.Inv := by
  rcases execDispatchCh_next.mp he with ⟨cursor, hw, hch, hr⟩ | ⟨k, hw, -, -, hr⟩
  · obtain ⟨hf, -, hcursor⟩ := workPlaced_demux hw h.workInPlace
    obtain ⟨hc, hdecl⟩ := isChannel_iff.mp hch
    exact inv_runChannel h ⟨hf, hc, hdecl, hcursor, rfl, Nat.zero_le _⟩ hr
  · exact inv_runChannel h (workPlaced_copy hw h.workInPlace) hr

theorem inv_copyPx {c i q : Nat} (h : s.Inv) (he : execCopyPx c i q s = .next t) : t.Inv := by
  obtain ⟨k, chb, hw, ⟨-, rfl, hlt, -⟩, hcp, rfl⟩ := execCopyPx_next.mp he
  obtain ⟨hf, hc, hdecl, hcursor, hm, -⟩ := workPlaced_copy hw h.workInPlace
  obtain ⟨w, -, hwrite⟩ := copyPixel_ok.mp hcp
  exact inv_setWork (inv_setChbuf h (memWriteChb_fits hwrite h.chbShaped)) ⟨hf, hc, hdecl, hcursor, hm, hlt⟩

theorem inv_pix {r g b : Byte} (h : s.Inv) (he : execPix r g b s = .next t) : t.Inv := by
  obtain ⟨k, hw, rfl⟩ := execPix_next.mp he
  have hk : s.copyPlaced k := workPlaced_copy hw h.workInPlace
  exact inv_setWork h hk

/-! ### Every step -/

/-- Every instruction but a header element keeps the invariant wherever it has a next state. -/
theorem inv_exec {i : Instr} (hi : i.stream ≠ .header) (h : s.Inv) (he : exec i s = .next t) : t.Inv := by
  cases i with
  | len lo hi' => exact absurd rfl hi
  | termL hi' => exact absurd rfl hi
  | termH lo => exact absurd rfl hi
  | pix r g b => exact inv_pix h he
  | tail bytes => exact next_iff.mp he ▸ h
  | dispatchCh c declared => exact inv_dispatchCh h he
  | copyPx c j q => exact inv_copyPx h he
  | initReq => exact inv_initReq h he
  | initOk => exact inv_initOk h he
  | initFail => exact inv_initFail h he
  | rxData r bytes => exact inv_rxData h he
  | rxShort r bytes => exact inv_rxShort h he
  | rxError r => exact inv_rxError h he
  | decode => exact inv_decode h he
  | dispatch => exact inv_dispatch h he
  | renderOk => exact inv_renderOk h he
  | renderFail => exact inv_renderFail h he
  | pace => exact inv_pace h he
  | cancel => exact inv_cancel h he
  | finalize => exact inv_finalize h he

theorem internalStep_stream {i : Instr} (h : internalStep s = some i) : i.stream ≠ .header := by
  unfold internalStep at h
  split at h
  case h_5 =>
    split at h
    · cases h
    · cases h
      exact nofun
  all_goals (cases h <;> exact nofun)

theorem classifyInput_stream (e : PortInput) : (classifyInput e).stream = .port := by
  unfold classifyInput
  split
  case h_3 r bytes => split_ifs <;> rfl
  all_goals rfl

theorem fetchCopy_stream {k : CopyRegs} {i : Instr} {u : State} (h : fetchCopy k s = .run i u) : i.stream ≠ .header := by
  unfold fetchCopy at h
  split at h
  · split at h
    · obtain ⟨rfl, -⟩ := Fetched.run.inj h
      exact nofun
    · split at h
      · obtain ⟨rfl, -⟩ := Fetched.run.inj h
        exact nofun
      · simp at h
  · obtain ⟨rfl, -⟩ := Fetched.run.inj h
    exact nofun

/-- What a step fetches is no header element, or it is the element of the pair that the scan stands at. -/
theorem fetch_header {i : Instr} {u : State} (h : fetch s = .run i u) :
    i.stream ≠ .header ∨
      ∃ r, s.work = .scan r ∧ scanOver s.rxLen r = false ∧ u = s ∧
        i = classifyPair (s.rxBuf.read (2 * r.c)) (s.rxBuf.read (2 * r.c + 1)) := by
  cases hw : s.work with
  | idle =>
    rw [fetch_idle hw] at h
    rcases fetchControl_run h with ⟨hi, -⟩ | ⟨o, rest, -, rfl, -, -⟩
    · exact .inl (internalStep_stream hi)
    · exact .inl (by simp [classifyInput_stream])
  | scan r =>
    rw [fetch_scan hw, fetchScan_eq] at h
    split at h
    · obtain ⟨rfl, -⟩ := Fetched.run.inj h
      exact .inl nofun
    · rename_i ho
      obtain ⟨rfl, rfl⟩ := Fetched.run.inj h
      exact .inr ⟨r, rfl, Bool.eq_false_iff.mpr ho, rfl, rfl⟩
  | demux c cursor =>
    rw [fetch_demux hw, fetchDemux] at h
    split at h <;> (obtain ⟨rfl, -⟩ := Fetched.run.inj h; exact .inl nofun)
  | copy k =>
    rw [fetch_copy hw] at h
    exact .inl (fetchCopy_stream h)

/-- Settles O52: `inv_scanElement` for the element of the pair in a scan, `inv_exec` for everything else a step fetches. -/
theorem stepKeepsInvariant : Obligations.StepKeepsInvariant := by
  intro s t h hstep
  obtain ⟨i, u, hfetch, hexec⟩ := step_next hstep
  rcases fetch_header hfetch with hi | ⟨r, hw, ho, rfl, rfl⟩
  · obtain ⟨os, rfl⟩ := fetch_run hfetch
    exact inv_exec hi (inv_setInputs h os) hexec
  · exact inv_scanElement h hw ho hexec

/-! ### One finalize request at most (R21) -/

theorem finalizeCount_le_one (h : s.Inv) : finalizeCount s.trace ≤ 1 :=
  h.finalizeOnce ▸ Bool.toNat_le s.finalized

/-- Settles O46: the writers by `exec_controlWrite`, the one request from the invariant, which every run from reset keeps. -/
theorem finalizedWriters : Obligations.FinalizedWriters := by
  refine ⟨fun _ _ => rfl, fun i s t => Registers.finalized_changes, fun s t => Registers.execFinalize_sets,
    fun s t h hstep => (stepKeepsInvariant s t h hstep).finalizeOnce, fun p pixels moves n t hp hf hrun => ?_⟩
  have hreset : ((State.resetWith p pixels).setInputs moves).Inv := inv_setInputs (inv_resetWith hp hf) moves
  exact finalizeCount_le_one (runSteps_keeps stepKeepsInvariant n hreset hrun)

end Sys2Proof.Proofs.Invariant
end

section
/-! 10_state.md R22, R34(b): two states that differ in bytes of `rx_buf` at or beyond `rx_len` stop alike or go on alike. Every read
of the receive buffer is of a byte below `rx_len`, so the decode and dispatch functions answer the same, and every other update leaves
the buffer alone; a receive result makes a new datagram that reads the same in both. -/

namespace Sys2Proof.Proofs.HiddenBytes

open Sys2Proof.Machine

variable {s t : State}

/-! ### Two states alike, two outcomes alike -/

section Fields

variable (h : s.agreeVisible t)
include h

theorem fsm_visible : t.fsm = s.fsm := by rw [h.1]; rfl
theorem continueLooping_visible : t.continueLooping = s.continueLooping := by rw [h.1]; rfl
theorem exitStatus_visible : t.exitStatus = s.exitStatus := by rw [h.1]; rfl
theorem finalized_visible : t.finalized = s.finalized := by rw [h.1]; rfl
theorem rxLen_visible : t.rxLen = s.rxLen := by rw [h.1]; rfl
theorem dec_visible : t.dec = s.dec := by rw [h.1]; rfl
theorem chbuf_visible : t.chbuf = s.chbuf := by rw [h.1]; rfl
theorem cfg_visible : t.cfg = s.cfg := by rw [h.1]; rfl
theorem work_visible : t.work = s.work := by rw [h.1]; rfl
theorem inputs_visible : t.inputs = s.inputs := by rw [h.1]; rfl

end Fields

/-- An update that leaves `rx_buf` and `rx_len` alone keeps two states alike. -/
theorem agreeVisible_update (g : State → State) (hg : ∀ u buf n, g (u.setRx buf n) = (g u).setRx buf n)
    (h : s.agreeVisible t) : (g s).agreeVisible (g t) := by
  have hsame : g s = (g s).setRx s.rxBuf s.rxLen := hg s s.rxBuf s.rxLen
  have hlen : (g s).rxLen = s.rxLen := by rw [hsame]; rfl
  have hbuf : (g s).rxBuf = s.rxBuf := by rw [hsame]; rfl
  have ht : g t = (g s).setRx t.rxBuf (g s).rxLen := by rw [h.1, hg, hlen]; rfl
  refine ⟨by rw [ht]; rfl, fun i hi => ?_⟩
  rw [ht, hbuf]
  exact h.2 i (hlen ▸ hi)

/-- Two outcomes that stop alike, or go on to states alike. -/
inductive Alike : StepOutcome → StepOutcome → Prop
  | next {s t : State} (h : s.agreeVisible t) : Alike (.next s) (.next t)
  | fault (f : Fault) : Alike (.fault f) (.fault f)
  | refused (r : Refusal) : Alike (.refused r) (.refused r)

/-- Two fetches that stop alike, or run the same instruction in states alike. -/
inductive FetchedAlike : Fetched → Fetched → Prop
  | run (i : Instr) {s t : State} (h : s.agreeVisible t) : FetchedAlike (.run i s) (.run i t)
  | fault (f : Fault) : FetchedAlike (.fault f) (.fault f)
  | stop (r : Refusal) : FetchedAlike (.stop r) (.stop r)

/-! ### Reads of the datagram -/

section Reads

variable {buf buf' : Memory} {n : Nat}

theorem memReadRx_visible (h : ∀ i, i < n → buf'.read i = buf.read i) (i : Nat) :
    memReadRx buf' n i = memReadRx buf n i := by
  rcases Nat.lt_or_ge i n with hi | hi
  · rw [memReadRx_inside hi, memReadRx_inside hi, h i hi]
  · rw [memReadRx_outside hi, memReadRx_outside hi]

theorem readPair_visible (h : ∀ i, i < n → buf'.read i = buf.read i) (c : Nat) : readPair buf' n c = readPair buf n c := by
  simp only [readPair, memReadRx_visible h]

theorem readTriple_visible (h : ∀ i, i < n → buf'.read i = buf.read i) (p : Nat) :
    readTriple buf' n p = readTriple buf n p := by
  simp only [readTriple, memReadRx_visible h]

theorem scanLoop_visible (h : ∀ i, i < n → buf'.read i = buf.read i) (maxCh rounds : Nat) (r : ScanRegs) :
    scanLoop maxCh buf' n rounds r = scanLoop maxCh buf n rounds r := by
  induction rounds generalizing r with
  | zero => rfl
  | succ k ih => simp only [scanLoop, readPair_visible h, ih]

theorem decodeFrom_visible (h : ∀ i, i < n → buf'.read i = buf.read i) (maxCh : Nat) (r : ScanRegs) :
    decodeFrom maxCh buf' n r = decodeFrom maxCh buf n r := by
  simp only [decodeFrom, scanLoop_visible h]

/-- Two results of the same bytes leave the same datagram, whatever the buffers held before (R48). -/
theorem writeBytes_visible (h : buf.wf) (h' : buf'.wf) (bytes : List Byte) {i : Nat} (hi : i < bytes.length) :
    (buf'.writeBytes 0 bytes).read i = (buf.writeBytes 0 bytes).read i := by
  rw [Memory.read_writeBytes h', Memory.read_writeBytes h, if_pos (Nat.zero_le _), if_pos (Nat.zero_le _), Nat.sub_zero,
    List.getD_eq_getElem _ _ hi, List.getD_eq_getElem _ _ hi]

end Reads

/-! ### The dispatch function -/

theorem pixelAt_visible (h : s.agreeVisible t) (q : Nat) : pixelAt t q = pixelAt s q := by
  rw [h.1]
  simp only [pixelAt, tripleOffset, State.setRx_dec, State.setRx_rxBuf, State.setRx_rxLen, readTriple_visible h.2]

theorem copyPixel_visible (h : s.agreeVisible t) (c i q : Nat) (chb : ChannelBuffers) :
    copyPixel t c i q chb = copyPixel s c i q chb := by
  simp only [copyPixel, pixelAt_visible h, cfg_visible h]

theorem copyPixels_visible (h : s.agreeVisible t) (c cursor slots i : Nat) (chb : ChannelBuffers) :
    copyPixels t c cursor slots i chb = copyPixels s c cursor slots i chb := by
  induction slots generalizing i chb with
  | zero => rfl
  | succ k ih => simp only [copyPixels, copyPixel_visible h, ih]

theorem copyCount_visible (h : s.agreeVisible t) (c : Nat) (declared : HalfWord) (cursor : Nat) :
    copyCount t c declared cursor = copyCount s c declared cursor := by
  rw [h.1]
  rfl

theorem dispatchChannels_visible (h : s.agreeVisible t) (channels c cursor : Nat) (chb : ChannelBuffers) :
    dispatchChannels t channels c cursor chb = dispatchChannels s channels c cursor chb := by
  induction channels generalizing c cursor chb with
  | zero => rfl
  | succ k ih => simp only [dispatchChannels, copyPixels_visible h, copyCount_visible h, dec_visible h, ih]

theorem finishCopy_visible (h : s.agreeVisible t) (k : CopyRegs) : finishCopy t k = finishCopy s k := by
  simp only [finishCopy, copyPixels_visible h, chbuf_visible h]

theorem finishDispatch_visible (h : s.agreeVisible t) (c cursor : Nat) (chb : ChannelBuffers) :
    finishDispatch t c cursor chb = finishDispatch s c cursor chb := by
  simp only [finishDispatch, dispatchChannels_visible h, dec_visible h]

theorem dispatchBuffers_visible (h : s.agreeVisible t) : dispatchBuffers t = dispatchBuffers s := by
  simp only [dispatchBuffers, finishCopy_visible h, finishDispatch_visible h, work_visible h, chbuf_visible h]

/-! ### The shared operations -/

theorem enabledIn_alike {f : Fsm} {body body' : StepOutcome} (h : s.agreeVisible t) (hb : Alike body body') :
    Alike (enabledIn f s body) (enabledIn f t body') := by
  unfold enabledIn
  rw [fsm_visible h]
  split
  · exact hb
  · exact .refused _

theorem orFault_alike {α : Type} {go go' : α → StepOutcome} (res : Except Fault α) (h : ∀ a, Alike (go a) (go' a)) :
    Alike (orFault res go) (orFault res go') := by
  cases res with
  | ok a => exact h a
  | error f => exact .fault f

theorem endLoop_alike (e : ExitStatus) (f : Fsm) (h : s.agreeVisible t) : Alike (endLoop e f s) (endLoop e f t) := by
  unfold endLoop
  rw [exitStatus_visible h]
  split
  · exact .next (agreeVisible_update (fun u => (u.setExit e).setFsm f) (fun _ _ _ => rfl) h)
  · exact .fault _

theorem loopHead_alike (h : s.agreeVisible t) : Alike (loopHead s) (loopHead t) := by
  unfold loopHead
  rw [continueLooping_visible h]
  split
  · exact .next (agreeVisible_update (fun u => u.setFsm .waitingForPacket) (fun _ _ _ => rfl) h)
  · exact endLoop_alike _ _ h

theorem raiseFatal_alike (e : FatalError) (h : s.agreeVisible t) : Alike (raiseFatal e s) (raiseFatal e t) := by
  unfold raiseFatal
  rw [cfg_visible h]
  exact endLoop_alike _ _ h

theorem onDuty_alike {r : Int} {bytes : List Byte} {body body' : StepOutcome} (p : Params) (hb : Alike body body') :
    Alike (onDuty p r bytes body) (onDuty p r bytes body') := by
  unfold onDuty
  split
  · exact hb
  · exact .refused _

theorem agreeVisible_record (h : s.agreeVisible t) (e : Event) : (s.record e).agreeVisible (t.record e) :=
  agreeVisible_update (fun u => u.record e) (fun _ _ _ => rfl) h

theorem agreeVisible_setWork (h : s.agreeVisible t) (w : Work) : (s.setWork w).agreeVisible (t.setWork w) :=
  agreeVisible_update (fun u => u.setWork w) (fun _ _ _ => rfl) h

theorem agreeVisible_receive (h : s.agreeVisible t) (hs : s.rxBuf.wf) (ht : t.rxBuf.wf) (bytes : List Byte) :
    (receive bytes s).agreeVisible (receive bytes t) := by
  refine ⟨?_, fun i hi => writeBytes_visible hs ht bytes hi⟩
  conv_lhs => rw [h.1]
  rfl

theorem inScan_alike (h : s.agreeVisible t) (f : ScanRegs → ScanRegs) : Alike (inScan s f) (inScan t f) := by
  unfold inScan
  rw [work_visible h]
  split
  · split
    · exact .refused _
    · exact .next (agreeVisible_setWork h _)
  · exact .refused _

theorem runChannel_alike (h : s.agreeVisible t) (k : CopyRegs) : Alike (runChannel k s) (runChannel k t) := by
  unfold runChannel
  rw [finishCopy_visible h]
  exact orFault_alike _ fun chb => .next
    (agreeVisible_update (fun u => (u.setChbuf chb).setWork (.demux (k.c + 1) (k.cursor + k.declared.toNat)))
      (fun _ _ _ => rfl) h)

theorem runDecode_alike (h : s.agreeVisible t) (r : ScanRegs) : Alike (runDecode r s) (runDecode r t) := by
  have hdec : decodeFrom t.cfg.maxChannels t.rxBuf t.rxLen r = decodeFrom s.cfg.maxChannels s.rxBuf s.rxLen r := by
    rw [h.1]
    exact decodeFrom_visible h.2 _ r
  unfold runDecode
  rw [hdec]
  refine orFault_alike _ fun res => ?_
  cases res with
  | ok frame =>
    exact .next (agreeVisible_update (fun u => ((u.setDec frame).setWork .idle).setFsm .dispatching) (fun _ _ _ => rfl) h)
  | error e => exact loopHead_alike (agreeVisible_setWork h .idle)

/-! ### The meanings -/

theorem execPix_alike (h : s.agreeVisible t) (r g b : Byte) : Alike (execPix r g b s) (execPix r g b t) := by
  unfold execPix
  rw [work_visible h]
  split
  · exact .next (agreeVisible_setWork h _)
  · exact .refused _

theorem execDispatchCh_alike (h : s.agreeVisible t) (c : Nat) (declared : HalfWord) :
    Alike (execDispatchCh c declared s) (execDispatchCh c declared t) := by
  have hstart : ∀ cursor, CopyRegs.start t c cursor declared = .start s c cursor declared := fun cursor => by
    rw [CopyRegs.start, copyCount_visible h, CopyRegs.start]
  unfold execDispatchCh
  rw [work_visible h, dec_visible h]
  split
  · split
    · rw [hstart]
      exact runChannel_alike h _
    · exact .refused _
  · split
    · exact runChannel_alike h _
    · exact .refused _
  · exact .refused _

theorem execCopyPx_alike (h : s.agreeVisible t) (c i q : Nat) : Alike (execCopyPx c i q s) (execCopyPx c i q t) := by
  unfold execCopyPx
  rw [work_visible h]
  split
  · rename_i k _
    split
    · rw [copyPixel_visible h, chbuf_visible h]
      exact orFault_alike _ fun chb => .next
        (agreeVisible_update (fun u => (u.setChbuf chb).setWork (.copy { k with i := k.i + 1, pixel := none }))
          (fun _ _ _ => rfl) h)
    · exact .refused _
  · exact .refused _

theorem execInitReq_alike (h : s.agreeVisible t) : Alike (execInitReq s) (execInitReq t) :=
  enabledIn_alike h <| .next <|
    agreeVisible_update (fun u => (u.record (.initReq u.cfg.channelConfig)).setFsm .initWait) (fun _ _ _ => rfl) h

theorem execRxData_alike (h : s.agreeVisible t) (hs : s.rxBuf.wf) (ht : t.rxBuf.wf) (r : Int) (bytes : List Byte) :
    Alike (execRxData r bytes s) (execRxData r bytes t) := by
  refine enabledIn_alike h ?_
  rw [cfg_visible h]
  split
  · exact onDuty_alike _ <| .next <|
      agreeVisible_update (fun u => (u.record (.input (.rx r bytes))).setFsm .decoding) (fun _ _ _ => rfl)
        (agreeVisible_receive h hs ht bytes)
  · exact .refused _

theorem execRxShort_alike (h : s.agreeVisible t) (hs : s.rxBuf.wf) (ht : t.rxBuf.wf) (r : Int) (bytes : List Byte) :
    Alike (execRxShort r bytes s) (execRxShort r bytes t) := by
  refine enabledIn_alike h ?_
  rw [cfg_visible h]
  split
  · exact onDuty_alike _ (loopHead_alike (agreeVisible_record (agreeVisible_receive h hs ht bytes) _))
  · exact .refused _

theorem execRxError_alike (h : s.agreeVisible t) (r : Int) : Alike (execRxError r s) (execRxError r t) := by
  refine enabledIn_alike h ?_
  split
  · exact loopHead_alike (agreeVisible_record h _)
  · exact .refused _

theorem execDecode_alike (h : s.agreeVisible t) : Alike (execDecode s) (execDecode t) := by
  refine enabledIn_alike h ?_
  rw [work_visible h]
  split
  · exact runDecode_alike h _
  · exact runDecode_alike h _
  · exact .refused _

theorem execDispatch_alike (h : s.agreeVisible t) : Alike (execDispatch s) (execDispatch t) := by
  refine enabledIn_alike h ?_
  rw [work_visible h, dispatchBuffers_visible h]
  split
  · exact .refused _
  · exact orFault_alike _ fun chb => .next
      (agreeVisible_update (fun u => (((u.setChbuf chb).setWork .idle).record (.renderReq chb)).setFsm .rendering)
        (fun _ _ _ => rfl) h)

theorem execRenderOk_alike (h : s.agreeVisible t) : Alike (execRenderOk s) (execRenderOk t) :=
  enabledIn_alike h <| .next <|
    agreeVisible_update (fun u => (u.record (.input (.renderResp true))).setFsm .pacedIdle) (fun _ _ _ => rfl) h

theorem execCancel_alike (h : s.agreeVisible t) : Alike (execCancel s) (execCancel t) :=
  .next <| agreeVisible_update (fun u => (u.setLooping (loopingAfterCancel u)).record (.input .cancel))
    (fun _ _ _ => rfl) h

theorem execFinalize_alike (h : s.agreeVisible t) : Alike (execFinalize s) (execFinalize t) := by
  refine enabledIn_alike h ?_
  rw [finalized_visible h]
  split
  · exact .refused _
  · exact .next <| agreeVisible_update (fun u => ((u.record .finalizeReq).setFinalized true).setFsm .halted)
      (fun _ _ _ => rfl) h

theorem exec_alike (i : Instr) (h : s.agreeVisible t) (hs : s.rxBuf.wf) (ht : t.rxBuf.wf) :
    Alike (exec i s) (exec i t) := by
  cases i with
  | len lo hi =>
    show Alike (execLen lo hi s) (execLen lo hi t)
    rw [execLen, execLen, cfg_visible h]
    exact inScan_alike h _
  | termL hi => exact inScan_alike h scanTerm
  | termH lo => exact inScan_alike h scanTerm
  | pix r g b => exact execPix_alike h r g b
  | tail bytes => exact .next h
  | dispatchCh c declared => exact execDispatchCh_alike h c declared
  | copyPx c k q => exact execCopyPx_alike h c k q
  | initReq => exact execInitReq_alike h
  | initOk => exact enabledIn_alike h (loopHead_alike (agreeVisible_record h _))
  | initFail => exact enabledIn_alike h (raiseFatal_alike _ (agreeVisible_record h _))
  | rxData r bytes => exact execRxData_alike h hs ht r bytes
  | rxShort r bytes => exact execRxShort_alike h hs ht r bytes
  | rxError r => exact execRxError_alike h r
  | decode => exact execDecode_alike h
  | dispatch => exact execDispatch_alike h
  | renderOk => exact execRenderOk_alike h
  | renderFail => exact enabledIn_alike h (raiseFatal_alike _ (agreeVisible_record h _))
  | pace => exact enabledIn_alike h (loopHead_alike h)
  | cancel => exact execCancel_alike h
  | finalize => exact execFinalize_alike h

/-! ### Fetch and step -/

theorem fetchOffer_alike (h : s.agreeVisible t) (o : Offer) (rest : List Offer) :
    FetchedAlike (fetchOffer o rest s) (fetchOffer o rest t) := by
  unfold fetchOffer
  rw [cfg_visible h]
  split
  · exact .run _ (agreeVisible_update (fun u => u.setInputs rest) (fun _ _ _ => rfl) h)
  · exact .stop _

theorem fetchControl_alike (h : s.agreeVisible t) : FetchedAlike (fetchControl s) (fetchControl t) := by
  have hint : internalStep t = internalStep s := by rw [h.1]; rfl
  have hnone : nothingEnabled t = nothingEnabled s := by rw [h.1]; rfl
  unfold fetchControl
  rw [inputs_visible h, hint, hnone, fsm_visible h]
  split
  · split
    · exact .run _ h
    · exact .stop _
  · split
    · exact fetchOffer_alike h _ _
    · split
      · exact .run _ h
      · exact fetchOffer_alike h _ _

theorem fetchScan_alike (h : s.agreeVisible t) (r : ScanRegs) : FetchedAlike (fetchScan r s) (fetchScan r t) := by
  unfold fetchScan
  rw [rxLen_visible h, readPair_visible h.2]
  split
  · exact .run _ h
  · split
    · exact .run _ h
    · exact .fault _

theorem fetchDemux_alike (h : s.agreeVisible t) (c : Nat) : FetchedAlike (fetchDemux c s) (fetchDemux c t) := by
  unfold fetchDemux
  rw [dec_visible h]
  split
  · exact .run _ h
  · exact .run _ h

theorem fetchCopy_alike (h : s.agreeVisible t) (k : CopyRegs) : FetchedAlike (fetchCopy k s) (fetchCopy k t) := by
  have hoff : tripleOffset t (k.cursor + k.i) = tripleOffset s (k.cursor + k.i) := by rw [h.1]; rfl
  unfold fetchCopy
  rw [rxLen_visible h, hoff, readTriple_visible h.2]
  split
  · split
    · exact .run _ h
    · split
      · exact .run _ h
      · exact .fault _
  · exact .run _ h

theorem fetch_alike (h : s.agreeVisible t) : FetchedAlike (fetch s) (fetch t) := by
  unfold fetch
  rw [work_visible h]
  split
  · exact fetchControl_alike h
  · exact fetchScan_alike h _
  · exact fetchDemux_alike h _
  · exact fetchCopy_alike h _

/-- The move that a fetch takes leaves the receive buffer as it is. -/
theorem fetch_rxBuf {i : Instr} {u : State} (h : fetch s = .run i u) : u.rxBuf = s.rxBuf := by
  obtain ⟨os, rfl⟩ := fetch_run h
  rfl

theorem step_alike (h : s.agreeVisible t) (hs : s.rxBuf.wf) (ht : t.rxBuf.wf) : Alike (step s) (step t) := by
  have hf := fetch_alike h
  unfold step
  generalize hfs : fetch s = a at hf ⊢
  generalize hft : fetch t = b at hf ⊢
  cases hf with
  | run i huv => exact exec_alike i huv (fetch_rxBuf hfs ▸ hs) (fetch_rxBuf hft ▸ ht)
  | fault f => exact .fault f
  | stop r => exact .refused r

/-- Settles O56: alike states step alike, and each form of `Alike` gives the three clauses. -/
theorem hiddenBytesNeverMatter : Obligations.HiddenBytesNeverMatter := by
  intro s t hs ht h
  have ha := step_alike h hs ht
  generalize step s = o at ha ⊢
  generalize step t = o' at ha ⊢
  cases ha with
  | next h' =>
    refine ⟨fun f hf => by simp at hf, fun r hr => by simp at hr, fun s' hs' => ?_⟩
    obtain rfl := next_iff.mp hs'
    exact ⟨_, rfl, h'⟩
  | fault f => exact ⟨fun _ => id, fun r hr => by simp at hr, fun s' hs' => by simp at hs'⟩
  | refused r => exact ⟨fun f hf => by simp at hf, fun _ => id, fun s' hs' => by simp at hs'⟩

end Sys2Proof.Proofs.HiddenBytes
end

section
/-! 20_memory.md, the receive buffer: what the socket delivers of a long datagram (R47), what a receive result writes (R48), and
which instruction writes the receive buffer and the decoded frame (R23, R24, R56). The last goes through one inversion,
`exec_datagramWrite`, of what any instruction can have written to them. -/

namespace Sys2Proof.Proofs.Datagram

open Sys2Proof.Machine

variable {s t : State}

/-! ### The socket's delivery (R47) -/

/-- Settles O10: the delivered bytes are `MESSAGE_SIZE` many, and taking them a second time changes nothing. -/
theorem socketTruncates : Obligations.SocketTruncates := by
  intro p datagram hlong
  have hlen : (datagram.take p.messageSize).length = p.messageSize := List.length_take_of_le hlong
  have htwice : (datagram.take p.messageSize).take p.messageSize = datagram.take p.messageSize := by
    rw [List.take_take, Nat.min_self]
  refine ⟨?_, ?_⟩
  · rw [socketDeliver, hlen]
  · rw [socketDeliver, socketDeliver, htwice]

/-! ### What a receive result writes (R48) -/

/-- The registers of the current datagram: `rx_buf`, `rx_len` and the decoded frame. -/
def datagramOf (s : State) : Memory × Nat × DecodedFrame := (s.rxBuf, s.rxLen, s.dec)

theorem datagramOf_eq_iff :
    datagramOf t = datagramOf s ↔ t.rxBuf = s.rxBuf ∧ t.rxLen = s.rxLen ∧ t.dec = s.dec := by
  simp [datagramOf]

/-- The loop head writes none of them, whatever was recorded or received before it. -/
theorem loopHead_datagram {u : State} (h : loopHead u = .next t) (hu : datagramOf u = datagramOf s) :
    datagramOf t = datagramOf s := by
  rcases loopHead_next.mp h with ⟨-, rfl⟩ | ⟨-, -, rfl⟩
  · exact hu
  · exact hu

/-- A receive result that the block takes was waited for, and is written as `receive` says. -/
theorem rx_receives {r : Int} {bytes : List Byte}
    (h : exec (.rxData r bytes) s = .next t ∨ exec (.rxShort r bytes) s = .next t) :
    s.fsm = .waitingForPacket ∧ datagramOf t = datagramOf (receive bytes s) := by
  rcases h with h | h
  · obtain ⟨hf, -, -, rfl⟩ := execRxData_next.mp h
    exact ⟨hf, rfl⟩
  · obtain ⟨hf, -, -, hl⟩ := execRxShort_next.mp h
    exact ⟨hf, loopHead_datagram hl rfl⟩

theorem execRxError_datagram {r : Int} (h : execRxError r s = .next t) : datagramOf t = datagramOf s :=
  loopHead_datagram (execRxError_next.mp h).2.2 rfl

/-- The bytes received stand at the addresses from 0 on; every other byte is as before. -/
theorem receive_read (hw : s.rxBuf.wf) (bytes : List Byte) (i : Nat) :
    (receive bytes s).rxBuf.read i = if h : i < bytes.length then bytes[i] else s.rxBuf.read i := by
  show (s.rxBuf.writeBytes 0 bytes).read i = _
  rw [Memory.read_writeBytes hw, if_pos (Nat.zero_le i), Nat.sub_zero]
  split
  · next hi => exact List.getD_eq_getElem bytes _ hi
  · next hi => exact List.getD_eq_default bytes _ (Nat.le_of_not_lt hi)

/-- Settles O9: both classes of a result write what `receive` writes, and a failed read only comes to the loop head. -/
theorem receiveWritesPrefix : Obligations.ReceiveWritesPrefix := by
  refine ⟨fun s t r bytes hw h => ?_, fun s t r h => ?_⟩
  · obtain ⟨hbuf, hlen, -⟩ := datagramOf_eq_iff.mp (rx_receives h).2
    exact ⟨hlen, fun i => hbuf ▸ receive_read hw bytes i⟩
  · obtain ⟨hbuf, hlen, -⟩ := datagramOf_eq_iff.mp (execRxError_datagram h)
    exact ⟨hbuf, hlen⟩

/-! ### Who writes the registers of the datagram (R23, R24, R56) -/

/-- What an instruction that leads from `s` to `t` has written to the registers of the datagram: nothing, a receive result, or
the frame of a `DECODE`. -/
inductive DatagramWrite (s t : State) : Instr → Prop
  | nothing {i : Instr} (h : datagramOf t = datagramOf s) : DatagramWrite s t i
  | received {i : Instr} {r : Int} {bytes : List Byte} (hi : i = .rxData r bytes ∨ i = .rxShort r bytes)
      (waiting : s.fsm = .waitingForPacket) (h : datagramOf t = datagramOf (receive bytes s)) : DatagramWrite s t i
  | decoded {frame : DecodedFrame} (decoding : s.fsm = .decoding) (dispatching : t.fsm = .dispatching)
      (h : datagramOf t = datagramOf (s.setDec frame)) : DatagramWrite s t .decode

theorem runChannel_datagram {k : CopyRegs} (h : runChannel k s = .next t) : datagramOf t = datagramOf s := by
  obtain ⟨chb, -, rfl⟩ := runChannel_next.mp h
  rfl

theorem execDecode_datagramWrite (h : execDecode s = .next t) : DatagramWrite s t .decode := by
  obtain ⟨hf, hrun⟩ := execDecode_next.mp h
  have run : ∀ r, runDecode r s = .next t → DatagramWrite s t .decode := by
    intro r hr
    rcases runDecode_next.mp hr with ⟨-, hl⟩ | ⟨frame, -, rfl⟩
    · exact .nothing (loopHead_datagram hl rfl)
    · exact .decoded (frame := frame) hf rfl rfl
  rcases hrun with ⟨-, hr⟩ | ⟨r, -, hr⟩
  · exact run _ hr
  · exact run r hr

/-- What each instruction has written to the registers of the datagram when it answers a next state. -/
theorem exec_datagramWrite {i : Instr} (h : exec i s = .next t) : DatagramWrite s t i := by
  cases i with
  | len lo hi => obtain ⟨r, -, -, rfl⟩ := execLen_next.mp h; exact .nothing rfl
  | termL hi => obtain ⟨r, -, -, rfl⟩ := (execTermL_next (hi := hi)).mp h; exact .nothing rfl
  | termH lo => obtain ⟨r, -, -, rfl⟩ := (execTermH_next (lo := lo)).mp h; exact .nothing rfl
  | pix r g b => obtain ⟨k, -, rfl⟩ := execPix_next.mp h; exact .nothing rfl
  | tail bytes => obtain rfl := next_iff.mp h; exact .nothing rfl
  | dispatchCh c declared =>
    obtain ⟨cursor, -, -, hr⟩ | ⟨k, -, -, -, hr⟩ := execDispatchCh_next.mp h
    · exact .nothing (runChannel_datagram hr)
    · exact .nothing (runChannel_datagram hr)
  | copyPx c j q => obtain ⟨k, chb, -, -, -, rfl⟩ := execCopyPx_next.mp h; exact .nothing rfl
  | initReq => obtain ⟨-, rfl⟩ := execInitReq_next.mp h; exact .nothing rfl
  | initOk => exact .nothing (loopHead_datagram (execInitOk_next.mp h).2 rfl)
  | initFail => obtain ⟨-, -, rfl⟩ := execInitFail_next.mp h; exact .nothing rfl
  | rxData r bytes =>
    obtain ⟨hf, hd⟩ := rx_receives (.inl h)
    exact .received (.inl rfl) hf hd
  | rxShort r bytes =>
    obtain ⟨hf, hd⟩ := rx_receives (.inr h)
    exact .received (.inr rfl) hf hd
  | rxError r => exact .nothing (execRxError_datagram h)
  | decode => exact execDecode_datagramWrite h
  | dispatch => obtain ⟨-, -, chb, -, rfl⟩ := execDispatch_next.mp h; exact .nothing rfl
  | renderOk => obtain ⟨-, rfl⟩ := execRenderOk_next.mp h; exact .nothing rfl
  | renderFail => obtain ⟨-, -, rfl⟩ := execRenderFail_next.mp h; exact .nothing rfl
  | pace => exact .nothing (loopHead_datagram (execPace_next.mp h).2 rfl)
  | cancel => obtain rfl := execCancel_next.mp h; exact .nothing rfl
  | finalize => obtain ⟨-, -, rfl⟩ := execFinalize_next.mp h; exact .nothing rfl

/-- Settles O47: of the three kinds of write only a receive result touches the buffer, and only a `DECODE` the frame. -/
theorem datagramWriters : Obligations.DatagramWriters := by
  refine ⟨fun i s t h hne => ?_, fun i s t h hne => ?_⟩
  · cases exec_datagramWrite h with
    | nothing hd =>
      obtain ⟨hbuf, hlen, -⟩ := datagramOf_eq_iff.mp hd
      exact (hne.elim (· hbuf) (· hlen)).elim
    | received hi hf _ => exact ⟨hf, _, _, hi⟩
    | decoded _ _ hd =>
      obtain ⟨hbuf, hlen, -⟩ := datagramOf_eq_iff.mp hd
      exact (hne.elim (· hbuf) (· hlen)).elim
  · cases exec_datagramWrite h with
    | nothing hd => exact absurd (datagramOf_eq_iff.mp hd).2.2 hne
    | received _ _ hd => exact absurd (datagramOf_eq_iff.mp hd).2.2 hne
    | decoded hf ht _ => exact ⟨rfl, hf, ht⟩

end Sys2Proof.Proofs.Datagram
end

section
/-! 20_memory.md R53, 42_control.md R119: a `CANCEL` can be put between any two steps of a run (log 5). No meaning reads the
pending moves (`exec_setInputs`), so a run goes the same way with a move more, as long as it does not come to that move. Between two moves
taken the block makes internal steps only, and these never come back to a state of the control loop (`internalStep_left`), so a
`CANCEL` that names the state where the run stands is not made before. -/

namespace Sys2Proof.Proofs.CancelPlace

open Sys2Proof.Machine

variable {s t u : State}

/-! ### No meaning reads or writes the pending moves -/

theorem finishCopy_setInputs (s : State) (os : List Offer) (k : CopyRegs) :
    finishCopy (s.setInputs os) k = finishCopy s k :=
  copyPixels_congr (s := s) (t := s.setInputs os) rfl rfl rfl rfl ..

theorem finishDispatch_setInputs (s : State) (os : List Offer) (c cursor : Nat) (chb : ChannelBuffers) :
    finishDispatch (s.setInputs os) c cursor chb = finishDispatch s c cursor chb :=
  dispatchChannels_congr (s := s) (t := s.setInputs os) rfl rfl rfl rfl ..

theorem dispatchBuffers_setInputs (s : State) (os : List Offer) : dispatchBuffers (s.setInputs os) = dispatchBuffers s := by
  simp only [dispatchBuffers, State.setInputs_work, State.setInputs_chbuf, finishCopy_setInputs, finishDispatch_setInputs]

theorem loopHead_setInputs (os : List Offer) (h : loopHead s = .next t) :
    loopHead (s.setInputs os) = .next (t.setInputs os) := by
  rcases loopHead_next.mp h with ⟨hl, rfl⟩ | ⟨hl, he, rfl⟩
  · exact loopHead_next.mpr (.inl ⟨hl, rfl⟩)
  · exact loopHead_next.mpr (.inr ⟨hl, he, rfl⟩)

theorem runDecode_setInputs (os : List Offer) {r : ScanRegs} (h : runDecode r s = .next t) :
    runDecode r (s.setInputs os) = .next (t.setInputs os) := by
  rcases runDecode_next.mp h with ⟨hn, hl⟩ | ⟨frame, hd, rfl⟩
  · exact runDecode_next.mpr (.inl ⟨hn, loopHead_setInputs os hl⟩)
  · exact runDecode_next.mpr (.inr ⟨frame, hd, rfl⟩)

theorem runChannel_setInputs (os : List Offer) {k : CopyRegs} (h : runChannel k s = .next t) :
    runChannel k (s.setInputs os) = .next (t.setInputs os) := by
  obtain ⟨chb, hc, rfl⟩ := runChannel_next.mp h
  exact runChannel_next.mpr ⟨chb, (finishCopy_setInputs s os k).trans hc, rfl⟩

/-- An instruction does the same whatever moves are pending, and leaves them. -/
theorem exec_setInputs (os : List Offer) {i : Instr} (h : exec i s = .next t) :
    exec i (s.setInputs os) = .next (t.setInputs os) := by
  cases i with
  | len lo hi => obtain ⟨r, hw, ht, rfl⟩ := execLen_next.mp h; exact execLen_next.mpr ⟨r, hw, ht, rfl⟩
  | termL hi =>
    obtain ⟨r, hw, ht, rfl⟩ := (execTermL_next (hi := hi)).mp h
    exact (execTermL_next (hi := hi)).mpr ⟨r, hw, ht, rfl⟩
  | termH lo =>
    obtain ⟨r, hw, ht, rfl⟩ := (execTermH_next (lo := lo)).mp h
    exact (execTermH_next (lo := lo)).mpr ⟨r, hw, ht, rfl⟩
  | pix r g b => obtain ⟨k, hw, rfl⟩ := execPix_next.mp h; exact execPix_next.mpr ⟨k, hw, rfl⟩
  | tail bytes => obtain rfl := next_iff.mp h; rfl
  | dispatchCh c declared =>
    obtain ⟨cursor, hw, hc, hr⟩ | ⟨k, hw, hc, hd, hr⟩ := execDispatchCh_next.mp h
    · exact execDispatchCh_next.mpr (.inl ⟨cursor, hw, hc, runChannel_setInputs os hr⟩)
    · exact execDispatchCh_next.mpr (.inr ⟨k, hw, hc, hd, runChannel_setInputs os hr⟩)
  | copyPx c j q =>
    obtain ⟨k, chb, hw, hk, hc, rfl⟩ := execCopyPx_next.mp h
    exact execCopyPx_next.mpr ⟨k, chb, hw, hk, (copyPixel_congr rfl rfl rfl rfl ..).trans hc, rfl⟩
  | initReq => obtain ⟨hf, rfl⟩ := execInitReq_next.mp h; exact execInitReq_next.mpr ⟨hf, rfl⟩
  | initOk =>
    obtain ⟨hf, hl⟩ := execInitOk_next.mp h
    exact execInitOk_next.mpr ⟨hf, loopHead_setInputs os hl⟩
  | initFail => obtain ⟨hf, he, rfl⟩ := execInitFail_next.mp h; exact execInitFail_next.mpr ⟨hf, he, rfl⟩
  | rxData r bytes =>
    obtain ⟨hf, hr, hd, rfl⟩ := execRxData_next.mp h
    exact execRxData_next.mpr ⟨hf, hr, hd, rfl⟩
  | rxShort r bytes =>
    obtain ⟨hf, hr, hd, hl⟩ := execRxShort_next.mp h
    exact execRxShort_next.mpr ⟨hf, hr, hd, loopHead_setInputs os hl⟩
  | rxError r =>
    obtain ⟨hf, hr, hl⟩ := execRxError_next.mp h
    exact execRxError_next.mpr ⟨hf, hr, loopHead_setInputs os hl⟩
  | decode =>
    obtain ⟨hf, ⟨hw, hr⟩ | ⟨r, hw, hr⟩⟩ := execDecode_next.mp h
    · exact execDecode_next.mpr ⟨hf, .inl ⟨hw, runDecode_setInputs os hr⟩⟩
    · exact execDecode_next.mpr ⟨hf, .inr ⟨r, hw, runDecode_setInputs os hr⟩⟩
  | dispatch =>
    obtain ⟨hf, hw, chb, hd, rfl⟩ := execDispatch_next.mp h
    exact execDispatch_next.mpr ⟨hf, hw, chb, (dispatchBuffers_setInputs s os).trans hd, rfl⟩
  | renderOk => obtain ⟨hf, rfl⟩ := execRenderOk_next.mp h; exact execRenderOk_next.mpr ⟨hf, rfl⟩
  | renderFail => obtain ⟨hf, he, rfl⟩ := execRenderFail_next.mp h; exact execRenderFail_next.mpr ⟨hf, he, rfl⟩
  | pace => obtain ⟨hf, hl⟩ := execPace_next.mp h; exact execPace_next.mpr ⟨hf, loopHead_setInputs os hl⟩
  | cancel => obtain rfl := execCancel_next.mp h; rfl
  | finalize => obtain ⟨hf, hn, rfl⟩ := execFinalize_next.mp h; exact execFinalize_next.mpr ⟨hf, hn, rfl⟩

/-- An instruction leaves the pending moves: with its own moves put in, it does what it did. -/
theorem exec_inputs {i : Instr} (h : exec i s = .next t) : t.inputs = s.inputs := by
  have hown : exec i s = .next (t.setInputs s.inputs) := exec_setInputs (s := s) s.inputs h
  have hsame : t = t.setInputs s.inputs := Host.Outcome.next.inj (h.symm.trans hown)
  calc t.inputs = (t.setInputs s.inputs).inputs := congrArg State.inputs hsame
    _ = s.inputs := rfl

/-! ### Between control steps (R104, R119) -/

theorem loopHead_work (h : loopHead s = .next t) : t.work = s.work := by
  rcases loopHead_next.mp h with ⟨-, rfl⟩ | ⟨-, -, rfl⟩ <;> rfl

theorem runDecode_idle {r : ScanRegs} (h : runDecode r s = .next t) : t.work = .idle := by
  rcases runDecode_next.mp h with ⟨-, hl⟩ | ⟨frame, -, rfl⟩
  · exact loopHead_work hl
  · rfl

/-- From between two control steps, every instruction leads to between two control steps (R46). -/
theorem exec_idle {i : Instr} (hw : s.work = .idle) (h : exec i s = .next t) : t.work = .idle := by
  cases i with
  | len lo hi => obtain ⟨r, hs, -⟩ := execLen_next.mp h; exact absurd (hs.symm.trans hw) nofun
  | termL hi => obtain ⟨r, hs, -⟩ := (execTermL_next (hi := hi)).mp h; exact absurd (hs.symm.trans hw) nofun
  | termH lo => obtain ⟨r, hs, -⟩ := (execTermH_next (lo := lo)).mp h; exact absurd (hs.symm.trans hw) nofun
  | pix r g b => obtain ⟨k, hs, -⟩ := execPix_next.mp h; exact absurd (hs.symm.trans hw) nofun
  | tail bytes => exact next_iff.mp h ▸ hw
  | dispatchCh c declared =>
    obtain ⟨cursor, hs, -⟩ | ⟨k, hs, -⟩ := execDispatchCh_next.mp h
    · exact absurd (hs.symm.trans hw) nofun
    · exact absurd (hs.symm.trans hw) nofun
  | copyPx c j q => obtain ⟨k, chb, hs, -⟩ := execCopyPx_next.mp h; exact absurd (hs.symm.trans hw) nofun
  | initReq => obtain ⟨-, rfl⟩ := execInitReq_next.mp h; exact hw
  | initOk => exact (loopHead_work (execInitOk_next.mp h).2).trans hw
  | initFail => obtain ⟨-, -, rfl⟩ := execInitFail_next.mp h; exact hw
  | rxData r bytes => obtain ⟨-, -, -, rfl⟩ := execRxData_next.mp h; exact hw
  | rxShort r bytes => obtain ⟨-, -, -, hl⟩ := execRxShort_next.mp h; exact (loopHead_work hl).trans hw
  | rxError r => obtain ⟨-, -, hl⟩ := execRxError_next.mp h; exact (loopHead_work hl).trans hw
  | decode =>
    obtain ⟨-, ⟨-, hr⟩ | ⟨r, -, hr⟩⟩ := execDecode_next.mp h
    · exact runDecode_idle hr
    · exact runDecode_idle hr
  | dispatch => obtain ⟨-, -, chb, -, rfl⟩ := execDispatch_next.mp h; rfl
  | renderOk => obtain ⟨-, rfl⟩ := execRenderOk_next.mp h; exact hw
  | renderFail => obtain ⟨-, -, rfl⟩ := execRenderFail_next.mp h; exact hw
  | pace => exact (loopHead_work (execPace_next.mp h).2).trans hw
  | cancel => obtain rfl := execCancel_next.mp h; exact hw
  | finalize => obtain ⟨-, -, rfl⟩ := execFinalize_next.mp h; exact hw

/-- The block takes its internal step where no move is due before it. -/
theorem step_internal (hw : s.work = .idle) {i : Instr} (hi : internalStep s = some i)
    (ho : ∀ o ∈ s.inputs.head?, o.before ≠ some s.fsm) : step s = exec i s :=
  step_run ((fetch_idle hw).trans (fetchControl_internal hi ho))

/-- The environment makes its next move where it is due, or where the block has no internal step. -/
theorem step_offer (hw : s.work = .idle) {o : Offer} {rest : List Offer} (hin : s.inputs = o :: rest)
    (h : o.before = some s.fsm ∨ internalStep s = none) (hd : inputOnDuty s.cfg o.input = true) :
    step s = exec (classifyInput o.input) (s.setInputs rest) := by
  refine step_run ((fetch_idle hw).trans ((fetchControl_offer hin h).trans ?_))
  rw [fetchOffer, if_pos hd]

/-- What a step between control steps has run: the internal step, with no move due before it, or the next move, with its
reason to be made now. -/
theorem step_idle_next (hw : s.work = .idle) (h : step s = .next u) :
    (∃ i, internalStep s = some i ∧ (∀ o ∈ s.inputs.head?, o.before ≠ some s.fsm) ∧ exec i s = .next u) ∨
    (∃ o rest, s.inputs = o :: rest ∧ (o.before = some s.fsm ∨ internalStep s = none) ∧
      inputOnDuty s.cfg o.input = true ∧ exec (classifyInput o.input) (s.setInputs rest) = .next u) := by
  by_cases hint : ∃ i, internalStep s = some i ∧ ∀ o ∈ s.inputs.head?, o.before ≠ some s.fsm
  · obtain ⟨i, hi, ho⟩ := hint
    exact .inl ⟨i, hi, ho, (step_internal hw hi ho).symm.trans h⟩
  · right
    obtain ⟨i, v, hf, hexec⟩ := step_next h
    rw [fetch_idle hw] at hf
    cases hin : s.inputs with
    | nil =>
      rcases fetchControl_run hf with ⟨hi, -⟩ | ⟨o, rest, hne, -⟩
      · exact absurd ⟨i, hi, by simp [hin]⟩ hint
      · exact absurd (hin.symm.trans hne) nofun
    | cons o rest =>
      have hnow : o.before = some s.fsm ∨ internalStep s = none := by
        by_contra hc
        obtain ⟨hb, hs⟩ := not_or.mp hc
        obtain ⟨j, hj⟩ := Option.ne_none_iff_exists'.mp hs
        exact hint ⟨j, hj, by simpa [hin] using hb⟩
      rw [fetchControl_offer hin hnow, fetchOffer] at hf
      split at hf
      · next hd =>
        obtain ⟨rfl, rfl⟩ := Fetched.run.inj hf
        exact ⟨o, rest, rfl, hnow, hd, hexec⟩
      · exact absurd hf nofun

/-! ### Internal steps come to each state at most once (log 5) -/

/-- How many internal steps the block can make at most until it waits for a move or has ended (R104). -/
def internalLeft : Fsm → Nat
  | .decoding => 2
  | .pacedIdle => 2
  | .init => 1
  | .dispatching => 1
  | .shutdown => 1
  | .initWait => 0
  | .waitingForPacket => 0
  | .rendering => 0
  | .halted => 0

theorem loopHead_left (h : loopHead s = .next t) : internalLeft t.fsm < 2 := by
  rcases loopHead_next.mp h with ⟨-, rfl⟩ | ⟨-, -, rfl⟩
  · exact Nat.zero_lt_two
  · exact Nat.one_lt_two

theorem runDecode_left {r : ScanRegs} (h : runDecode r s = .next t) : internalLeft t.fsm < 2 := by
  rcases runDecode_next.mp h with ⟨-, hl⟩ | ⟨frame, -, rfl⟩
  · exact loopHead_left hl
  · exact Nat.one_lt_two

/-- The internal steps, by their `From` states. -/
theorem internalStep_cases {i : Instr} (h : internalStep s = some i) :
    i = .initReq ∨ i = .decode ∨ i = .dispatch ∨ i = .pace ∨ i = .finalize := by
  unfold internalStep at h
  split at h
  case h_5 => split_ifs at h; simp [← Option.some.inj h]
  all_goals simp_all

/-- An internal step brings the block nearer to its next wait or its end. -/
theorem internalStep_left {i : Instr} (hi : internalStep s = some i) (h : exec i s = .next t) :
    internalLeft t.fsm < internalLeft s.fsm := by
  rcases internalStep_cases hi with rfl | rfl | rfl | rfl | rfl
  · obtain ⟨hf, rfl⟩ := execInitReq_next.mp h
    rw [hf]
    exact Nat.zero_lt_one
  · obtain ⟨hf, ⟨-, hr⟩ | ⟨r, -, hr⟩⟩ := execDecode_next.mp h
    · exact hf ▸ runDecode_left hr
    · exact hf ▸ runDecode_left hr
  · obtain ⟨hf, -, chb, -, rfl⟩ := execDispatch_next.mp h
    rw [hf]
    exact Nat.zero_lt_one
  · obtain ⟨hf, hl⟩ := execPace_next.mp h
    exact hf ▸ loopHead_left hl
  · obtain ⟨hf, -, rfl⟩ := execFinalize_next.mp h
    rw [hf]
    exact Nat.zero_lt_one

/-! ### A CANCEL put into the moves of a run (R53, R119) -/

/-- A `CANCEL` made in the state `f` of the control loop, before its internal step. -/
def cancelAt (f : Fsm) : Offer := ⟨.cancel, some f⟩

/-- A `CANCEL` that names the state where the block stands is the next step. -/
theorem step_cancelAt (hw : s.work = .idle) (rest : List Offer) :
    step (s.setInputs (cancelAt s.fsm :: rest)) = exec .cancel (s.setInputs rest) :=
  step_offer (s := s.setInputs (cancelAt s.fsm :: rest)) hw rfl (.inl rfl) rfl

/-- A move put behind the moves `taken` is not due yet, if it names another state wherever it stands first. -/
theorem head_not_due {taken rest : List Offer} {o : Offer} {f : Fsm}
    (hhead : ∀ x ∈ (taken ++ rest).head?, x.before ≠ some f) (ho : taken = [] → o.before ≠ some f) :
    ∀ x ∈ (taken ++ o :: rest).head?, x.before ≠ some f := by
  cases taken with
  | nil => simpa using ho rfl
  | cons a as => simpa using hhead

/-- A run of one step or more that answers a next state is a step and a run. -/
theorem runSteps_succ_next {k : Nat} (h : runSteps (k + 1) s = .next t) :
    ∃ u, step s = .next u ∧ runSteps k u = .next t := by
  rw [runSteps_succ] at h
  split at h
  · next u hu => exact ⟨u, hu, h⟩
  · exact absurd h nofun
  · exact absurd h nofun

/-- The run's own moves with a `CANCEL` put behind those it takes lead to the same state and then take the `CANCEL`. A run that
takes no move makes internal steps only. -/
theorem run_then_cancel (n : Nat) (hw : s.work = .idle) (h : runSteps n s = .next t) :
    ∃ taken, s.inputs = taken ++ t.inputs ∧ (taken = [] → internalLeft t.fsm ≤ internalLeft s.fsm) ∧
      runSteps (n + 1) (s.setInputs (taken ++ cancelAt t.fsm :: t.inputs)) = exec .cancel t := by
  induction n generalizing s with
  | zero =>
    obtain rfl := Host.Outcome.next.inj h
    exact ⟨[], rfl, fun _ => Nat.le_refl _, runSteps_next 0 (step_cancelAt hw s.inputs)⟩
  | succ k ih =>
    obtain ⟨u, hu, hrun⟩ := runSteps_succ_next h
    rcases step_idle_next hw hu with ⟨i, hi, hhead, hexec⟩ | ⟨o, rest, hin, hnow, hd, hexec⟩
    · obtain ⟨taken, hmoves, hleft, hcancel⟩ := ih (exec_idle hw hexec) hrun
      rw [exec_inputs hexec] at hmoves
      have hlt : internalLeft u.fsm < internalLeft s.fsm := internalStep_left hi hexec
      have hother : taken = [] → (cancelAt t.fsm).before ≠ some s.fsm := by
        intro hnil hsame
        have hts : t.fsm = s.fsm := Option.some.inj hsame
        exact Nat.not_lt.mpr (hleft hnil) (hts ▸ hlt)
      refine ⟨taken, hmoves, fun hnil => (hleft hnil).trans hlt.le, ?_⟩
      have hsame := step_internal (s := s.setInputs (taken ++ cancelAt t.fsm :: t.inputs)) hw hi
        (head_not_due (hmoves ▸ hhead) hother)
      rw [runSteps_next (k + 1) (hsame.trans (exec_setInputs _ hexec))]
      exact hcancel
    · obtain ⟨taken, hmoves, -, hcancel⟩ := ih (exec_idle (s := s.setInputs rest) hw hexec) hrun
      have hrest : rest = taken ++ t.inputs := (exec_inputs hexec).symm.trans hmoves
      refine ⟨o :: taken, by rw [hin, hrest, List.cons_append], nofun, ?_⟩
      have hsame := step_offer (s := s.setInputs (o :: taken ++ cancelAt t.fsm :: t.inputs)) hw rfl hnow hd
      rw [runSteps_next (k + 1) (hsame.trans (exec_setInputs (s := s.setInputs rest) _ hexec))]
      exact hcancel

/-- Settles O60 by `run_then_cancel`, an induction over the run. -/
theorem cancelBetweenAnyTwoSteps : Obligations.CancelBetweenAnyTwoSteps := by
  intro n s t hw hrun
  obtain ⟨taken, hmoves, -, hcancel⟩ := run_then_cancel n hw hrun
  exact ⟨taken, hmoves, hcancel⟩

end Sys2Proof.Proofs.CancelPlace
end

section
/-! 30_encoding.md, the forms of one element: the pair's value (R59), its classes (R60), the pixel word (R65), the class of a receive
result (R67) and the bytes of a port event (R72, log 11), up to the round trip of each instruction. -/

namespace Sys2Proof.Proofs.Encoding

open Sys2Proof.Machine

/-! ### What well-formedness asks of an instruction with operands (R60, R66, R67, R121) -/

theorem lengthByte_iff {b : Byte} : lengthByte b = true ↔ b ≠ 0xFF := by
  simp [lengthByte, sentinel]

theorem len_wellFormed_iff {p : Params} {lo hi : Byte} :
    (Instr.len lo hi).wellFormed p = true ↔ lo ≠ 0xFF ∧ hi ≠ 0xFF := by
  simp [Instr.wellFormed, lengthByte_iff]

theorem termH_wellFormed_iff {p : Params} {lo : Byte} : (Instr.termH lo).wellFormed p = true ↔ lo ≠ 0xFF := by
  simp [Instr.wellFormed, lengthByte_iff]

theorem tail_wellFormed_iff {p : Params} {bytes : List Byte} :
    (Instr.tail bytes).wellFormed p = true ↔ bytes.length ≤ 2 := by
  simp [Instr.wellFormed]

theorem rxDuty_iff {p : Params} {r : Int} {bytes : List Byte} :
    rxDuty p r bytes = true ↔ bytes.length = r.toNat ∧ r.toNat ≤ p.messageSize := by
  simp [rxDuty]

theorem rxData_wellFormed_iff {p : Params} {r : Int} {bytes : List Byte} :
    (Instr.rxData r bytes).wellFormed p = true ↔ 4 ≤ r ∧ bytes.length = r.toNat ∧ r.toNat ≤ p.messageSize := by
  simp [Instr.wellFormed, rxDuty_iff]

theorem rxShort_wellFormed_iff {p : Params} {r : Int} {bytes : List Byte} :
    (Instr.rxShort r bytes).wellFormed p = true ↔
      (0 ≤ r ∧ r ≤ 3) ∧ bytes.length = r.toNat ∧ r.toNat ≤ p.messageSize := by
  simp [Instr.wellFormed, rxDuty_iff]

theorem rxError_wellFormed_iff {p : Params} {r : Int} : (Instr.rxError r).wellFormed p = true ↔ r < 0 := by
  simp [Instr.wellFormed]

/-! ### The value of a header pair (R59) -/

theorem pairValue_eq_append (lo hi : Byte) : pairValue lo hi = hi ++ lo := by
  rw [pairValue, BitVec.append_def, BitVec.shiftLeftZeroExtend_eq, BitVec.setWidth'_eq, BitVec.or_comm]

theorem pairValue_toNat (lo hi : Byte) : (pairValue lo hi).toNat = lo.toNat + 256 * hi.toNat := by
  rw [pairValue_eq_append, BitVec.toNat_append, ← Nat.shiftLeft_add_eq_or_of_lt lo.isLt, Nat.shiftLeft_eq]
  omega

/-- Settles O6: the value is the two bytes side by side, and the pair lies inside the datagram. -/
theorem pairValueLittleEndian : Obligations.PairValueLittleEndian :=
  ⟨pairValue_toNat, fun _ _ _ h => readPair_inside h⟩

/-- The mask `0x00FF` of R60 keeps the first byte alone. -/
theorem pairValue_and_low (lo hi : Byte) : pairValue lo hi &&& 0x00FF = (0 : Byte) ++ lo := by
  have mask : (0x00FF : HalfWord) = (0 : Byte) ++ BitVec.allOnes 8 := rfl
  rw [pairValue_eq_append, mask, BitVec.and_append, BitVec.and_allOnes]
  simp

/-- The mask `0xFF00` of R60 keeps the second byte alone. -/
theorem pairValue_and_high (lo hi : Byte) : pairValue lo hi &&& 0xFF00 = hi ++ (0 : Byte) := by
  have mask : (0xFF00 : HalfWord) = BitVec.allOnes 8 ++ (0 : Byte) := rfl
  rw [pairValue_eq_append, mask, BitVec.and_append, BitVec.and_allOnes]
  simp

theorem pairValue_low_mask (lo hi : Byte) : pairValue lo hi &&& 0x00FF = 0x00FF ↔ lo = 0xFF := by
  rw [pairValue_and_low]
  exact BitVec.append_right_inj (t₁ := lo) (t₂ := 0xFF) (0 : Byte)

theorem pairValue_high_mask (lo hi : Byte) : pairValue lo hi &&& 0xFF00 = 0xFF00 ↔ hi = 0xFF := by
  rw [pairValue_and_high]
  exact BitVec.append_left_inj (s₁ := hi) (s₂ := 0xFF) (0 : Byte)

/-! ### The classes of a header pair (R60) -/

theorem classifyPair_termL {lo : Byte} (hlo : lo = 0xFF) (hi : Byte) : classifyPair lo hi = .termL hi := if_pos hlo

theorem classifyPair_termH {lo hi : Byte} (hlo : lo ≠ 0xFF) (hhi : hi = 0xFF) : classifyPair lo hi = .termH lo := by
  rw [classifyPair, if_neg hlo, if_pos hhi]

theorem classifyPair_len {lo hi : Byte} (hlo : lo ≠ 0xFF) (hhi : hi ≠ 0xFF) : classifyPair lo hi = .len lo hi := by
  rw [classifyPair, if_neg hlo, if_neg hhi]

/-- Neither terminator's effect reads the byte that is not the sentinel (R62, R80, R81). -/
theorem exec_termL_eq_termH (lo hi : Byte) (s : State) : exec (.termL hi) s = exec (.termH lo) s := rfl

/-- Settles O3: each mask keeps one byte of the value, and no terminator's effect reads its byte. -/
theorem headerPairClasses : Obligations.HeaderPairClasses := fun lo hi =>
  ⟨fun hlo => classifyPair_termL hlo hi, classifyPair_termH, classifyPair_len,
    pairValue_low_mask lo hi, pairValue_high_mask lo hi, exec_termL_eq_termH lo hi⟩

/-- A pair's element has the pair's own bytes, whatever its class. -/
theorem encode_classifyPair (lo hi : Byte) : encode (classifyPair lo hi) = some [lo, hi] := by
  by_cases hlo : lo = 0xFF
  · rw [classifyPair_termL hlo, hlo, encode]
  · by_cases hhi : hi = 0xFF
    · rw [classifyPair_termH hlo hhi, hhi, encode]
    · rw [classifyPair_len hlo hhi, encode]

theorem classifyPair_wellFormed (p : Params) (lo hi : Byte) : (classifyPair lo hi).wellFormed p = true := by
  by_cases hlo : lo = 0xFF
  · rw [classifyPair_termL hlo, Instr.wellFormed]
  · by_cases hhi : hi = 0xFF
    · rw [classifyPair_termH hlo hhi, termH_wellFormed_iff]
      exact hlo
    · rw [classifyPair_len hlo hhi, len_wellFormed_iff]
      exact ⟨hlo, hhi⟩

/-! ### The pixel word (R65) -/

/-- A byte shifted to lane `j` of a word fills that lane and leaves the others zero. -/
theorem shiftedByte_lane (x : Byte) {j k : Nat} (hk : k < 4) :
    (x.setWidth 32 <<< (8 * j)).extractLsb' (8 * k) 8 = if k = j then x else 0 := by
  ext i hi
  split
  · next hkj =>
    subst hkj
    simp [show 8 * k + i < 32 by omega, BitVec.getLsbD_eq_getElem hi]
  · next hkj =>
    rcases Nat.lt_or_gt_of_ne hkj with hlt | hgt
    · simp [show 8 * k + i < 8 * j by omega]
    · simp [BitVec.getLsbD_of_ge x (8 * k + i - 8 * j) (by omega)]

/-- The four lanes of the pixel word: `b`, `g`, `r` and zero. -/
theorem pixelWord_lane (r g b : Byte) {k : Nat} (hk : k < 4) :
    (pixelWord r g b).extractLsb' (8 * k) 8 =
      (if k = 2 then r else 0) ||| (if k = 1 then g else 0) ||| (if k = 0 then b else 0) := by
  have unshifted : b.setWidth 32 = b.setWidth 32 <<< (8 * 0) := (BitVec.shiftLeft_zero _).symm
  rw [pixelWord, unshifted, BitVec.extractLsb'_or, BitVec.extractLsb'_or,
    ← shiftedByte_lane r hk, ← shiftedByte_lane g hk, ← shiftedByte_lane b hk]

theorem decode_triple (r g b : Byte) (rest : List Byte) :
    decode .payload (r :: g :: b :: rest) = .ok (.pix r g b, rest) := rfl

/-- Settles O7: the fields are the lanes 2, 1, 0 and 3 of `pixelWord_lane`. -/
theorem pixelWordFields : Obligations.PixelWordFields := fun r g b =>
  ⟨by simpa using pixelWord_lane r g b (k := 2) (by decide), by simpa using pixelWord_lane r g b (k := 1) (by decide),
    by simpa using pixelWord_lane r g b (k := 0) (by decide), by simpa using pixelWord_lane r g b (k := 3) (by decide),
    decode_triple r g b⟩

/-! ### The class of a receive result (R67) -/

theorem classifyInput_rxError {r : Int} (h : r < 0) (bytes : List Byte) :
    classifyInput (.rx r bytes) = .rxError r := if_pos h

theorem classifyInput_rxShort {r : Int} (h0 : 0 ≤ r) (h3 : r ≤ 3) (bytes : List Byte) :
    classifyInput (.rx r bytes) = .rxShort r bytes := by
  rw [classifyInput, if_neg (by omega), if_pos (by omega)]

theorem classifyInput_rxData {r : Int} (h : 4 ≤ r) (bytes : List Byte) :
    classifyInput (.rx r bytes) = .rxData r bytes := by
  rw [classifyInput, if_neg (by omega), if_neg (by omega)]

/-- What the socket delivers of a datagram keeps its duties (R47, R121). -/
theorem socketDeliver_onDuty (p : Params) (datagram : List Byte) : inputOnDuty p (socketDeliver p datagram) = true :=
  dutyKept_iff.mpr ⟨rfl, List.length_take_le _ _⟩

/-- Settles O4: the classes by the two thresholds of R67, and the socket's truncation. -/
theorem receiveResultClasses : Obligations.ReceiveResultClasses :=
  ⟨fun _ bytes => ⟨fun h => classifyInput_rxError h bytes, fun h => classifyInput_rxShort h.1 h.2 bytes,
    fun h => classifyInput_rxData h bytes⟩, socketDeliver_onDuty⟩

/-! ### The bytes of a receive result (R72, log 11) -/

theorem le32Value_extract (v : BitVec 32) :
    le32Value (v.extractLsb' 0 8) (v.extractLsb' 8 8) (v.extractLsb' 16 8) (v.extractLsb' 24 8) = v := by
  have upperTwo : v.extractLsb' 24 8 ++ v.extractLsb' 16 8 = v.extractLsb' 16 16 :=
    BitVec.extractLsb'_append_extractLsb'_eq_extractLsb' rfl
  have upperThree : v.extractLsb' 16 16 ++ v.extractLsb' 8 8 = v.extractLsb' 8 24 :=
    BitVec.extractLsb'_append_extractLsb'_eq_extractLsb' rfl
  rw [le32Value, upperTwo, upperThree]
  exact BitVec.extractLsb'_append_extractLsb' (len := 8) (w := 24)

theorem toInt_ofInt_of_resultFits {r : Int} (h : resultFits r = true) : (BitVec.ofInt 32 r).toInt = r := by
  obtain ⟨hlow, hhigh⟩ : -2147483648 ≤ r ∧ r < 2147483648 := by simpa [resultFits] using h
  exact BitVec.toInt_ofInt_eq_self (by decide) hlow hhigh

/-- The decoder's own test on a result's bytes, with `r` already assembled. -/
theorem decodeResult_le32Bytes (v : BitVec 32) (rest : List Byte) :
    decodeResult (le32Bytes v ++ rest) =
      if rest.length < v.toInt.toNat then .error .resultTooShort
      else .ok (classifyInput (.rx v.toInt (rest.take v.toInt.toNat)), rest.drop v.toInt.toNat) := by
  show decodeResult (v.extractLsb' 0 8 :: v.extractLsb' 8 8 :: v.extractLsb' 16 8 :: v.extractLsb' 24 8 :: rest) = _
  rw [decodeResult, le32Value_extract]

/-- A result that 32 bits carry, with exactly `max(r, 0)` bytes, is read back as the input it was. -/
theorem decode_encodeResult {r : Int} {bytes : List Byte} (hr : resultFits r = true) (hlen : bytes.length = r.toNat)
    (rest : List Byte) : decode .port (encodeResult r bytes ++ rest) = .ok (classifyInput (.rx r bytes), rest) := by
  have hevent : decode .port (encodeResult r bytes ++ rest) =
      decodeResult (le32Bytes (BitVec.ofInt 32 r) ++ (bytes ++ rest)) := rfl
  rw [hevent, decodeResult_le32Bytes, toInt_ofInt_of_resultFits hr, ← hlen, if_neg (by simp), List.take_left,
    List.drop_left]

/-! ### Every instruction's round trip -/

/-- The header decoder classes the first two bytes. -/
theorem decode_pair (lo hi : Byte) (rest : List Byte) :
    decode .header (lo :: hi :: rest) = .ok (classifyPair lo hi, rest) := rfl

theorem decode_tail {bytes : List Byte} (h : bytes.length ≤ 2) : decode .tail bytes = .ok (.tail bytes, []) := if_pos h

/-- Outside the tail, an element's bytes are read back as the element, whatever follows them. -/
theorem decode_encode {p : Params} {i : Instr} {bs : List Byte} (rest : List Byte) (hw : i.wellFormed p = true)
    (hc : encodable i = true) (ht : i.stream ≠ .tail) (he : encode i = some bs) :
    decode i.stream (bs ++ rest) = .ok (i, rest) := by
  cases i with
  | len lo hi =>
    obtain rfl := Option.some.inj he
    obtain ⟨hlo, hhi⟩ := len_wellFormed_iff.mp hw
    exact (decode_pair lo hi rest).trans (by rw [classifyPair_len hlo hhi])
  | termL hi =>
    obtain rfl := Option.some.inj he
    exact decode_pair 0xFF hi rest
  | termH lo =>
    obtain rfl := Option.some.inj he
    exact (decode_pair lo 0xFF rest).trans (by rw [classifyPair_termH (termH_wellFormed_iff.mp hw) rfl])
  | pix r g b =>
    obtain rfl := Option.some.inj he
    exact decode_triple r g b rest
  | tail bytes => exact absurd rfl ht
  | rxData r bytes =>
    obtain rfl := Option.some.inj he
    obtain ⟨h4, hlen, -⟩ := rxData_wellFormed_iff.mp hw
    exact (decode_encodeResult hc hlen rest).trans (by rw [classifyInput_rxData h4])
  | rxShort r bytes =>
    obtain rfl := Option.some.inj he
    obtain ⟨⟨h0, h3⟩, hlen, -⟩ := rxShort_wellFormed_iff.mp hw
    exact (decode_encodeResult hc hlen rest).trans (by rw [classifyInput_rxShort h0 h3])
  | rxError r =>
    obtain rfl := Option.some.inj he
    have hneg := rxError_wellFormed_iff.mp hw
    have hlen : ([] : List Byte).length = r.toNat := (Int.toNat_of_nonpos hneg.le).symm
    exact (decode_encodeResult hc hlen rest).trans (by rw [classifyInput_rxError hneg])
  | initReq | initOk | initFail | dispatch | renderOk | renderFail | cancel | finalize =>
    obtain rfl := Option.some.inj he
    rfl
  | dispatchCh _ _ | copyPx _ _ _ | decode | pace => nomatch he

/-- Settles O1: `decode_encode`, and a tail is all that is left. -/
theorem decodeOfEncode : Obligations.DecodeOfEncode :=
  ⟨fun _ _ _ rest hw hc ht he => decode_encode rest hw hc ht he,
    fun _ _ hw => ⟨rfl, decode_tail (tail_wellFormed_iff.mp hw)⟩⟩

/-- Settles O5: each line evaluates the decoder on one fixed word. -/
theorem decodedWords : Obligations.DecodedWords :=
  ⟨rfl, rfl, rfl, rfl, rfl, rfl, rfl, rfl, rfl, rfl, rfl, rfl, rfl, rfl, rfl⟩

end Sys2Proof.Proofs.Encoding
end

section
/-! 30_encoding.md R58, R63, R66: the wire elements of a whole datagram. Their bytes in order are the datagram (R69), and the header
scan (40_decoder.md R78) reads the header elements, so the decoded frame counts them (`elements_scanned`). -/

namespace Sys2Proof.Proofs.Elements

open Sys2Proof.Machine Sys2Proof.Proofs.Encoding

/-! ### The header's elements, one equation for each way the scan goes on (R63) -/

theorem headerElements_stop {lo hi : Byte} (h : lo = 0xFF ∨ hi = 0xFF) (rest : List Byte) :
    headerElements (lo :: hi :: rest) = ([classifyPair lo hi], rest) := by
  rw [headerElements, if_pos h]

theorem headerElements_go {lo hi : Byte} (h : ¬ (lo = 0xFF ∨ hi = 0xFF)) (rest : List Byte) :
    headerElements (lo :: hi :: rest) = (classifyPair lo hi :: (headerElements rest).1, (headerElements rest).2) := by
  rw [headerElements, if_neg h]

theorem headerElements_end {bytes : List Byte} (h : bytes.length < 2) : headerElements bytes = ([], bytes) := by
  match bytes with
  | [] => rfl
  | [_] => rfl
  | _ :: _ :: _ => simp at h

/-- Without a whole pair less than two bytes are left. -/
theorem length_lt_of_no_pair {bytes : List Byte} (h : ∀ lo hi rest, bytes = lo :: hi :: rest → False) :
    bytes.length < 2 := by
  match bytes, h with
  | [], _ => simp
  | [_], _ => simp
  | lo :: hi :: rest, h => exact (h lo hi rest rfl).elim

/-! ### The payload's elements: a triple, or the tail (R66) -/

theorem payloadElements_triple (r g b : Byte) (rest : List Byte) :
    payloadElements (r :: g :: b :: rest) = .pix r g b :: payloadElements rest := rfl

theorem payloadElements_tail {bytes : List Byte} (h : bytes.length ≤ 2) : payloadElements bytes = [.tail bytes] := by
  match bytes with
  | [] => rfl
  | [_] => rfl
  | [_, _] => rfl
  | _ :: _ :: _ :: _ => simp at h

/-- Without a whole triple at most two bytes are left. -/
theorem length_le_of_no_triple {bytes : List Byte} (h : ∀ r g b rest, bytes = r :: g :: b :: rest → False) :
    bytes.length ≤ 2 := by
  match bytes, h with
  | [], _ => simp
  | [_], _ => simp
  | [_, _], _ => simp
  | r :: g :: b :: rest, h => exact (h r g b rest rfl).elim

/-! ### No byte lost (R58, R69) -/

/-- The bytes of a list of elements, in order. -/
def wireBytes (is : List Instr) : List Byte := (is.map fun i => (encode i).getD []).flatten

@[simp] theorem wireBytes_nil : wireBytes [] = [] := rfl

@[simp] theorem wireBytes_cons (i : Instr) (is : List Instr) :
    wireBytes (i :: is) = (encode i).getD [] ++ wireBytes is := rfl

@[simp] theorem wireBytes_append (is js : List Instr) : wireBytes (is ++ js) = wireBytes is ++ wireBytes js := by
  simp [wireBytes]

/-- The header's elements and what follows them hold every byte. -/
theorem headerElements_bytes (bytes : List Byte) :
    wireBytes (headerElements bytes).1 ++ (headerElements bytes).2 = bytes := by
  induction bytes using headerElements.induct with
  | case1 lo hi rest hstop => simp [headerElements_stop hstop, encode_classifyPair]
  | case2 lo hi rest hgo more after _ ih => simp [headerElements_go hgo, encode_classifyPair, ih]
  | case3 bytes hend => simp [headerElements_end (length_lt_of_no_pair hend)]

theorem payloadElements_bytes (bytes : List Byte) : wireBytes (payloadElements bytes) = bytes := by
  induction bytes using payloadElements.induct with
  | case1 r g b rest ih => simp [payloadElements_triple, encode, ih]
  | case2 bytes hend => simp [payloadElements_tail (length_le_of_no_triple hend), encode]

theorem elements_eq (datagram : List Byte) :
    elements datagram = (headerElements datagram).1 ++ payloadElements (headerElements datagram).2 := rfl

theorem elements_bytes (datagram : List Byte) : wireBytes (elements datagram) = datagram := by
  rw [elements_eq, wireBytes_append, payloadElements_bytes, headerElements_bytes]

/-! ### Which elements stand where -/

/-- Every header element is the class of some pair. -/
theorem mem_headerElements {bytes : List Byte} {i : Instr} (h : i ∈ (headerElements bytes).1) :
    ∃ lo hi, i = classifyPair lo hi := by
  induction bytes using headerElements.induct with
  | case1 lo hi rest hstop =>
    rw [headerElements_stop hstop] at h
    exact ⟨lo, hi, List.mem_singleton.mp h⟩
  | case2 lo hi rest hgo more after _ ih =>
    rw [headerElements_go hgo] at h
    rcases List.mem_cons.mp h with rfl | h
    · exact ⟨lo, hi, rfl⟩
    · exact ih h
  | case3 bytes hend =>
    rw [headerElements_end (length_lt_of_no_pair hend)] at h
    exact absurd h List.not_mem_nil

/-- Every payload element is a triple, or a tail of at most two bytes (R66). -/
theorem mem_payloadElements {bytes : List Byte} {i : Instr} (h : i ∈ payloadElements bytes) :
    (∃ r g b, i = .pix r g b) ∨ ∃ rest, i = .tail rest ∧ rest.length ≤ 2 := by
  induction bytes using payloadElements.induct with
  | case1 r g b rest ih =>
    rcases List.mem_cons.mp h with rfl | h
    · exact .inl ⟨r, g, b, rfl⟩
    · exact ih h
  | case2 bytes hend =>
    have hlen := length_le_of_no_triple hend
    rw [payloadElements_tail hlen] at h
    exact .inr ⟨bytes, List.mem_singleton.mp h, hlen⟩

theorem elements_wellFormed (p : Params) {datagram : List Byte} {i : Instr} (h : i ∈ elements datagram) :
    i.wellFormed p = true := by
  rcases List.mem_append.mp (elements_eq datagram ▸ h) with h | h
  · obtain ⟨lo, hi, rfl⟩ := mem_headerElements h
    exact classifyPair_wellFormed p lo hi
  · obtain ⟨r, g, b, rfl⟩ | ⟨rest, rfl, hlen⟩ := mem_payloadElements h
    · rfl
    · exact tail_wellFormed_iff.mpr hlen

/-- Settles O2: inductions over the header and over the payload. -/
theorem datagramElementsRoundTrip : Obligations.DatagramElementsRoundTrip := fun p datagram =>
  ⟨elements_bytes datagram, fun _ h => elements_wellFormed p h⟩

/-! ### What is counted in a payload -/

section Payload

variable (bytes : List Byte)

theorem payloadElements_no_len : (payloadElements bytes).countP isLen = 0 :=
  List.countP_eq_zero.mpr fun i h => by
    obtain ⟨r, g, b, rfl⟩ | ⟨rest, rfl, -⟩ := mem_payloadElements h <;> simp [isLen]

theorem payloadElements_no_terminator : (payloadElements bytes).any isTerminator = false :=
  List.any_eq_false.mpr fun i h => by
    obtain ⟨r, g, b, rfl⟩ | ⟨rest, rfl, -⟩ := mem_payloadElements h <;> simp [isTerminator]

theorem payloadElements_no_length : (payloadElements bytes).filterMap declaredLength = [] :=
  List.filterMap_eq_nil_iff.mpr fun i h => by
    obtain ⟨r, g, b, rfl⟩ | ⟨rest, rfl, -⟩ := mem_payloadElements h <;> rfl

/-- The payload has as many triples as fit (R84). -/
theorem payloadElements_pixels : (payloadElements bytes).countP isPixel = bytes.length / 3 := by
  induction bytes using payloadElements.induct with
  | case1 r g b rest ih =>
    rw [payloadElements_triple, List.countP_cons_of_pos rfl, ih]
    simp only [List.length_cons]
    omega
  | case2 bytes hend =>
    have hlen := length_le_of_no_triple hend
    rw [payloadElements_tail hlen, Nat.div_eq_of_lt (by omega)]
    rfl

end Payload

/-! ### What the scan passes, as elements (R78)

A scan that has passed the pairs before `c` stands before the bytes from `2c` on; `Scanned` says which pairs those are. -/

/-- The bytes of a datagram of `n` bytes from address `a` on. -/
def bytesFrom (buf : Memory) (n a : Nat) : List Byte := (List.range' a (n - a)).map buf.read

@[simp] theorem length_bytesFrom (buf : Memory) (n a : Nat) : (bytesFrom buf n a).length = n - a := by
  simp [bytesFrom]

theorem bytesFrom_zero (buf : Memory) (n : Nat) : bytesFrom buf n 0 = (List.range n).map buf.read := by
  rw [bytesFrom, List.range_eq_range', Nat.sub_zero]

theorem bytesFrom_pair {buf : Memory} {n c : Nat} (h : 2 * c + 2 ≤ n) :
    bytesFrom buf n (2 * c) = buf.read (2 * c) :: buf.read (2 * c + 1) :: bytesFrom buf n (2 * (c + 1)) := by
  have hlen : n - 2 * c = (n - 2 * (c + 1)) + 1 + 1 := by omega
  rw [bytesFrom, hlen, List.range'_succ, List.range'_succ]
  rfl

/-- The length field at `2c`. -/
def lenAt (buf : Memory) (c : Nat) : Instr := .len (buf.read (2 * c)) (buf.read (2 * c + 1))

@[simp] theorem isLen_lenAt (buf : Memory) (c : Nat) : isLen (lenAt buf c) = true := rfl
@[simp] theorem isTerminator_lenAt (buf : Memory) (c : Nat) : isTerminator (lenAt buf c) = false := rfl
@[simp] theorem isPixel_lenAt (buf : Memory) (c : Nat) : isPixel (lenAt buf c) = false := rfl
@[simp] theorem declaredLength_lenAt (buf : Memory) (c : Nat) : declaredLength (lenAt buf c) = some (pairAt buf c) := rfl

/-- A pair without the sentinel is a length field, and the header goes on after it. -/
theorem headerElements_passes {buf : Memory} {n c : Nat} (hin : 2 * c + 2 ≤ n) (hs : ¬ sentinelAt buf c) :
    headerElements (bytesFrom buf n (2 * c)) =
      (lenAt buf c :: (headerElements (bytesFrom buf n (2 * (c + 1)))).1,
        (headerElements (bytesFrom buf n (2 * (c + 1)))).2) := by
  rw [bytesFrom_pair hin, headerElements_go hs, classifyPair_len (fun hlo => hs (.inl hlo)) (fun hhi => hs (.inr hhi)),
    lenAt]

/-- The terminator that stopped a scan, if one did. -/
def terminatorOf (buf : Memory) (last : ScanRegs) : List Instr :=
  if last.terminated then [classifyPair (buf.read (2 * last.c)) (buf.read (2 * last.c + 1))] else []

theorem terminatorOf_unterminated {last : ScanRegs} (h : last.terminated = false) (buf : Memory) :
    terminatorOf buf last = [] := if_neg (by simp [h])

theorem terminatorOf_terminated {last : ScanRegs} (h : last.terminated = true) (buf : Memory) :
    terminatorOf buf last = [classifyPair (buf.read (2 * last.c)) (buf.read (2 * last.c + 1))] := if_pos h

section Scan

variable {maxCh n : Nat} {buf : Memory} {last : ScanRegs} (h : Scanned maxCh buf n last)

include h

/-- Where the scan ends: at a terminator, or before less than a whole pair (R63). -/
theorem headerElements_last :
    headerElements (bytesFrom buf n (2 * last.c)) = (terminatorOf buf last, bytesFrom buf n (payloadOffset last)) := by
  cases ht : last.terminated with
  | false =>
    have hend : (bytesFrom buf n (2 * last.c)).length < 2 := by
      have := h.unterminated ht
      rw [length_bytesFrom]
      omega
    simp [headerElements_end hend, terminatorOf_unterminated ht, payloadOffset, ht]
  | true =>
    obtain ⟨hin, hs⟩ := h.terminated ht
    rw [bytesFrom_pair hin, headerElements_stop hs]
    simp [terminatorOf_terminated ht, payloadOffset, ht]

/-- From `c` on the header's elements are the lengths up to the scan's end, then its terminator: induction on the number of
pairs still to pass. -/
theorem headerElements_from {c k : Nat} (hk : c + k = last.c) :
    headerElements (bytesFrom buf n (2 * c)) =
      ((List.range' c k).map (lenAt buf) ++ terminatorOf buf last, bytesFrom buf n (payloadOffset last)) := by
  induction k generalizing c with
  | zero =>
    obtain rfl : c = last.c := hk
    exact headerElements_last h
  | succ k ih =>
    obtain ⟨hin, hs⟩ := h.passed c (by omega)
    rw [headerElements_passes hin hs, ih (by omega), List.range'_succ]
    rfl

/-- The header of a scanned datagram: a length field for each pair passed, then the terminator. -/
theorem headerElements_scanned :
    headerElements ((List.range n).map buf.read) =
      ((List.range last.c).map (lenAt buf) ++ terminatorOf buf last, bytesFrom buf n (payloadOffset last)) := by
  rw [← bytesFrom_zero, List.range_eq_range']
  exact headerElements_from h (Nat.zero_add last.c)

theorem elements_scanned :
    elements ((List.range n).map buf.read) =
      (List.range last.c).map (lenAt buf) ++ terminatorOf buf last ++
        payloadElements (bytesFrom buf n (payloadOffset last)) := by
  rw [elements_eq, headerElements_scanned h]

theorem mem_terminatorOf {i : Instr} (hi : i ∈ terminatorOf buf last) :
    (∃ b, i = .termL b) ∨ ∃ b, i = .termH b := by
  cases ht : last.terminated with
  | false =>
    rw [terminatorOf_unterminated ht] at hi
    exact absurd hi List.not_mem_nil
  | true =>
    rw [terminatorOf_terminated ht] at hi
    obtain rfl := List.mem_singleton.mp hi
    by_cases hlo : buf.read (2 * last.c) = 0xFF
    · exact .inl ⟨_, classifyPair_termL hlo _⟩
    · exact .inr ⟨_, classifyPair_termH hlo ((h.terminated ht).2.resolve_left hlo)⟩

/-! ### What is counted in a scanned datagram -/

theorem elements_countP_len : (elements ((List.range n).map buf.read)).countP isLen = last.c := by
  have hterm : (terminatorOf buf last).countP isLen = 0 := List.countP_eq_zero.mpr fun i hi => by
    obtain ⟨b, rfl⟩ | ⟨b, rfl⟩ := mem_terminatorOf h hi <;> simp [isLen]
  rw [elements_scanned h, List.countP_append, List.countP_append, hterm, payloadElements_no_len, List.countP_map]
  simp [Function.comp_def]

theorem elements_countP_pixel :
    (elements ((List.range n).map buf.read)).countP isPixel = (n - payloadOffset last) / 3 := by
  have hterm : (terminatorOf buf last).countP isPixel = 0 := List.countP_eq_zero.mpr fun i hi => by
    obtain ⟨b, rfl⟩ | ⟨b, rfl⟩ := mem_terminatorOf h hi <;> simp [isPixel]
  rw [elements_scanned h, List.countP_append, List.countP_append, hterm, payloadElements_pixels, List.countP_map,
    length_bytesFrom]
  simp [Function.comp_def]

theorem elements_any_terminator : (elements ((List.range n).map buf.read)).any isTerminator = last.terminated := by
  have hterm : (terminatorOf buf last).any isTerminator = last.terminated := by
    cases ht : last.terminated with
    | false => rw [terminatorOf_unterminated ht, List.any_nil]
    | true =>
      have hmem := terminatorOf_terminated ht buf ▸ List.mem_singleton_self _
      refine List.any_eq_true.mpr ⟨_, hmem, ?_⟩
      obtain ⟨b, hb⟩ | ⟨b, hb⟩ := mem_terminatorOf h hmem <;> simp [hb, isTerminator]
  rw [elements_scanned h, List.any_append, List.any_append, hterm, payloadElements_no_terminator, List.any_map]
  simp [Function.comp_def]

theorem elements_declaredLengths :
    (elements ((List.range n).map buf.read)).filterMap declaredLength = (List.range last.c).map (pairAt buf) := by
  have hterm : (terminatorOf buf last).filterMap declaredLength = [] := List.filterMap_eq_nil_iff.mpr fun i hi => by
    obtain ⟨b, rfl⟩ | ⟨b, rfl⟩ := mem_terminatorOf h hi <;> rfl
  rw [elements_scanned h, List.filterMap_append, List.filterMap_append, hterm, payloadElements_no_length,
    List.filterMap_map]
  simp [Function.comp_def]

theorem length_headerElements :
    (headerElements ((List.range n).map buf.read)).1.length = last.c + last.terminated.toNat := by
  rw [headerElements_scanned h]
  cases ht : last.terminated with
  | false => simp [terminatorOf_unterminated ht]
  | true => simp [terminatorOf_terminated ht]

end Scan

/-- Settles O19: the frame is that of a finished scan, and each field is the count of the scanned datagram's elements. -/
theorem decodeMatchesElements : Obligations.DecodeMatchesElements := by
  intro maxCh buf n hn
  obtain ⟨last, hdecode, hscan⟩ := decodeFrame_ok maxCh buf hn
  refine ⟨frameOf maxCh n last, hdecode, (elements_countP_len hscan).symm, (elements_any_terminator hscan).symm, ?_,
    (elements_countP_pixel hscan).symm, ?_, ?_⟩
  · rw [length_headerElements hscan]
    rfl
  · rw [elements_declaredLengths hscan, ← List.map_take, List.take_range, Nat.min_comm]
    exact hscan.kept
  · show min last.c maxCh = last.lengths.length
    rw [hscan.kept, List.length_map, List.length_range]

end Sys2Proof.Proofs.Elements
end

section
/-! 40_decoder.md, the header scan: what each header element does inside a scan (R79 to R81), where the scan stops (R90), the
laws of the frame it leaves (R91), and that `DECODE` is the run of the header's elements (R78, log 6). Where a scan ends is fixed by
the bytes that it passed (`stop_unique`); the laws about other bytes and another `MAX_CHANNELS` rest on that. -/

namespace Sys2Proof.Proofs.HeaderScan

open Sys2Proof.Machine Sys2Proof.Proofs.Encoding

variable {s : State}

/-! ### The header elements (R79 to R81, R90) -/

/-- Inside a scan that no terminator has stopped, an element does its effect on the scan registers and nothing else. -/
theorem inScan_open {r : ScanRegs} (hw : s.work = .scan r) (ht : r.terminated = false) (f : ScanRegs → ScanRegs) :
    inScan s f = .next (s.setWork (.scan (f r))) :=
  inScan_next.mpr ⟨r, hw, ht, rfl⟩

/-- Settles O14: `LEN` is `scanLen` inside a scan, and `scanLen` leaves the stop flag alone. -/
theorem lenResult : Obligations.LenResult := by
  intro s r lo hi hw ht
  have hregs : scanLen s.cfg.maxChannels lo hi r =
      ⟨r.c + 1, false, if r.c < s.cfg.maxChannels then r.lengths ++ [pairValue lo hi] else r.lengths⟩ := by
    rw [scanLen, ht]
  rw [← hregs]
  exact inScan_open hw ht (scanLen s.cfg.maxChannels lo hi)

/-- Settles O15: both terminators are `scanTerm` inside a scan. -/
theorem terminatorResult : Obligations.TerminatorResult := fun _ _ _ hw ht =>
  ⟨inScan_open hw ht scanTerm, inScan_open hw ht scanTerm⟩

theorem sentinelHit_iff {lo hi : Byte} : sentinelHit lo hi = true ↔ lo = 0xFF ∨ hi = 0xFF := by
  simp [sentinelHit]

/-- Settles O16: De Morgan for the two spellings; a pair with the sentinel is a terminator, any other a length field. -/
theorem sentinelTestsAgree : Obligations.SentinelTestsAgree := by
  intro maxCh lo hi r
  refine ⟨by simp [sentinelHit, bne], ?_⟩
  by_cases hs : lo = 0xFF ∨ hi = 0xFF
  · rw [scanPair_stop maxCh r hs, sentinelHit_iff.mpr hs, Bool.or_true]
    rfl
  · rw [scanPair_go maxCh r hs, Bool.eq_false_iff.mpr (mt sentinelHit_iff.mp hs), Bool.or_false]
    rfl

/-! ### The value of a pair without the sentinel (R25, R59) -/

theorem pairValue_low (lo hi : Byte) : (pairValue lo hi).extractLsb' 0 8 = lo := by
  rw [pairValue_eq_append, BitVec.extractLsb'_append_eq_right]

theorem pairValue_high (lo hi : Byte) : (pairValue lo hi).extractLsb' 8 8 = hi := by
  rw [pairValue_eq_append, BitVec.extractLsb'_append_eq_left]

/-- A byte other than the sentinel is at most `0xFE`. -/
theorem toNat_le_of_ne_sentinel {b : Byte} (h : b ≠ 0xFF) : b.toNat ≤ 0xFE := by
  have hne : b.toNat ≠ 0xFF := fun he => h (BitVec.eq_of_toNat_eq he)
  omega

theorem pairAt_le {buf : Memory} {c : Nat} (h : ¬ sentinelAt buf c) : (pairAt buf c).toNat ≤ 0xFEFE := by
  obtain ⟨hlo, hhi⟩ := not_or.mp h
  have := toNat_le_of_ne_sentinel hlo
  have := toNat_le_of_ne_sentinel hhi
  rw [pairAt, pairValue_toNat]
  omega

/-! ### The end of a scan, and what it keeps (R63, R83, R84, R87) -/

section Scan

variable {maxCh n : Nat} {buf : Memory} {last : ScanRegs} (h : Scanned maxCh buf n last)
include h

theorem offset_ge_two (hn : 4 ≤ n) : 2 ≤ payloadOffset last := by
  cases ht : last.terminated with
  | false =>
    have := h.unterminated ht
    simp only [payloadOffset, ht]
    omega
  | true =>
    simp only [payloadOffset, ht, Bool.toNat_true]
    omega

/-- Without a terminator the header takes all but at most one byte, and no triple is left (R91(c)). -/
theorem no_payload_of_unterminated (ht : last.terminated = false) :
    n - 1 ≤ payloadOffset last ∧ (n - payloadOffset last) / 3 = 0 := by
  have := h.unterminated ht
  simp only [payloadOffset, ht, Bool.toNat_false]
  omega

theorem length_kept : last.lengths.length = min last.c maxCh := by
  rw [h.kept, List.length_map, List.length_range]

theorem getElem?_kept {c : Nat} (hc : c < min last.c maxCh) : last.lengths[c]? = some (pairAt buf c) := by
  rw [h.kept, List.getElem?_map, List.getElem?_range hc, Option.map_some]

/-- Every kept length is the value of a pair that the scan passed. -/
theorem mem_kept {v : HalfWord} (hv : v ∈ last.lengths) : ∃ c, v = pairAt buf c ∧ ¬ sentinelAt buf c := by
  obtain ⟨c, hc, rfl⟩ := List.mem_map.mp (h.kept ▸ hv)
  have hc : c < min last.c maxCh := List.mem_range.mp hc
  exact ⟨c, rfl, (h.passed c (by omega)).2⟩

/-- A scan depends on no byte from the payload's offset on (R91(g)). -/
theorem scanned_congr {buf' : Memory} (hsame : ∀ i, i < payloadOffset last → buf'.read i = buf.read i) :
    Scanned maxCh buf' n last := by
  have pair : ∀ c, 2 * c + 2 ≤ payloadOffset last →
      buf'.read (2 * c) = buf.read (2 * c) ∧ buf'.read (2 * c + 1) = buf.read (2 * c + 1) :=
    fun c hc => ⟨hsame _ (by omega), hsame _ (by omega)⟩
  have hpassed : 2 * last.c ≤ payloadOffset last := by
    rw [payloadOffset]
    omega
  refine ⟨fun c hc => ?_, fun ht => ?_, h.unterminated, ?_⟩
  · obtain ⟨hlo, hhi⟩ := pair c (by omega)
    rw [sentinelAt, hlo, hhi]
    exact h.passed c hc
  · obtain ⟨hlo, hhi⟩ := pair last.c (by rw [payloadOffset, ht]; exact le_rfl)
    rw [sentinelAt, hlo, hhi]
    exact h.terminated ht
  · refine h.kept.trans (List.map_congr_left fun c hc => ?_)
    have hc : c < min last.c maxCh := List.mem_range.mp hc
    obtain ⟨hlo, hhi⟩ := pair c (by omega)
    rw [pairAt, pairAt, hlo, hhi]

/-- No scan of the same bytes passes the place where another stopped, whatever number of lengths each keeps. -/
theorem pairs_le {maxCh' : Nat} {last' : ScanRegs} (h' : Scanned maxCh' buf n last') : last'.c ≤ last.c := by
  by_contra hlt
  obtain ⟨hin, hgo⟩ := h'.passed last.c (by omega)
  cases ht : last.terminated with
  | false => exact absurd (h.unterminated ht) (by omega)
  | true => exact hgo (h.terminated ht).2

/-- A scan was stopped by a terminator exactly if a whole pair is left where it ended. -/
theorem terminated_iff : last.terminated = true ↔ 2 * last.c + 2 ≤ n := by
  refine ⟨fun ht => (h.terminated ht).1, fun hin => ?_⟩
  by_contra ht
  exact absurd (h.unterminated (Bool.eq_false_iff.mpr ht)) (by omega)

end Scan

/-- Where a scan ends is fixed by the datagram's bytes. -/
theorem stop_unique {maxCh maxCh' n : Nat} {buf : Memory} {last last' : ScanRegs} (h : Scanned maxCh buf n last)
    (h' : Scanned maxCh' buf n last') : last'.c = last.c ∧ last'.terminated = last.terminated := by
  have hc : last'.c = last.c := le_antisymm (pairs_le h h') (pairs_le h' h)
  refine ⟨hc, Bool.eq_iff_iff.mpr ?_⟩
  rw [terminated_iff h', terminated_iff h, hc]

theorem scanned_unique {maxCh n : Nat} {buf : Memory} {last last' : ScanRegs} (h : Scanned maxCh buf n last)
    (h' : Scanned maxCh buf n last') : last' = last := by
  obtain ⟨hc, ht⟩ := stop_unique h h'
  have hkept : last'.lengths = last.lengths := by rw [h'.kept, h.kept, hc]
  cases last
  cases last'
  simp_all

/-- The decode function's answer is known from any finished scan of the datagram. -/
theorem decodeFrame_of_scanned {maxCh n : Nat} {buf : Memory} {last : ScanRegs} (hn : 4 ≤ n)
    (h : Scanned maxCh buf n last) : decodeFrame maxCh buf n = .ok (.ok (frameOf maxCh n last)) := by
  obtain ⟨last', hd, h'⟩ := decodeFrame_ok maxCh buf hn
  rw [hd, scanned_unique h h']

/-- Settles O20: the frame is that of a finished scan; the last two laws by `scanned_congr` and `stop_unique`. -/
theorem decodeLaws : Obligations.DecodeLaws := by
  intro maxCh buf n hn
  obtain ⟨last, hd, h⟩ := decodeFrame_ok maxCh buf hn
  have hoff : payloadOffset last ≤ n := h.offset_le
  refine ⟨frameOf maxCh n last, hd, rfl, offset_ge_two h hn, hoff, no_payload_of_unterminated h, ?_, ?_, rfl,
    Nat.min_le_right .., length_kept h, fun v hv => ?_, fun buf' hsame => ?_, fun maxCh' => ?_⟩
  · simp only [frameOf]
    omega
  · simp only [frameOf]
    omega
  · obtain ⟨c, rfl, hs⟩ := mem_kept h hv
    obtain ⟨hlo, hhi⟩ := not_or.mp hs
    exact ⟨by rwa [pairAt, pairValue_low], by rwa [pairAt, pairValue_high], pairAt_le hs⟩
  · exact decodeFrame_of_scanned hn (scanned_congr h hsame)
  · obtain ⟨last', hd', h'⟩ := decodeFrame_ok maxCh' buf hn
    obtain ⟨hc, ht⟩ := stop_unique h h'
    have hsame : payloadOffset last' = payloadOffset last := by rw [payloadOffset, payloadOffset, hc, ht]
    refine ⟨frameOf maxCh' n last', hd', hc, ht, hsame, by simp only [frameOf, hsame], fun c hlt => ?_⟩
    obtain ⟨hlt, hlt'⟩ := lt_min_iff.mp hlt
    exact (getElem?_kept h' hlt').trans (getElem?_kept h hlt).symm

/-! ### `DECODE` (R112) -/

theorem setWork_idle_eq (hw : s.work = .idle) : s.setWork .idle = s := by
  rw [← hw]
  rfl

/-- Settles O17: the frame of the finished scan, whose fields `Scanned` gives. -/
theorem decodeResult : Obligations.DecodeResult := by
  intro s hf hw hn
  obtain ⟨last, hd, h⟩ := decodeFrame_ok s.cfg.maxChannels s.rxBuf hn
  refine ⟨frameOf s.cfg.maxChannels s.rxLen last, ?_, fun c hc => ?_, h.terminated, h.unterminated, rfl, length_kept h,
    fun c hc => ?_, rfl, rfl⟩
  · refine execDecode_next.mpr ⟨hf, .inl ⟨hw, runDecode_next.mpr (.inr ⟨_, hd, ?_⟩)⟩⟩
    have hidle : (s.setDec (frameOf s.cfg.maxChannels s.rxLen last)).setWork .idle = s.setDec _ := setWork_idle_eq hw
    rw [hidle]
    rfl
  · obtain ⟨hin, hs⟩ := h.passed c hc
    exact ⟨hin, not_or.mp hs⟩
  · have hget : (frameOf s.cfg.maxChannels s.rxLen last).lengths[c]? = some (pairAt s.rxBuf c) := getElem?_kept h hc
    rw [List.getD_eq_getElem?_getD, hget]
    exact pairValue_toNat _ _

/-! ### `DECODE` as the run of its elements (R78, log 6) -/

/-- The header element of a pair does inside a scan what the scan does with the pair. -/
theorem exec_classifyPair_eq (lo hi : Byte) (s : State) :
    exec (classifyPair lo hi) s = inScan s (scanPair s.cfg.maxChannels lo hi) := by
  by_cases hs : lo = 0xFF ∨ hi = 0xFF
  · have hterm : scanPair s.cfg.maxChannels lo hi = scanTerm := funext fun r => scanPair_stop _ r hs
    rw [hterm]
    by_cases hlo : lo = 0xFF
    · rw [classifyPair_termL hlo]
      rfl
    · rw [classifyPair_termH hlo (hs.resolve_left hlo)]
      rfl
  · have hlen : scanPair s.cfg.maxChannels lo hi = scanLen s.cfg.maxChannels lo hi := funext fun r => scanPair_go _ r hs
    obtain ⟨hlo, hhi⟩ := not_or.mp hs
    rw [hlen, classifyPair_len hlo hhi]
    rfl

/-- The scan registers after the pair at `2c` (R78). -/
def nextRegs (s : State) (r : ScanRegs) : ScanRegs :=
  scanPair s.cfg.maxChannels (s.rxBuf.read (2 * r.c)) (s.rxBuf.read (2 * r.c + 1)) r

theorem runSteps_one (s : State) : runSteps 1 s = step s := by
  rw [runSteps_succ]
  cases step s <;> rfl

/-- At the end of the scan the next step is `DECODE` itself. -/
theorem run_scan_over {r : ScanRegs} (hw : s.work = .scan r) (ho : scanOver s.rxLen r = true) :
    runSteps 1 s = exec .decode s :=
  (runSteps_one s).trans (step_run (by rw [fetch_scan hw, fetchScan_eq, if_pos ho]))

theorem open_of_not_over {n : Nat} {r : ScanRegs} (ho : scanOver n r = false) : r.terminated = false :=
  Bool.eq_false_iff.mpr fun ht => Bool.eq_false_iff.mp ho (scanOver_iff.mpr (.inl ht))

/-- Before the end of the scan the next step runs the element of the pair at `2c`. -/
theorem step_scan_round {r : ScanRegs} (hw : s.work = .scan r) (ho : scanOver s.rxLen r = false) :
    step s = .next (s.setWork (.scan (nextRegs s r))) := by
  have hopen := open_of_not_over ho
  rw [step_run (by rw [fetch_scan hw, fetchScan_eq, if_neg (Bool.eq_false_iff.mp ho)]), exec_classifyPair_eq,
    inScan_open hw hopen]
  rfl

/-- One element and then the rest is the scan. -/
theorem runDecode_round {r : ScanRegs} (ho : scanOver s.rxLen r = false) :
    runDecode (nextRegs s r) s = runDecode r s := by
  rw [runDecode, nextRegs, decodeFrom_round ho, runDecode]

theorem exec_decode_scan {r : ScanRegs} (hf : s.fsm = .decoding) (hw : s.work = .scan r) :
    exec .decode s = runDecode r s := by
  show execDecode s = _
  rw [execDecode, enabledIn_self hf, hw]

theorem exec_decode_setWork (hf : s.fsm = .decoding) (r : ScanRegs) : exec .decode (s.setWork (.scan r)) = runDecode r s :=
  exec_decode_scan (s := s.setWork (.scan r)) hf rfl

theorem exec_decode_idle (hf : s.fsm = .decoding) (hw : s.work = .idle) : exec .decode s = runDecode .start s := by
  show execDecode s = _
  rw [execDecode, enabledIn_self hf, hw]

/-- From inside a scan the elements that are left, run one by one, answer what `DECODE` answers: induction on a bound of the pairs
that are left. -/
theorem scan_elementwise {pairs : Nat} {r : ScanRegs} (hf : s.fsm = .decoding) (hw : s.work = .scan r)
    (hleft : s.rxLen < 2 * (r.c + r.terminated.toNat + pairs) + 2) : ∃ k, runSteps k s = exec .decode s := by
  induction pairs generalizing s r with
  | zero =>
    have ho : scanOver s.rxLen r = true := scanOver_iff.mpr <| by
      cases ht : r.terminated with
      | false => exact .inr (by simpa [ht] using hleft)
      | true => exact .inl rfl
    exact ⟨1, run_scan_over hw ho⟩
  | succ pairs ih =>
    cases ho : scanOver s.rxLen r with
    | true => exact ⟨1, run_scan_over hw ho⟩
    | false =>
      have hopen := open_of_not_over ho
      have hadvance : (nextRegs s r).c + (nextRegs s r).terminated.toNat = r.c + 1 :=
        Invariant.scanPair_advance s.cfg.maxChannels _ _ hopen
      have hleft' : s.rxLen < 2 * ((nextRegs s r).c + (nextRegs s r).terminated.toNat + pairs) + 2 := by
        rw [hadvance]
        simp only [hopen, Bool.toNat_false] at hleft
        omega
      obtain ⟨k, hk⟩ := ih (s := s.setWork (.scan (nextRegs s r))) hf rfl hleft'
      exact ⟨k + 1, by rw [runSteps_next k (step_scan_round hw ho), hk, exec_decode_setWork hf, runDecode_round ho,
        exec_decode_scan hf hw]⟩

/-- Settles O54: `scan_elementwise` from the start of the scan. -/
theorem decodeIsElementwise : Obligations.DecodeIsElementwise := by
  intro s hf hw
  have hleft : s.rxLen < 2 * (0 + false.toNat + s.rxLen) + 2 := by omega
  obtain ⟨k, hk⟩ := scan_elementwise (s := s.setWork (.scan .start)) hf rfl hleft
  exact ⟨k, hk.trans ((exec_decode_setWork hf .start).trans (exec_decode_idle hf hw).symm)⟩

end Sys2Proof.Proofs.HeaderScan
end

section
/-! 40_decoder.md, the payload elements: the word of a triple (R85), and that no byte after the last whole triple changes what
`DISPATCH` writes (R86): each channel's copies read triples below `total` only. -/

namespace Sys2Proof.Proofs.PayloadElements

open Sys2Proof.Machine

/-! ### The word of a triple (R65, R85) -/

/-- A byte keeps its value in a word. -/
theorem toNat_extended (x : Byte) : (x.setWidth 32).toNat = x.toNat :=
  BitVec.toNat_setWidth_of_le (by decide)

/-- Shifted by at most two bytes, a byte does not leave the word. -/
theorem toNat_shifted (x : Byte) {k : Nat} (hk : k ≤ 16) : (x.setWidth 32 <<< k).toNat = x.toNat <<< k := by
  have hlt : x.toNat <<< k < 2 ^ 32 := by
    calc x.toNat <<< k = x.toNat * 2 ^ k := Nat.shiftLeft_eq ..
      _ < 2 ^ 8 * 2 ^ 16 := Nat.mul_lt_mul_of_lt_of_le x.isLt (Nat.pow_le_pow_right (by decide) hk) (by decide)
      _ ≤ 2 ^ 32 := by decide
  rw [BitVec.toNat_shiftLeft, toNat_extended, Nat.mod_eq_of_lt hlt]

/-- The three bytes of the word side by side: what stands below a shifted byte is less than the shift, so the `or` is a sum. -/
theorem pixelWord_toNat (r g b : Byte) : (pixelWord r g b).toNat = r.toNat * 65536 + g.toNat * 256 + b.toNat := by
  have hgb : g.toNat <<< 8 + b.toNat = g.toNat <<< 8 ||| b.toNat := Nat.shiftLeft_add_eq_or_of_lt b.isLt _
  have hrgb : r.toNat <<< 16 + (g.toNat <<< 8 + b.toNat) = r.toNat <<< 16 ||| (g.toNat <<< 8 + b.toNat) :=
    Nat.shiftLeft_add_eq_or_of_lt (by omega) _
  rw [pixelWord, BitVec.toNat_or, BitVec.toNat_or, toNat_shifted r (by decide), toNat_shifted g (by decide),
    toNat_extended, Nat.or_assoc, ← hgb, ← hrgb]
  omega

/-- Settles O21: the word is `pixelWord`. -/
theorem pixResult : Obligations.PixResult := fun _ k r g b hw =>
  ⟨pixelWord r g b, execPix_next.mpr ⟨k, hw, rfl⟩, pixelWord_toNat r g b⟩

/-! ### The bytes that a dispatch reads (R64, R66, R86) -/

section Tail

variable {s : State} {buf : Memory} (hs : FrameFits s)
  (hsame : ∀ i, i < s.dec.offset + 3 * s.dec.total → buf.read i = s.rxBuf.read i)

include hs hsame

theorem pixelAt_payload {q : Nat} (hq : q < s.dec.total) : pixelAt (s.setRx buf s.rxLen) q = pixelAt s q := by
  have hin : s.dec.offset + 3 * q + 3 ≤ s.rxLen := by
    have := hs.payload
    omega
  have hbytes : ∀ j, j < 3 → buf.read (s.dec.offset + 3 * q + j) = s.rxBuf.read (s.dec.offset + 3 * q + j) :=
    fun j hj => hsame _ (by omega)
  have h0 : buf.read (s.dec.offset + 3 * q) = s.rxBuf.read (s.dec.offset + 3 * q) := hbytes 0 (by decide)
  rw [pixelAt_inside hin, pixelAt_inside (s := s.setRx buf s.rxLen) hin, State.setRx_dec, State.setRx_rxBuf, h0,
    hbytes 1 (by decide), hbytes 2 (by decide)]

/-- Copies that stay below `total` do not see the tail. -/
theorem copyPixels_payload {c cursor slots i : Nat} (hq : slots ≠ 0 → cursor + i + slots ≤ s.dec.total)
    (chb : ChannelBuffers) : copyPixels (s.setRx buf s.rxLen) c cursor slots i chb = copyPixels s c cursor slots i chb := by
  induction slots generalizing i chb with
  | zero => rfl
  | succ slots ih =>
    have hroom := hq (Nat.succ_ne_zero slots)
    simp only [copyPixels, copyPixel, State.setRx_cfg, pixelAt_payload hs hsame (show cursor + i < s.dec.total by omega),
      ih (i := i + 1) (fun _ => by omega)]

/-- The clamp of R98 keeps each channel's copies below `total`. -/
theorem dispatchChannels_payload (channels c cursor : Nat) (chb : ChannelBuffers) :
    dispatchChannels (s.setRx buf s.rxLen) channels c cursor chb = dispatchChannels s channels c cursor chb := by
  induction channels generalizing c cursor chb with
  | zero => rfl
  | succ channels ih =>
    have hcount : copyCount (s.setRx buf s.rxLen) c (s.dec.lengthAt c) cursor = copyCount s c (s.dec.lengthAt c) cursor := rfl
    have hclamp : copyCount s c (s.dec.lengthAt c) cursor ≠ 0 →
        cursor + 0 + copyCount s c (s.dec.lengthAt c) cursor ≤ s.dec.total := by
      unfold copyCount
      omega
    simp only [dispatchChannels, State.setRx_dec, hcount, copyPixels_payload hs hsame hclamp, ih]

end Tail

/-- Settles O22: a tail's meaning is no effect, and a dispatch from `idle` is the run of all channels, which see no tail. -/
theorem tailResult : Obligations.TailResult := by
  refine ⟨fun _ _ => rfl, fun s buf hw hs hsame => ?_⟩
  have whole : ∀ t : State, t.work = .idle → dispatchBuffers t = dispatchChannels t t.dec.nchan 0 0 t.chbuf := fun t ht => by
    rw [dispatchBuffers, ht]
    rfl
  exact (whole (s.setRx buf s.rxLen) hw).trans ((dispatchChannels_payload hs hsame ..).trans (whole s hw).symm)

end Sys2Proof.Proofs.PayloadElements
end

section
/-! 40_decoder.md R89, 41_dispatch.md R99, 60_exceptions.md R130: from a state that meets the invariant no step raises a model
fault. The invariant closes each place where one could arise: a read of `RX` and a write of `CHB` by the frame that fits its
datagram and by the working registers in place, a second exit by `exit_status` being set only once the loop has ended. -/

namespace Sys2Proof.Proofs.NoFault

open Sys2Proof.Machine Sys2Proof.Proofs.Invariant

variable {s : State}

/-! ### Outcomes without a fault, one rule for each shared operation -/

theorem faultless_next (t : State) : Faultless (.next t) := fun _ => nofun

theorem faultless_refused (r : Refusal) : Faultless (.refused r) := fun _ => nofun

theorem faultless_enabledIn {f : Fsm} {body : StepOutcome} (h : s.fsm = f → Faultless body) :
    Faultless (enabledIn f s body) := fun e he =>
  have ⟨hf, hb⟩ := enabledIn_fault.mp he
  h hf e hb

theorem faultless_orFault {α : Type} {res : Except Fault α} {go : α → StepOutcome} (hres : ∃ a, res = .ok a)
    (hgo : ∀ a, Faultless (go a)) : Faultless (orFault res go) := by
  obtain ⟨a, rfl⟩ := hres
  exact hgo a

theorem faultless_onDuty {p : Params} {r : Int} {bytes : List Byte} {body : StepOutcome} (h : Faultless body) :
    Faultless (onDuty p r bytes body) := fun e he => h e (onDuty_fault.mp he).2

theorem faultless_loopHead (h : s.exitStatus = .none) : Faultless (loopHead s) := fun _ he =>
  (loopHead_fault.mp he).2.1 h

theorem faultless_raiseFatal (e : FatalError) (h : s.exitStatus = .none) : Faultless (raiseFatal e s) := fun _ he =>
  (raiseFatal_fault.mp he).1 h

theorem faultless_inScan (f : ScanRegs → ScanRegs) : Faultless (inScan s f) := fun _ => inScan_no_fault

/-! ### What the invariant says where a fault could arise -/

/-- While the loop runs no exit has been written (R20). -/
theorem exitStatus_none (h : s.Inv) {f : Fsm} (hf : s.fsm = f) (hrun : f.loopEnded = false) : s.exitStatus = .none :=
  h.exitMatches.mpr (hf ▸ hrun)

theorem frameFits (h : s.Inv) (hf : s.fsm = .dispatching) : FrameFits s :=
  State.frameCurrent_fits (h.dispatchingCurrent hf)

/-- The slot and the triple that a copy stands at exist (R98, R99). -/
theorem copyPlaced_inside (h : s.Inv) {k : CopyRegs} (hk : s.copyPlaced k) (hi : k.i < k.m) :
    slotExists s.cfg k.c k.i = true ∧ s.dec.offset + 3 * (k.cursor + k.i) + 3 ≤ s.rxLen := by
  obtain ⟨hf, hc, -, -, hm, -⟩ := hk
  have hfits := frameFits h hf
  have hchannels := hfits.nchan
  have hpayload := hfits.payload
  unfold copyCount at hm
  exact ⟨slotExists_iff.mpr ⟨by omega, by omega⟩, by omega⟩

/-- The decode function never faults (R89). -/
theorem decodeFrom_answers (maxCh : Nat) (buf : Memory) (n : Nat) (r : ScanRegs) : ∃ res, decodeFrom maxCh buf n r = .ok res := by
  rcases Nat.lt_or_ge n 4 with hn | hn
  · exact ⟨_, decodeFrom_short maxCh buf hn r⟩
  · obtain ⟨last, hd, -⟩ := decodeFrom_ok maxCh buf hn r
    exact ⟨_, hd⟩

theorem finishCopy_answers (h : s.Inv) {k : CopyRegs} (hk : s.copyPlaced k) : ∃ chb, finishCopy s k = .ok chb := by
  obtain ⟨hf, hc, -, -, hm, hi⟩ := hk
  rw [finishCopy, hm]
  exact copyPixels_channel (frameFits h hf) hc k.declared (hm ▸ hi) s.chbuf

theorem finishDispatch_answers (h : s.Inv) (hf : s.fsm = .dispatching) {c : Nat} (hc : c ≤ s.dec.nchan) (cursor : Nat)
    (chb : ChannelBuffers) : ∃ chb', finishDispatch s c cursor chb = .ok chb' :=
  dispatchChannels_inside (frameFits h hf) chb (by omega)

/-- The dispatch function never faults, from wherever in a dispatch the block stands (R99). -/
theorem dispatchBuffers_answers (h : s.Inv) (hf : s.fsm = .dispatching) : ∃ chb, dispatchBuffers s = .ok chb := by
  unfold dispatchBuffers
  cases hw : s.work with
  | idle => exact finishDispatch_answers h hf (Nat.zero_le _) 0 s.chbuf
  | scan r => exact finishDispatch_answers h hf (Nat.zero_le _) 0 s.chbuf
  | demux c cursor =>
    obtain ⟨-, hc, -⟩ := workPlaced_demux hw h.workInPlace
    exact finishDispatch_answers h hf hc cursor s.chbuf
  | copy k =>
    have hk : s.copyPlaced k := workPlaced_copy hw h.workInPlace
    obtain ⟨mid, hmid⟩ := finishCopy_answers h hk
    obtain ⟨-, hc, -⟩ := hk
    obtain ⟨chb, hchb⟩ := finishDispatch_answers h hf (Nat.succ_le_of_lt hc) (k.cursor + k.declared.toNat) mid
    exact ⟨chb, Except.bind_ok_iff.mpr ⟨mid, hmid, hchb⟩⟩

/-! ### The meanings -/

theorem faultless_runDecode (r : ScanRegs) (h : s.exitStatus = .none) : Faultless (runDecode r s) :=
  faultless_orFault (decodeFrom_answers ..) fun res =>
    match res with
    | .ok _ => faultless_next _
    | .error .tooShort => faultless_loopHead h

theorem faultless_execDecode (h : s.Inv) : Faultless (execDecode s) := faultless_enabledIn fun hf => by
  have hexit := exitStatus_none h hf rfl
  cases s.work with
  | idle => exact faultless_runDecode .start hexit
  | scan r => exact faultless_runDecode r hexit
  | demux c cursor => exact faultless_refused _
  | copy k => exact faultless_refused _

theorem faultless_execDispatch (h : s.Inv) : Faultless (execDispatch s) := faultless_enabledIn fun hf => by
  have hrun := faultless_orFault (dispatchBuffers_answers h hf) fun chb =>
    faultless_next ((((s.setChbuf chb).setWork .idle).record (.renderReq chb)).setFsm .rendering)
  cases s.work with
  | idle => exact hrun
  | scan r => exact faultless_refused _
  | demux c cursor => exact hrun
  | copy k => exact hrun

theorem faultless_runChannel (h : s.Inv) {k : CopyRegs} (hk : s.copyPlaced k) : Faultless (runChannel k s) :=
  faultless_orFault (finishCopy_answers h hk) fun _ => faultless_next _

theorem faultless_execDispatchCh (h : s.Inv) (c : Nat) (declared : HalfWord) : Faultless (execDispatchCh c declared s) := by
  unfold execDispatchCh
  cases hw : s.work with
  | idle => exact faultless_refused _
  | scan r => exact faultless_refused _
  | demux at_ cursor =>
    obtain ⟨hf, -, hcursor⟩ := workPlaced_demux hw h.workInPlace
    dsimp only
    split
    · next hch =>
      obtain ⟨rfl, hch⟩ := hch
      obtain ⟨hc, hdecl⟩ := isChannel_iff.mp hch
      exact faultless_runChannel h ⟨hf, hc, hdecl, hcursor, rfl, Nat.zero_le _⟩
    · exact faultless_refused _
  | copy k =>
    dsimp only
    split
    · exact faultless_runChannel h (workPlaced_copy hw h.workInPlace)
    · exact faultless_refused _

theorem faultless_execCopyPx (h : s.Inv) (c i q : Nat) : Faultless (execCopyPx c i q s) := by
  unfold execCopyPx
  cases hw : s.work with
  | idle => exact faultless_refused _
  | scan r => exact faultless_refused _
  | demux at_ cursor => exact faultless_refused _
  | copy k =>
    dsimp only
    split
    · next hop =>
      obtain ⟨rfl, rfl, hi, rfl⟩ := hop
      obtain ⟨hslot, htriple⟩ := copyPlaced_inside h (workPlaced_copy hw h.workInPlace) hi
      have hcopy : ∃ chb, copyPixel s k.c k.i (k.cursor + k.i) s.chbuf = .ok chb :=
        ⟨_, copyPixel_ok.mpr ⟨_, pixelAt_inside htriple, memWriteChb_ok.mpr ⟨hslot, rfl⟩⟩⟩
      exact faultless_orFault hcopy fun _ => faultless_next _
    · exact faultless_refused _

theorem faultless_execPix (r g b : Byte) : Faultless (execPix r g b s) := by
  unfold execPix
  cases s.work with
  | idle => exact faultless_refused _
  | scan r => exact faultless_refused _
  | demux c cursor => exact faultless_refused _
  | copy k => exact faultless_next _

theorem faultless_execRxData (r : Int) (bytes : List Byte) : Faultless (execRxData r bytes s) :=
  faultless_enabledIn fun _ => by
    split
    · exact faultless_onDuty (faultless_next _)
    · exact faultless_refused _

theorem faultless_execRxShort (h : s.Inv) (r : Int) (bytes : List Byte) : Faultless (execRxShort r bytes s) :=
  faultless_enabledIn fun hf => by
    have hexit := exitStatus_none h hf rfl
    split
    · exact faultless_onDuty (faultless_loopHead hexit)
    · exact faultless_refused _

theorem faultless_execRxError (h : s.Inv) (r : Int) : Faultless (execRxError r s) :=
  faultless_enabledIn fun hf => by
    have hexit := exitStatus_none h hf rfl
    split
    · exact faultless_loopHead hexit
    · exact faultless_refused _

theorem faultless_execFinalize : Faultless (execFinalize s) := faultless_enabledIn fun _ => by
  split
  · exact faultless_refused _
  · exact faultless_next _

/-- No instruction faults, with whatever operands, in a state that meets the invariant. -/
theorem faultless_exec (h : s.Inv) (i : Instr) : Faultless (exec i s) := by
  cases i with
  | len lo hi => exact faultless_inScan _
  | termL hi => exact faultless_inScan _
  | termH lo => exact faultless_inScan _
  | pix r g b => exact faultless_execPix r g b
  | tail bytes => exact faultless_next s
  | dispatchCh c declared => exact faultless_execDispatchCh h c declared
  | copyPx c j q => exact faultless_execCopyPx h c j q
  | initReq => exact faultless_enabledIn fun _ => faultless_next _
  | initOk => exact faultless_enabledIn fun hf => have hexit := exitStatus_none h hf rfl; faultless_loopHead hexit
  | initFail => exact faultless_enabledIn fun hf => have hexit := exitStatus_none h hf rfl; faultless_raiseFatal _ hexit
  | rxData r bytes => exact faultless_execRxData r bytes
  | rxShort r bytes => exact faultless_execRxShort h r bytes
  | rxError r => exact faultless_execRxError h r
  | decode => exact faultless_execDecode h
  | dispatch => exact faultless_execDispatch h
  | renderOk => exact faultless_enabledIn fun _ => faultless_next _
  | renderFail => exact faultless_enabledIn fun hf => have hexit := exitStatus_none h hf rfl; faultless_raiseFatal _ hexit
  | pace => exact faultless_enabledIn fun hf => have hexit := exitStatus_none h hf rfl; faultless_loopHead hexit
  | cancel => exact faultless_next _
  | finalize => exact faultless_execFinalize

/-! ### The fetch's own reads -/

theorem fetchCopy_no_fault (h : s.Inv) {k : CopyRegs} (hk : s.copyPlaced k) (f : Fault) : fetchCopy k s ≠ .fault f := by
  unfold fetchCopy
  split
  · next hi =>
    obtain ⟨-, htriple⟩ := copyPlaced_inside h hk hi
    cases k.pixel with
    | some w => exact nofun
    | none => simp [tripleOffset, readTriple_inside htriple]
  · exact nofun

/-- The pair of a scan and the triple of a copy are read inside the datagram (R89, R99). -/
theorem fetch_no_fault (h : s.Inv) (f : Fault) : fetch s ≠ .fault f := by
  cases hw : s.work with
  | idle =>
    rw [fetch_idle hw]
    exact fetchControl_no_fault
  | scan r =>
    rw [fetch_scan hw, fetchScan_eq]
    split <;> exact nofun
  | demux c cursor =>
    rw [fetch_demux hw, fetchDemux]
    split <;> exact nofun
  | copy k =>
    rw [fetch_copy hw]
    exact fetchCopy_no_fault h (workPlaced_copy hw h.workInPlace) f

/-- Settles O53: the fetch does not fault, and what it fetched runs in a state of the invariant, where no instruction faults. -/
theorem stepNeverFaults : Obligations.StepNeverFaults := by
  intro s h
  cases hfetch : fetch s with
  | run i u =>
    obtain ⟨os, rfl⟩ := fetch_run hfetch
    rw [step_run hfetch]
    exact faultless_exec (inv_setInputs h os) i
  | fault f => exact absurd hfetch (fetch_no_fault h f)
  | stop r =>
    rw [step, hfetch]
    exact faultless_refused r

end Sys2Proof.Proofs.NoFault
end

section
/-! 41_dispatch.md, the demultiplexer: one pixel (R95), one channel (R94, R96, R98) and one whole `DISPATCH` (R100), that the same
datagram dispatched twice leaves the same buffers (R103), that no triple goes to two channels (R101), and that `DISPATCH` is the
run of its channels and a channel the run of its pixels (R93, log 6). -/

namespace Sys2Proof.Proofs.Dispatch

open Sys2Proof.Machine

variable {s : State}

/-! ### Channel buffers as their slots (R12, R28) -/

/-- A slot that exists can be written. -/
theorem memWriteChb_exists {p : Params} {c i : Nat} (h : slotExists p c i = true) (chb : ChannelBuffers) (v : Word) :
    ∃ chb', memWriteChb p chb c i v = .ok chb' :=
  ⟨_, memWriteChb_ok.mpr ⟨h, rfl⟩⟩

theorem memReadChb_no_slot {p : Params} {c i : Nat} (h : p.capOf c ≤ i) (chb : ChannelBuffers) :
    memReadChb p chb c i = .error .chbOob :=
  if_neg fun hs => Nat.not_lt.mpr h (slotExists_iff.mp hs).2

/-- A read of a slot of buffers of the machine's shape is the word of the list. -/
theorem memReadChb_getElem {p : Params} (hp : p.wf) {chb : ChannelBuffers} (hf : p.fits chb) {c i : Nat}
    (hc : c < chb.length) (hi : i < chb[c].length) : memReadChb p chb c i = .ok chb[c][i] := by
  have hrow : chb[c]? = some chb[c] := List.getElem?_eq_getElem hc
  have hslot : slotExists p c i = true :=
    slotExists_iff.mpr ⟨Params.rows hp hf ▸ hc, Params.row_length hf hrow ▸ hi⟩
  simp [memReadChb, hslot, hrow, hi]

/-- Buffers of the machine's shape that read alike in every slot are equal data. -/
theorem eq_of_memReadChb {p : Params} (hp : p.wf) {chb chb' : ChannelBuffers} (hf : p.fits chb) (hf' : p.fits chb')
    (hread : ∀ c i, memReadChb p chb' c i = memReadChb p chb c i) : chb' = chb := by
  refine List.ext_getElem ((Params.rows hp hf').trans (Params.rows hp hf).symm) fun c hc' hc => ?_
  have hlen : chb'[c].length = chb[c].length :=
    (Params.row_length hf' (List.getElem?_eq_getElem hc')).trans (Params.row_length hf (List.getElem?_eq_getElem hc)).symm
  refine List.ext_getElem hlen fun i hi' hi => Except.ok.inj (ε := Fault) ?_
  rw [← memReadChb_getElem hp hf' hc' hi', hread, memReadChb_getElem hp hf hc hi]

/-! ### The loops do not read the working registers or the buffers of the state -/

theorem copyPixel_setWork (s : State) (w : Work) (c i q : Nat) (chb : ChannelBuffers) :
    copyPixel (s.setWork w) c i q chb = copyPixel s c i q chb :=
  copyPixel_congr (s := s) (t := s.setWork w) rfl rfl rfl rfl c i q chb

theorem copyPixels_setWork (s : State) (w : Work) (c cursor slots i : Nat) (chb : ChannelBuffers) :
    copyPixels (s.setWork w) c cursor slots i chb = copyPixels s c cursor slots i chb :=
  copyPixels_congr (s := s) (t := s.setWork w) rfl rfl rfl rfl c cursor slots i chb

theorem copyPixels_setChbuf (s : State) (held : ChannelBuffers) (c cursor slots i : Nat) (chb : ChannelBuffers) :
    copyPixels (s.setChbuf held) c cursor slots i chb = copyPixels s c cursor slots i chb :=
  copyPixels_congr (s := s) (t := s.setChbuf held) rfl rfl rfl rfl c cursor slots i chb

theorem finishDispatch_setWork (s : State) (w : Work) (c cursor : Nat) (chb : ChannelBuffers) :
    finishDispatch (s.setWork w) c cursor chb = finishDispatch s c cursor chb :=
  dispatchChannels_congr (s := s) (t := s.setWork w) rfl rfl rfl rfl _ c cursor chb

theorem finishDispatch_setChbuf (s : State) (held : ChannelBuffers) (c cursor : Nat) (chb : ChannelBuffers) :
    finishDispatch (s.setChbuf held) c cursor chb = finishDispatch s c cursor chb :=
  dispatchChannels_congr (s := s) (t := s.setChbuf held) rfl rfl rfl rfl _ c cursor chb

/-! ### One pixel and one channel (R94 to R96, R98) -/

/-- Settles O23: the triple can be read and the slot written, and a write changes its own slot only. -/
theorem copyPixelResult : Obligations.CopyPixelResult := by
  intro s k hw hi hp hf hc hm hin
  have hslot : slotExists s.cfg k.c k.i = true := slotExists_iff.mpr ⟨hc, by omega⟩
  obtain ⟨chb, hwrite⟩ := memWriteChb_exists hslot s.chbuf _
  have hcopy := copyPixel_ok.mpr ⟨_, pixelAt_inside hin, hwrite⟩
  exact ⟨chb, execCopyPx_next.mpr ⟨k, chb, hw, ⟨rfl, rfl, hi, rfl⟩, hcopy, rfl⟩, memWriteChb_fits hwrite hf,
    memReadChb_write hp hf hwrite⟩

/-- Settles O24: the clamped copies stay inside the payload and the buffer, and write the slots below the clamp. -/
theorem dispatchChannelResult : Obligations.DispatchChannelResult := by
  intro s c cursor declared hw hc hd hp hf hs
  obtain ⟨chb, hcopies⟩ := copyPixels_channel (cursor := cursor) hs hc declared (Nat.zero_le _) s.chbuf
  have hrun : runChannel (.start s c cursor declared) s =
      .next { s with chbuf := chb, work := .demux (c + 1) (cursor + declared.toNat) } :=
    runChannel_next.mpr ⟨chb, hcopies, rfl⟩
  refine ⟨chb, execDispatchCh_next.mpr (.inl ⟨cursor, hw, isChannel_iff.mpr ⟨hc, hd⟩, hrun⟩), copyPixels_fits hcopies hf,
    fun c' i => ?_⟩
  rw [copyPixels_read hp hf hcopies]
  simp [copyCount]

/-! ### The whole dispatch (R97, R98, R100, R113) -/

/-- Between control steps the dispatch function runs all channels. -/
theorem dispatchBuffers_idle (hw : s.work = .idle) : dispatchBuffers s = dispatchChannels s s.dec.nchan 0 0 s.chbuf := by
  rw [dispatchBuffers, hw]
  rfl

/-- Between control steps the dispatch function depends on the datagram, the frame, the parameters and the buffers alone. -/
theorem dispatchBuffers_congr {t : State} (hw : s.work = .idle) (hw' : t.work = .idle) (hbuf : t.rxBuf = s.rxBuf)
    (hlen : t.rxLen = s.rxLen) (hdec : t.dec = s.dec) (hcfg : t.cfg = s.cfg) (hchb : t.chbuf = s.chbuf) :
    dispatchBuffers t = dispatchBuffers s := by
  rw [dispatchBuffers_idle hw, dispatchBuffers_idle hw', dispatchChannels_congr hbuf hlen hdec hcfg, hdec, hchb]

theorem dispatchBuffers_answers (hw : s.work = .idle) (hs : FrameFits s) : ∃ chb, dispatchBuffers s = .ok chb := by
  rw [dispatchBuffers_idle hw]
  exact dispatchChannels_inside hs s.chbuf (Nat.zero_add _).le

/-- What a dispatch leaves in every slot (R100). -/
theorem dispatchBuffers_read (hw : s.work = .idle) (hp : s.cfg.wf) (hf : s.cfg.fits s.chbuf) {chb : ChannelBuffers}
    (h : dispatchBuffers s = .ok chb) (c i : Nat) :
    memReadChb s.cfg chb c i =
      if c < s.dec.nchan ∧ i < s.copied c then pixelAt s (s.dec.cursorAt c + i) else memReadChb s.cfg s.chbuf c i := by
  rw [dispatchBuffers_idle hw] at h
  rw [dispatchChannels_read hp hf rfl h]
  simp

/-- `DISPATCH` between control steps: the buffers of the dispatch function, and the request to render them (R113). -/
theorem exec_dispatch_idle (hfsm : s.fsm = .dispatching) (hw : s.work = .idle) {chb : ChannelBuffers}
    (h : dispatchBuffers s = .ok chb) :
    exec .dispatch s = .next { s with chbuf := chb, fsm := .rendering, trace := s.trace ++ [.renderReq chb] } := by
  have hidle : (s.setChbuf chb).setWork .idle = s.setChbuf chb := HeaderScan.setWork_idle_eq hw
  refine execDispatch_next.mpr ⟨hfsm, by simp [hw], chb, h, ?_⟩
  rw [hidle]
  rfl

/-- Settles O25: the dispatch function answers buffers for a frame that fits, and `dispatchBuffers_read` says what they hold. -/
theorem dispatchResult : Obligations.DispatchResult := by
  intro s hfsm hw hp hf hs
  obtain ⟨chb, h⟩ := dispatchBuffers_answers hw hs
  exact ⟨chb, exec_dispatch_idle hfsm hw h, Invariant.dispatchBuffers_fits h hf, dispatchBuffers_read hw hp hf h⟩

/-! ### The same datagram twice (R103) -/

/-- Dispatched again over its own result, a datagram writes into each slot what the slot already holds. -/
theorem dispatchBuffers_again (hw : s.work = .idle) (hp : s.cfg.wf) (hf : s.cfg.fits s.chbuf) (hs : FrameFits s)
    {chb : ChannelBuffers} (h : dispatchBuffers s = .ok chb) : dispatchBuffers (s.setChbuf chb) = .ok chb := by
  have hfits : s.cfg.fits chb := Invariant.dispatchBuffers_fits h hf
  obtain ⟨chb', h'⟩ := dispatchBuffers_answers (s := s.setChbuf chb) hw ⟨hs.nchan, hs.payload⟩
  have hfits' : s.cfg.fits chb' := Invariant.dispatchBuffers_fits (s := s.setChbuf chb) h' hfits
  have hread : ∀ c i, memReadChb s.cfg chb' c i =
      if c < s.dec.nchan ∧ i < s.copied c then pixelAt s (s.dec.cursorAt c + i) else memReadChb s.cfg chb c i :=
    dispatchBuffers_read (s := s.setChbuf chb) hw hp hfits h'
  have hsame : chb' = chb := eq_of_memReadChb hp hfits hfits' fun c i => by
    rw [hread, dispatchBuffers_read hw hp hf h]
    by_cases hin : c < s.dec.nchan ∧ i < s.copied c
    · rw [if_pos hin, if_pos hin]
    · rw [if_neg hin]
  rw [h', hsame]

/-- Settles O26: the second dispatch runs from the buffers of the first, `dispatchBuffers_again`. -/
theorem dispatchIdempotent : Obligations.DispatchIdempotent := by
  intro s t rest hw hp hf hs h
  obtain ⟨-, -, chb, hchb, rfl⟩ := execDispatch_next.mp h
  refine exec_dispatch_idle rfl rfl (Eq.trans ?_ (dispatchBuffers_again hw hp hf hs hchb))
  apply dispatchBuffers_congr (s := s.setChbuf chb) hw <;> rfl

/-! ### The slices of the channels (R96, R101) -/

/-- A channel's slice ends at or before every later channel's begins. -/
theorem slice_le_cursorAt (d : DecodedFrame) {c c' : Nat} (h : c < c') :
    d.cursorAt c + (d.lengthAt c).toNat ≤ d.cursorAt c' := by
  rw [← d.cursorAt_succ]
  exact monotone_nat_of_le_succ (fun k => d.cursorAt_succ k ▸ Nat.le_add_right ..) h

theorem copied_le_length (s : State) (c : Nat) : s.copied c ≤ (s.dec.lengthAt c).toNat := by
  unfold State.copied
  omega

theorem copied_le_left (s : State) (c : Nat) : s.copied c ≤ s.dec.total - s.dec.cursorAt c := by
  unfold State.copied
  omega

/-- A copied triple lies in its channel's slice, so it lies before every later channel's. -/
theorem triple_before_later {c c' i : Nat} (h : c < c') (hi : i < s.copied c) : s.dec.cursorAt c + i < s.dec.cursorAt c' := by
  have hlength := copied_le_length s c
  have hslice := slice_le_cursorAt s.dec h
  omega

/-- The first `c` channels copy no more than the payload holds before channel `c`'s slice begins. -/
theorem copied_sum_le (s : State) (c : Nat) :
    ((List.range c).map s.copied).sum ≤ min s.dec.total (s.dec.cursorAt c) := by
  induction c with
  | zero => simp
  | succ c ih =>
    have hlength := copied_le_length s c
    have hleft := copied_le_left s c
    rw [List.sum_range_succ, s.dec.cursorAt_succ]
    omega

/-- Settles O27: the slices lie one after another, and each channel copies from its own, below `total`. -/
theorem slicesDisjoint : Obligations.SlicesDisjoint := by
  refine fun s => ⟨fun _ _ => slice_le_cursorAt s.dec, fun c => ⟨copied_le_length s c, copied_le_left s c⟩,
    fun c c' i i' hi hi' heq => ?_, (copied_sum_le s s.dec.nchan).trans (Nat.min_le_left ..)⟩
  rcases Nat.lt_trichotomy c c' with hlt | rfl | hgt
  · have hbefore := triple_before_later hlt hi
    omega
  · exact ⟨rfl, Nat.add_left_cancel heq⟩
  · have hbefore := triple_before_later hgt hi'
    omega

/-! ### `DISPATCH` as the run of its channels, a channel as the run of its pixels (R93 to R95, log 6) -/

/-- A run that does a first part, fault included, and from each of its results has a run of the rest. -/
theorem runSteps_orFault {α : Type} {m : Nat} {res : Except Fault α} {next : α → State} {rest : α → StepOutcome}
    (hfirst : runSteps m s = orFault res fun a => .next (next a))
    (hrest : ∀ a, ∃ k, runSteps k (next a) = rest a) : ∃ k, runSteps k s = orFault res rest := by
  cases res with
  | error f => exact ⟨m, hfirst⟩
  | ok a =>
    obtain ⟨k, hk⟩ := hrest a
    exact ⟨m + k, (runSteps_add m k hfirst).trans hk⟩

theorem orFault_bind {α β : Type} (res : Except Fault α) (f : α → Except Fault β) (go : β → StepOutcome) :
    orFault (res >>= f) go = orFault res fun a => orFault (f a) go := by
  cases res <;> rfl

/-- The copy registers at the next slot (R95). -/
def nextSlot (k : CopyRegs) : CopyRegs := { k with i := k.i + 1, pixel := none }

/-- The copy registers once the word of their slot is assembled (R85, log 21). -/
def withWord (k : CopyRegs) (w : Word) : CopyRegs := { k with pixel := some w }

theorem execDispatchCh_copy {k : CopyRegs} (hw : s.work = .copy k) : execDispatchCh k.c k.declared s = runChannel k s := by
  rw [execDispatchCh, hw]
  exact if_pos ⟨rfl, rfl⟩

theorem execDispatchCh_demux {c cursor : Nat} {declared : HalfWord} (hw : s.work = .demux c cursor) (hc : c < s.dec.nchan)
    (hd : declared = s.dec.lengthAt c) : execDispatchCh c declared s = runChannel (.start s c cursor declared) s := by
  rw [execDispatchCh, hw]
  exact if_pos ⟨rfl, isChannel_iff.mpr ⟨hc, hd⟩⟩

/-- `COPY_PX` of the slot that the copy stands at, fault included. -/
theorem execCopyPx_copy {k : CopyRegs} (hw : s.work = .copy k) (hi : k.i < k.m) :
    execCopyPx k.c k.i (k.cursor + k.i) s =
      orFault (copyPixel s k.c k.i (k.cursor + k.i) s.chbuf) fun chb =>
        .next ((s.setChbuf chb).setWork (.copy (nextSlot k))) := by
  rw [execCopyPx, hw]
  exact if_pos ⟨rfl, rfl, hi, rfl⟩

/-- With the word assembled, the next step is `COPY_PX`. -/
theorem step_withWord {k : CopyRegs} (hi : k.i < k.m) (w : Word) :
    step (s.setWork (.copy (withWord k w))) =
      orFault (copyPixel s k.c k.i (k.cursor + k.i) s.chbuf) fun chb =>
        .next ((s.setChbuf chb).setWork (.copy (nextSlot k))) := by
  have hfetch : fetch (s.setWork (.copy (withWord k w))) =
      .run (.copyPx k.c k.i (k.cursor + k.i)) (s.setWork (.copy (withWord k w))) :=
    (fetch_copy rfl).trans (by simp [fetchCopy, withWord, hi])
  rw [step_run hfetch, ← copyPixel_setWork s (.copy (withWord k w))]
  exact execCopyPx_copy (s := s.setWork (.copy (withWord k w))) (k := withWord k w) rfl hi

/-- Reading the triple of a slot and then copying it are two steps that do `copyPixel`, fault included. -/
theorem run_copy_slot {k : CopyRegs} (hw : s.work = .copy k) (hpx : k.pixel = none) (hi : k.i < k.m) :
    runSteps 2 s = orFault (copyPixel s k.c k.i (k.cursor + k.i) s.chbuf) fun chb =>
      .next ((s.setChbuf chb).setWork (.copy (nextSlot k))) := by
  cases hread : readTriple s.rxBuf s.rxLen (tripleOffset s (k.cursor + k.i)) with
  | error f =>
    have hfault : step s = .fault f := by simp [step, fetch_copy hw, fetchCopy, hi, hpx, hread]
    have hcopy : copyPixel s k.c k.i (k.cursor + k.i) s.chbuf = .error f := by
      rw [copyPixel, pixelAt, hread]
      rfl
    rw [runSteps_succ, hfault, hcopy]
    rfl
  | ok x =>
    obtain ⟨r, g, b⟩ := x
    have hpix : step s = .next (s.setWork (.copy (withWord k (pixelWord r g b)))) :=
      (step_run (i := .pix r g b) (s' := s) (by simp [fetch_copy hw, fetchCopy, hi, hpx, hread])).trans
        (execPix_next.mpr ⟨k, hw, rfl⟩)
    rw [runSteps_next 1 hpix, HeaderScan.runSteps_one, step_withWord hi]

/-- The rest of a channel does not depend on the working registers that the state holds. -/
theorem runChannel_setWork (k : CopyRegs) (w : Work) : runChannel k (s.setWork w) = runChannel k s := by
  rw [runChannel, finishCopy, copyPixels_setWork]
  rfl

/-- A channel is the copy of its next slot and then the rest of the channel. -/
theorem runChannel_slot {k : CopyRegs} (hi : k.i < k.m) :
    runChannel k s = orFault (copyPixel s k.c k.i (k.cursor + k.i) s.chbuf) fun chb =>
      runChannel (nextSlot k) ((s.setChbuf chb).setWork (.copy (nextSlot k))) := by
  have hleft : k.m - k.i = k.m - (k.i + 1) + 1 := by omega
  rw [runChannel, finishCopy, hleft, copyPixels, orFault_bind]
  refine congrArg (orFault _) (funext fun chb => ?_)
  rw [runChannel, finishCopy, copyPixels_setWork, copyPixels_setChbuf]
  rfl

/-- From inside a channel its pixels that are left, run one by one, answer what `DISPATCH_CH` answers: induction on the slots that
are left. -/
theorem copy_elementwise {slots : Nat} {k : CopyRegs} (hw : s.work = .copy k) (hpx : k.pixel = none)
    (hleft : k.m - k.i = slots) : ∃ n, runSteps n s = runChannel k s := by
  induction slots generalizing s k with
  | zero =>
    have hfetch : fetch s = .run (.dispatchCh k.c k.declared) s := (fetch_copy hw).trans (if_neg (by omega))
    exact ⟨1, (HeaderScan.runSteps_one s).trans ((step_run hfetch).trans (execDispatchCh_copy hw))⟩
  | succ slots ih =>
    have hi : k.i < k.m := by omega
    rw [runChannel_slot hi]
    exact runSteps_orFault (run_copy_slot hw hpx hi) fun chb =>
      ih (k := nextSlot k) rfl rfl (show k.m - (k.i + 1) = slots by omega)

/-- Before a kept channel the next step runs that channel. -/
theorem step_demux {c cursor : Nat} (hw : s.work = .demux c cursor) (hc : c < s.dec.nchan) :
    step s = runChannel (.start s c cursor (s.dec.lengthAt c)) s :=
  (step_run ((fetch_demux hw).trans (if_pos hc))).trans (execDispatchCh_demux hw hc rfl)

/-- Outside a scan `DISPATCH` is the dispatch function and then the render request (R113). -/
theorem exec_dispatch_eq (hf : s.fsm = .dispatching) (hw : ∀ r, s.work ≠ .scan r) :
    exec .dispatch s = orFault (dispatchBuffers s) fun chb =>
      .next ((((s.setChbuf chb).setWork .idle).record (.renderReq chb)).setFsm .rendering) := by
  show execDispatch s = _
  rw [execDispatch, enabledIn_self hf]
  cases h : s.work with
  | scan r => exact absurd h (hw r)
  | idle => rfl
  | demux c cursor => rfl
  | copy k => rfl

theorem dispatchBuffers_demux {c cursor : Nat} (hw : s.work = .demux c cursor) :
    dispatchBuffers s = finishDispatch s c cursor s.chbuf := by
  rw [dispatchBuffers, hw]

/-- What is left of a dispatch before a kept channel: that channel, then what is left after it. -/
theorem finishDispatch_channel {c : Nat} (cursor : Nat) (hc : c < s.dec.nchan) (chb : ChannelBuffers) :
    finishDispatch s c cursor chb =
      copyPixels s c cursor (copyCount s c (s.dec.lengthAt c) cursor) 0 chb >>=
        finishDispatch s (c + 1) (cursor + (s.dec.lengthAt c).toNat) := by
  have hleft : s.dec.nchan - c = s.dec.nchan - (c + 1) + 1 := by omega
  rw [finishDispatch, hleft]
  rfl

/-- `DISPATCH` is its next channel and then the rest of the dispatch. -/
theorem exec_dispatch_channel {c cursor : Nat} (hf : s.fsm = .dispatching) (hw : s.work = .demux c cursor)
    (hc : c < s.dec.nchan) :
    exec .dispatch s = orFault (finishCopy s (.start s c cursor (s.dec.lengthAt c))) fun chb =>
      exec .dispatch ((s.setChbuf chb).setWork (.demux (c + 1) (cursor + (s.dec.lengthAt c).toNat))) := by
  rw [exec_dispatch_eq hf (by simp [hw]), dispatchBuffers_demux hw, finishDispatch_channel cursor hc, orFault_bind]
  refine congrArg (orFault _) (funext fun chb => ?_)
  rw [exec_dispatch_eq (s := (s.setChbuf chb).setWork _) hf (by simp), dispatchBuffers_demux (State.setWork_work ..),
    finishDispatch_setWork, finishDispatch_setChbuf]
  rfl

/-- From before a channel the channels that are left, run one by one, answer what `DISPATCH` answers: induction on the channels that
are left. -/
theorem demux_elementwise {channels c cursor : Nat} (hf : s.fsm = .dispatching) (hw : s.work = .demux c cursor)
    (hleft : s.dec.nchan - c = channels) : ∃ n, runSteps n s = exec .dispatch s := by
  induction channels generalizing s c cursor with
  | zero => exact ⟨1, (HeaderScan.runSteps_one s).trans (step_run ((fetch_demux hw).trans (if_neg (by omega))))⟩
  | succ channels ih =>
    have hc : c < s.dec.nchan := by omega
    rw [exec_dispatch_channel hf hw hc]
    exact runSteps_orFault ((HeaderScan.runSteps_one s).trans (step_demux hw hc)) fun chb =>
      ih hf rfl (show s.dec.nchan - (c + 1) = channels by omega)

/-- Settles O55: `demux_elementwise` from before channel 0, `copy_elementwise` from before slot 0. -/
theorem dispatchIsElementwise : Obligations.DispatchIsElementwise := by
  refine ⟨fun s hf hw => ?_, fun s c cursor declared hw hc hd => ?_⟩
  · obtain ⟨k, hk⟩ := demux_elementwise (s := s.setWork (.demux 0 0)) hf rfl rfl
    have hsame : dispatchBuffers (s.setWork (.demux 0 0)) = dispatchBuffers s := by
      rw [dispatchBuffers_demux (State.setWork_work ..), finishDispatch_setWork, dispatchBuffers_idle hw]
      rfl
    have hmid := exec_dispatch_eq (s := s.setWork (.demux 0 0)) hf (by simp)
    rw [hsame] at hmid
    exact ⟨k, hk.trans (hmid.trans (exec_dispatch_eq hf (by simp [hw])).symm)⟩
  · obtain ⟨k, hk⟩ := copy_elementwise (s := s.setWork (.copy (.start s c cursor declared))) rfl rfl rfl
    exact ⟨k, hk.trans ((runChannel_setWork _ _).trans (execDispatchCh_demux hw hc hd).symm)⟩

end Sys2Proof.Proofs.Dispatch
end

section
/-! 41_dispatch.md R102, 30_encoding.md R58, R73: what a sender assembles is what the block delivers. The assembled bytes are read
off as pairs, terminator and triples (`Holds`); the scan of such a datagram stops at its terminator with the sender's lengths; and
pixel `j` of channel `c`, the triple `S(c) + j` of the payload, is what `DISPATCH` copies to slot `j` of buffer `c`. -/

namespace Sys2Proof.Proofs.Delivery

open Sys2Proof.Machine Sys2Proof.Proofs.Encoding Sys2Proof.Proofs.Dispatch

/-- A pixel as the sender writes it: its red, green and blue bytes. -/
abbrev Rgb := Byte × Byte × Byte

/-! ### The bytes that a sender assembles (R58, R73) -/

/-- The payload of given pixels (R58). -/
def pixelBytes (pixels : List Rgb) : List Byte := pixels.flatMap fun x => [x.1, x.2.1, x.2.2]

theorem pixelBytes_cons (x : Rgb) (pixels : List Rgb) :
    pixelBytes (x :: pixels) = x.1 :: x.2.1 :: x.2.2 :: pixelBytes pixels := rfl

theorem length_pixelBytes (pixels : List Rgb) : (pixelBytes pixels).length = 3 * pixels.length := by
  induction pixels with
  | nil => rfl
  | cons x pixels ih =>
    simp only [pixelBytes_cons, List.length_cons, ih]
    omega

/-- Pixel `q` stands at offset `3q` of the payload. -/
theorem getElem?_pixelBytes {pixels : List Rgb} {q : Nat} {x : Rgb} (h : pixels[q]? = some x) :
    (pixelBytes pixels)[3 * q]? = some x.1 ∧ (pixelBytes pixels)[3 * q + 1]? = some x.2.1 ∧
      (pixelBytes pixels)[3 * q + 2]? = some x.2.2 := by
  induction pixels generalizing q with
  | nil => simp at h
  | cons y pixels ih =>
    cases q with
    | zero =>
      obtain rfl : y = x := by simpa using h
      exact ⟨rfl, rfl, rfl⟩
    | succ q => exact ih h

theorem lengthPair_eq_some {v : Nat} {pair : List Byte} :
    lengthPair v = some pair ↔
      (v < 65536 ∧ v % 256 ≠ 255 ∧ v / 256 ≠ 255) ∧ pair = [BitVec.ofNat 8 v, BitVec.ofNat 8 (v / 256)] := by
  unfold lengthPair
  split
  · next h => simp [h, eq_comm]
  · next h => simp [h]

theorem lengthPairs_cons_eq_some {v : Nat} {lengths : List Nat} {header : List Byte} :
    lengthPairs (v :: lengths) = some header ↔
      ∃ pair rest, lengthPair v = some pair ∧ lengthPairs lengths = some rest ∧ header = pair ++ rest := by
  rw [lengthPairs]
  cases lengthPair v <;> cases lengthPairs lengths <;> simp [eq_comm]

theorem length_lengthPairs {lengths : List Nat} {header : List Byte} (h : lengthPairs lengths = some header) :
    header.length = 2 * lengths.length := by
  induction lengths generalizing header with
  | nil =>
    obtain rfl : [] = header := by simpa [lengthPairs] using h
    rfl
  | cons v lengths ih =>
    obtain ⟨pair, rest, hpair, hrest, rfl⟩ := lengthPairs_cons_eq_some.mp h
    obtain ⟨-, rfl⟩ := lengthPair_eq_some.mp hpair
    simp only [List.length_append, ih hrest, List.length_cons, List.length_nil]
    omega

/-- The pair of length `c` stands at offset `2c` of the header. -/
theorem getElem?_lengthPairs {lengths : List Nat} {header : List Byte} (h : lengthPairs lengths = some header) {c v : Nat}
    (hv : lengths[c]? = some v) :
    (v < 65536 ∧ v % 256 ≠ 255 ∧ v / 256 ≠ 255) ∧
      header[2 * c]? = some (BitVec.ofNat 8 v) ∧ header[2 * c + 1]? = some (BitVec.ofNat 8 (v / 256)) := by
  induction lengths generalizing header c with
  | nil => simp at hv
  | cons w lengths ih =>
    obtain ⟨pair, rest, hpair, hrest, rfl⟩ := lengthPairs_cons_eq_some.mp h
    obtain ⟨hw, rfl⟩ := lengthPair_eq_some.mp hpair
    cases c with
    | zero =>
      obtain rfl : w = v := by simpa using hv
      exact ⟨hw, rfl, rfl⟩
    | succ c => exact ih hrest hv

/-- The pair of an encodable length holds no sentinel and has the length's value (R59, R61). -/
theorem pair_of_encodable {v : Nat} (h : v < 65536 ∧ v % 256 ≠ 255 ∧ v / 256 ≠ 255) :
    BitVec.ofNat 8 v ≠ 0xFF ∧ BitVec.ofNat 8 (v / 256) ≠ 0xFF ∧
      (pairValue (BitVec.ofNat 8 v) (BitVec.ofNat 8 (v / 256))).toNat = v := by
  obtain ⟨hv, hlo, hhi⟩ := h
  have hhigh : v / 256 % 256 = v / 256 := Nat.mod_eq_of_lt (by omega)
  refine ⟨fun he => hlo (by simpa using congrArg BitVec.toNat he), fun he => hhi ?_, ?_⟩
  · simpa [hhigh] using congrArg BitVec.toNat he
  · rw [pairValue_toNat, BitVec.toNat_ofNat, BitVec.toNat_ofNat]
    omega

theorem assemble_eq_some {lengths : List Nat} {payload bytes : List Byte}
    (h : assemble [.hdr lengths, .bytes payload] = some bytes) :
    ∃ header, lengthPairs lengths = some header ∧ bytes = header ++ ([0xFF, 0x00] ++ payload) := by
  cases hheader : lengthPairs lengths with
  | none => simp [assemble, Item.assemble, hheader] at h
  | some header => exact ⟨header, rfl, by simpa [assemble, Item.assemble, hheader, eq_comm] using h⟩

/-! ### A receive buffer that holds an assembled datagram -/

/-- The first `n` bytes of the receive buffer are the sender's datagram of the channels' pixels: the pair of each channel's length,
a terminator, the pixels of channel after channel (R58). -/
structure Holds (buf : Memory) (n : Nat) (pixels : List (List Rgb)) : Prop where
  size : n = 2 * (pixels.length + 1) + 3 * pixels.flatten.length
  pair : ∀ (c : Nat) (hc : c < pixels.length), ¬ sentinelAt buf c ∧ (pairAt buf c).toNat = pixels[c].length
  stop : sentinelAt buf pixels.length
  triple : ∀ (q : Nat) (x : Rgb), pixels.flatten[q]? = some x →
    buf.read (2 * (pixels.length + 1) + 3 * q) = x.1 ∧ buf.read (2 * (pixels.length + 1) + 3 * q + 1) = x.2.1 ∧
      buf.read (2 * (pixels.length + 1) + 3 * q + 2) = x.2.2

theorem holds_of_assemble {pixels : List (List Rgb)} {bytes : List Byte}
    (h : assemble [.hdr (pixels.map List.length), .bytes (pixelBytes pixels.flatten)] = some bytes) {buf : Memory}
    (hread : ∀ i b, bytes[i]? = some b → buf.read i = b) : Holds buf bytes.length pixels := by
  obtain ⟨header, hheader, rfl⟩ := assemble_eq_some h
  have hlen : header.length = 2 * pixels.length := by rw [length_lengthPairs hheader, List.length_map]
  have atHeader : ∀ i b, header[i]? = some b → buf.read i = b := fun i b hb =>
    hread i b (by rw [List.getElem?_append_left (List.getElem?_eq_some_iff.mp hb).1, hb])
  have afterHeader : ∀ i b, ([0xFF, 0x00] ++ pixelBytes pixels.flatten)[i]? = some b →
      buf.read (2 * pixels.length + i) = b := fun i b hb =>
    hread _ b (by rw [← hlen, List.getElem?_append_right (Nat.le_add_right ..), Nat.add_sub_cancel_left, hb])
  have inPayload : ∀ i b, (pixelBytes pixels.flatten)[i]? = some b → buf.read (2 * (pixels.length + 1) + i) = b :=
    fun i b hb => by
      have hread' := afterHeader (i + 2) b hb
      rwa [show 2 * pixels.length + (i + 2) = 2 * (pixels.length + 1) + i by omega] at hread'
  refine ⟨?_, fun c hc => ?_, .inl (afterHeader 0 0xFF rfl), fun q x hx => ?_⟩
  · simp only [List.length_append, hlen, length_pixelBytes, List.length_cons, List.length_nil]
    omega
  · obtain ⟨henc, hlo, hhi⟩ := getElem?_lengthPairs hheader (c := c) (v := pixels[c].length) (by simp [hc])
    obtain ⟨hlo', hhi', hvalue⟩ := pair_of_encodable henc
    rw [sentinelAt, pairAt, atHeader _ _ hlo, atHeader _ _ hhi]
    exact ⟨not_or.mpr ⟨hlo', hhi'⟩, hvalue⟩
  · obtain ⟨hr, hg, hb⟩ := getElem?_pixelBytes hx
    exact ⟨inPayload _ _ hr, inPayload _ _ hg, inPayload _ _ hb⟩

/-! ### The frame of an assembled datagram (R78, R83, R84) -/

/-- The scan registers after the header of an assembled datagram. -/
def sentRegs (maxCh : Nat) (buf : Memory) (channels : Nat) : ScanRegs :=
  ⟨channels, true, (List.range (min channels maxCh)).map (pairAt buf)⟩

/-- The frame of an assembled datagram of `n` bytes. -/
def sentFrame (maxCh : Nat) (buf : Memory) (n channels : Nat) : DecodedFrame := frameOf maxCh n (sentRegs maxCh buf channels)

theorem sentFrame_nchan {maxCh channels : Nat} (hfit : channels ≤ maxCh) (buf : Memory) (n : Nat) :
    (sentFrame maxCh buf n channels).nchan = channels := Nat.min_eq_left hfit

theorem sentFrame_offset (maxCh : Nat) (buf : Memory) (n channels : Nat) :
    (sentFrame maxCh buf n channels).offset = 2 * (channels + 1) := rfl

section Frame

variable {buf : Memory} {n : Nat} {pixels : List (List Rgb)} (h : Holds buf n pixels)
include h

/-- The scan passes every pair and stops at the terminator. -/
theorem sent_scanned (maxCh : Nat) : Scanned maxCh buf n (sentRegs maxCh buf pixels.length) := by
  have hsize := h.size
  refine ⟨fun c hc => ?_, fun _ => ?_, nofun, rfl⟩
  · have hc : c < pixels.length := hc
    obtain ⟨hgo, -⟩ := h.pair c hc
    exact ⟨by omega, hgo⟩
  · have hin : 2 * pixels.length + 2 ≤ n := by omega
    exact ⟨hin, h.stop⟩

/-- The frame's total is the number of pixels sent. -/
theorem sent_total (maxCh : Nat) : (sentFrame maxCh buf n pixels.length).total = pixels.flatten.length := by
  have hsize := h.size
  simp only [sentFrame, frameOf, payloadOffset, sentRegs, Bool.toNat_true]
  omega

variable {maxCh : Nat} (hfit : pixels.length ≤ maxCh) {d : DecodedFrame}
  (hd : d = sentFrame maxCh buf n pixels.length)
include hfit hd

theorem sent_lengthAt {c : Nat} (hc : c < pixels.length) : (d.lengthAt c).toNat = pixels[c].length := by
  have hkept : d.lengths[c]? = some (pairAt buf c) := by
    rw [hd]
    exact HeaderScan.getElem?_kept (sent_scanned h maxCh) (lt_min hc (hc.trans_le hfit))
  obtain ⟨-, hvalue⟩ := h.pair c hc
  rw [DecodedFrame.lengthAt, List.getD_eq_getElem?_getD, hkept]
  exact hvalue

/-- `S(c)` is the number of pixels of the channels before `c` (R96). -/
theorem sent_cursorAt {c : Nat} (hc : c ≤ pixels.length) : d.cursorAt c = ((pixels.map List.length).take c).sum := by
  induction c with
  | zero => rfl
  | succ c ih =>
    rw [d.cursorAt_succ, ih (by omega), sent_lengthAt h hfit hd hc, List.sum_take_succ _ c (by simpa using hc),
      List.getElem_map]

/-- Every channel's slice lies inside the payload. -/
theorem sent_slice_le_total {c : Nat} (hc : c < pixels.length) : d.cursorAt c + pixels[c].length ≤ d.total := by
  have hslice := slice_le_cursorAt d hc
  have hend : d.cursorAt pixels.length = d.total := by
    rw [sent_cursorAt h hfit hd le_rfl, hd, sent_total h, List.length_flatten]
    exact congrArg List.sum (List.take_of_length_le (List.length_map _).le)
  rwa [sent_lengthAt h hfit hd hc, hend] at hslice

/-- Pixel `j` of channel `c` is triple `S(c) + j` of the payload. -/
theorem sent_flatten_getElem? {c j : Nat} (hc : c < pixels.length) (hj : j < pixels[c].length) :
    pixels.flatten[d.cursorAt c + j]? = some pixels[c][j] := by
  rw [sent_cursorAt h hfit hd hc.le, ← List.getElem?_drop, List.drop_sum_flatten, List.drop_eq_getElem_cons hc,
    List.flatten_cons, List.getElem?_append_left hj, List.getElem?_eq_getElem hj]

end Frame

/-! ### The dispatch of an assembled datagram (R98, R100, R102) -/

section Slots

variable {u : State} {pixels : List (List Rgb)} (h : Holds u.rxBuf u.rxLen pixels)
  (hfit : pixels.length ≤ u.cfg.maxChannels)
  (hd : u.dec = sentFrame u.cfg.maxChannels u.rxBuf u.rxLen pixels.length)
include h hfit hd

/-- Nothing but the buffer's capacity clamps a channel of a well-formed datagram. -/
theorem sent_copied {c : Nat} (hc : c < pixels.length) : u.copied c = min pixels[c].length (u.cfg.capOf c) := by
  have hslice := sent_slice_le_total h hfit hd hc
  rw [State.copied, sent_lengthAt h hfit hd hc]
  omega

theorem sent_pixelAt {c j : Nat} (hc : c < pixels.length) (hj : j < pixels[c].length) :
    pixelAt u (u.dec.cursorAt c + j) =
      .ok (pixelWord pixels[c][j].1 pixels[c][j].2.1 pixels[c][j].2.2) := by
  have hx := sent_flatten_getElem? h hfit hd hc hj
  obtain ⟨hr, hg, hb⟩ := h.triple _ _ hx
  obtain ⟨hq, -⟩ := List.getElem?_eq_some_iff.mp hx
  have hoffset : u.dec.offset = 2 * (pixels.length + 1) := by rw [hd, sentFrame_offset]
  have hsize := h.size
  rw [pixelAt_inside (by omega), hoffset, hr, hg, hb]

/-- What `dispatchBuffers_read` says of a slot, in the sender's terms. -/
theorem sent_slot (chb : ChannelBuffers) (c j : Nat) :
    (if c < u.dec.nchan ∧ j < u.copied c then pixelAt u (u.dec.cursorAt c + j) else memReadChb u.cfg chb c j) =
      if j < u.cfg.capOf c then
        match (pixels.getD c [])[j]? with
        | some x => .ok (pixelWord x.1 x.2.1 x.2.2)
        | none => memReadChb u.cfg chb c j
      else .error .chbOob := by
  have hnchan : u.dec.nchan = pixels.length := by rw [hd, sentFrame_nchan hfit]
  rw [hnchan]
  by_cases hcap : j < u.cfg.capOf c
  · rw [if_pos hcap]
    by_cases hc : c < pixels.length
    · have hcopied := sent_copied h hfit hd hc
      rw [List.getD_eq_getElem _ _ hc]
      by_cases hj : j < pixels[c].length
      · rw [if_pos ⟨hc, by omega⟩, List.getElem?_eq_getElem hj, sent_pixelAt h hfit hd hc hj]
      · rw [if_neg (by omega), List.getElem?_eq_none (by omega)]
    · rw [if_neg (fun hin => hc hin.1), List.getD_eq_default _ _ (by omega)]
      rfl
  · have hclamp : u.copied c ≤ u.cfg.capOf c := Nat.min_le_right ..
    rw [if_neg hcap, if_neg (by omega), memReadChb_no_slot (by omega)]

end Slots

/-! ### Receive, decode, dispatch (R109, R112, R113) -/

/-- The state after `RX_DATA` (R109). -/
def received (bytes : List Byte) (s : State) : State :=
  ((receive bytes s).record (.input (.rx bytes.length bytes))).setFsm .decoding

/-- The state after `DECODE` with a frame (R112). -/
def decodedAs (d : DecodedFrame) (s : State) : State := ((s.setDec d).setWork .idle).setFsm .dispatching

theorem exec_rxData {s : State} {bytes : List Byte} (hf : s.fsm = .waitingForPacket) (hmin : 4 ≤ bytes.length)
    (hmax : bytes.length ≤ s.cfg.messageSize) : exec (.rxData bytes.length bytes) s = .next (received bytes s) :=
  execRxData_next.mpr ⟨hf, by omega, dutyKept_iff.mpr ⟨rfl, hmax⟩, rfl⟩

theorem exec_decode {s : State} {d : DecodedFrame} (hf : s.fsm = .decoding) (hw : s.work = .idle)
    (hd : decodeFrame s.cfg.maxChannels s.rxBuf s.rxLen = .ok (.ok d)) : exec .decode s = .next (decodedAs d s) :=
  execDecode_next.mpr ⟨hf, .inl ⟨hw, runDecode_next.mpr (.inr ⟨d, hd, rfl⟩)⟩⟩

theorem received_read {s : State} (hwf : s.rxBuf.wf) {bytes : List Byte} {i : Nat} {b : Byte} (hb : bytes[i]? = some b) :
    (received bytes s).rxBuf.read i = b := by
  obtain ⟨hi, hbi⟩ := List.getElem?_eq_some_iff.mp hb
  exact (Datagram.receive_read hwf bytes i).trans ((dif_pos hi).trans hbi)

/-- Settles O28: received, the assembled bytes are held by the receive buffer; decoded, they give the sender's frame; dispatched,
each slot holds what `sent_slot` says. -/
theorem wellFormedDatagramDelivered : Obligations.WellFormedDatagramDelivered := by
  rintro s lengths pixels bytes hinv hfsm hw hbytes rfl hfit hmin hmax
  rw [List.length_map] at hfit
  have hholds : Holds (received bytes s).rxBuf bytes.length pixels :=
    holds_of_assemble hbytes fun _ _ => received_read hinv.rxCanonical
  obtain ⟨d, hd⟩ : ∃ d, d = sentFrame s.cfg.maxChannels (received bytes s).rxBuf bytes.length pixels.length := ⟨_, rfl⟩
  have hframe : decodeFrame s.cfg.maxChannels (received bytes s).rxBuf bytes.length = .ok (.ok d) :=
    hd ▸ HeaderScan.decodeFrame_of_scanned hmin (sent_scanned hholds s.cfg.maxChannels)
  obtain ⟨chb, hdispatch, -, hread⟩ := dispatchResult (decodedAs d (received bytes s)) rfl rfl hinv.cfgLegal hinv.chbShaped
    (State.frameCurrent_fits hframe)
  exact ⟨_, _, _, exec_rxData hfsm hmin hmax, exec_decode rfl hw hframe, hdispatch,
    fun c j => (hread c j).trans (sent_slot (u := decodedAs d (received bytes s)) hholds hfit hd s.chbuf c j)⟩

end Sys2Proof.Proofs.Delivery
end

section
/-! 42_control.md R124(d), (e), 10_state.md R19: a loop with a cancellation pending. What one instruction can do to the reads of such a
loop is said once (`exec_readMove`): it takes no receive result and leads to no new wait, or it takes one and ends the wait. So the
results taken together with the wait still open never grow, and a run takes at most the one result that it was waiting for. -/

namespace Sys2Proof.Proofs.CancelledLoop

open Sys2Proof.Machine

variable {s t : State}

/-! ### The flag stays 0 (R19) -/

theorem exec_stays_cancelled {i : Instr} (hl : s.continueLooping = false) (h : exec i s = .next t) :
    t.continueLooping = false := by
  by_cases hsame : t.continueLooping = s.continueLooping
  · exact hsame.trans hl
  · obtain ⟨-, hclear, -⟩ := Registers.loopingFlagWriters i s t h hsame
    exact hclear

/-! ### The reads of one instruction (R105, R109 to R111) -/

theorem rxCount_snoc (tr : List Event) (e : Event) : rxCount (tr ++ [e]) = rxCount tr + rxCount [e] :=
  List.countP_append

/-- How an instruction of a cancelled loop changes the reads: it takes no receive result and starts no wait for one, or it takes the
one that was waited for and ends the wait. -/
inductive ReadMove (s t : State) : Prop
  | quiet (same : rxCount t.trace = rxCount s.trace) (noWait : t.fsm = .waitingForPacket → s.fsm = .waitingForPacket)
  | taken (waited : s.fsm = .waitingForPacket) (ended : t.fsm ≠ .waitingForPacket)
      (one : rxCount t.trace = rxCount s.trace + 1)

/-- With a cancellation pending the loop head starts no wait (R105). -/
theorem loopHead_cancelled (hl : s.continueLooping = false) (h : loopHead s = .next t) :
    t.fsm = .shutdown ∧ t.trace = s.trace := by
  rcases loopHead_next.mp h with ⟨hgo, -⟩ | ⟨-, -, rfl⟩
  · exact absurd (hl.symm.trans hgo) nofun
  · exact ⟨rfl, rfl⟩

/-- An instruction that leaves `fsm` and the trace alone. -/
theorem readMove_of_same (hf : t.fsm = s.fsm) (ht : t.trace = s.trace) : ReadMove s t :=
  .quiet (congrArg rxCount ht) fun hw => hf.symm.trans hw

/-- An instruction that records something else than a receive result and does not lead to a wait. -/
theorem readMove_of_record {e : Event} (he : rxCount [e] = 0) (ht : t.trace = s.trace ++ [e])
    (hf : t.fsm ≠ .waitingForPacket) : ReadMove s t :=
  .quiet (by rw [ht, rxCount_snoc, he, Nat.add_zero]) fun hw => absurd hw hf

/-- A receive result taken, after which the block does not wait. -/
theorem readMove_of_rx {r : Int} {bytes : List Byte} (hs : s.fsm = .waitingForPacket)
    (ht : t.trace = s.trace ++ [.input (.rx r bytes)]) (hf : t.fsm ≠ .waitingForPacket) : ReadMove s t :=
  .taken hs hf (by rw [ht, rxCount_snoc]; rfl)

/-- The loop head, run without an event recorded before it. -/
theorem loopHead_readMove {u : State} (hl : u.continueLooping = false) (h : loopHead u = .next t) (hu : u.trace = s.trace) :
    ReadMove s t := by
  obtain ⟨hf, ht⟩ := loopHead_cancelled hl h
  exact .quiet (congrArg rxCount (ht.trans hu)) fun hw => absurd (hf.symm.trans hw) nofun

theorem runDecode_readMove (hl : s.continueLooping = false) {r : ScanRegs} (h : runDecode r s = .next t) :
    ReadMove s t := by
  rcases runDecode_next.mp h with ⟨-, hh⟩ | ⟨frame, -, rfl⟩
  · exact loopHead_readMove (u := s.setWork .idle) hl hh rfl
  · exact .quiet rfl nofun

theorem runChannel_readMove {k : CopyRegs} (h : runChannel k s = .next t) : ReadMove s t := by
  obtain ⟨chb, -, rfl⟩ := runChannel_next.mp h
  exact readMove_of_same rfl rfl

theorem fatalTarget_ne_waiting (p : Params) (e : FatalError) : fatalTarget p e ≠ .waitingForPacket := by
  cases e with
  | initError => exact nofun
  | renderError => cases hfin : p.finalizeOnFatal <;> simp [fatalTarget, hfin]

/-- What each instruction of a cancelled loop does to the reads. -/
theorem exec_readMove {i : Instr} (hl : s.continueLooping = false) (h : exec i s = .next t) : ReadMove s t := by
  cases i with
  | len lo hi => obtain ⟨r, -, -, rfl⟩ := execLen_next.mp h; exact readMove_of_same rfl rfl
  | termL hi => obtain ⟨r, -, -, rfl⟩ := (execTermL_next (hi := hi)).mp h; exact readMove_of_same rfl rfl
  | termH lo => obtain ⟨r, -, -, rfl⟩ := (execTermH_next (lo := lo)).mp h; exact readMove_of_same rfl rfl
  | pix r g b => obtain ⟨k, -, rfl⟩ := execPix_next.mp h; exact readMove_of_same rfl rfl
  | tail bytes => obtain rfl := next_iff.mp h; exact readMove_of_same rfl rfl
  | dispatchCh c declared =>
    obtain ⟨cursor, -, -, hr⟩ | ⟨k, -, -, -, hr⟩ := execDispatchCh_next.mp h
    · exact runChannel_readMove hr
    · exact runChannel_readMove hr
  | copyPx c j q => obtain ⟨k, chb, -, -, -, rfl⟩ := execCopyPx_next.mp h; exact readMove_of_same rfl rfl
  | initReq => obtain ⟨-, rfl⟩ := execInitReq_next.mp h; exact readMove_of_record rfl rfl nofun
  | initOk =>
    obtain ⟨-, hh⟩ := execInitOk_next.mp h
    obtain ⟨hf, ht⟩ := loopHead_cancelled (s := s.record _) hl hh
    exact readMove_of_record rfl ht (by simp [hf])
  | initFail => obtain ⟨-, -, rfl⟩ := execInitFail_next.mp h; exact readMove_of_record rfl rfl nofun
  | rxData r bytes => obtain ⟨hs, -, -, rfl⟩ := execRxData_next.mp h; exact readMove_of_rx hs rfl nofun
  | rxShort r bytes =>
    obtain ⟨hs, -, -, hh⟩ := execRxShort_next.mp h
    obtain ⟨hf, ht⟩ := loopHead_cancelled (s := (receive bytes s).record _) hl hh
    exact readMove_of_rx hs ht (by simp [hf])
  | rxError r =>
    obtain ⟨hs, -, hh⟩ := execRxError_next.mp h
    obtain ⟨hf, ht⟩ := loopHead_cancelled (s := s.record _) hl hh
    exact readMove_of_rx hs ht (by simp [hf])
  | decode =>
    obtain ⟨-, ⟨-, hr⟩ | ⟨r, -, hr⟩⟩ := execDecode_next.mp h
    · exact runDecode_readMove hl hr
    · exact runDecode_readMove hl hr
  | dispatch => obtain ⟨-, -, chb, -, rfl⟩ := execDispatch_next.mp h; exact readMove_of_record rfl rfl nofun
  | renderOk => obtain ⟨-, rfl⟩ := execRenderOk_next.mp h; exact readMove_of_record rfl rfl nofun
  | renderFail =>
    obtain ⟨-, -, rfl⟩ := execRenderFail_next.mp h
    exact readMove_of_record rfl rfl (fatalTarget_ne_waiting s.cfg .renderError)
  | pace => exact loopHead_readMove hl (execPace_next.mp h).2 rfl
  | cancel =>
    obtain rfl := execCancel_next.mp h
    exact .quiet (rxCount_snoc s.trace (.input .cancel)) id
  | finalize => obtain ⟨-, -, rfl⟩ := execFinalize_next.mp h; exact readMove_of_record rfl rfl nofun

/-! ### The reads of a run (R124(d), (e)) -/

/-- The receive results that a cancelled loop can still take: the one it waits for. -/
def readsLeft (f : Fsm) : Nat := if f = .waitingForPacket then 1 else 0

/-- From `s` a cancelled loop has come to `t`: the flag is still 0, and what `t` has taken more than `s` is among what `s` had left. -/
structure Spent (s t : State) : Prop where
  cancelled : t.continueLooping = false
  grown : rxCount s.trace ≤ rxCount t.trace
  within : rxCount t.trace + readsLeft t.fsm ≤ rxCount s.trace + readsLeft s.fsm

theorem readMove_within (h : ReadMove s t) :
    rxCount s.trace ≤ rxCount t.trace ∧ rxCount t.trace + readsLeft t.fsm ≤ rxCount s.trace + readsLeft s.fsm := by
  cases h with
  | quiet same noWait =>
    have hleft : readsLeft t.fsm ≤ readsLeft s.fsm := by
      by_cases hw : t.fsm = .waitingForPacket
      · rw [hw, noWait hw]
      · simp [readsLeft, hw]
    omega
  | taken waited ended one =>
    have hs : readsLeft s.fsm = 1 := if_pos waited
    have ht : readsLeft t.fsm = 0 := if_neg ended
    omega

theorem spent_step {u : State} (h : Spent s t) (hstep : step t = .next u) : Spent s u := by
  obtain ⟨i, v, hfetch, hexec⟩ := step_next hstep
  obtain ⟨os, rfl⟩ := fetch_run hfetch
  have hl : (t.setInputs os).continueLooping = false := h.cancelled
  obtain ⟨hgrown, hwithin⟩ := readMove_within (exec_readMove hl hexec)
  exact ⟨exec_stays_cancelled hl hexec, h.grown.trans hgrown, hwithin.trans h.within⟩

/-- Settles O58: every step keeps `Spent`, so a run does; one result is left in `WAITING_FOR_PACKET` and none elsewhere. -/
theorem cancelledLoopReadsNoMore : Obligations.CancelledLoopReadsNoMore := by
  intro n s t hl hrun
  have h : Spent s t := runSteps_keeps (fun _ _ => spent_step) n ⟨hl, le_rfl, le_rfl⟩ hrun
  have hgrown := h.grown
  have hwithin := h.within
  refine ⟨h.cancelled, ?_, fun hs => ?_⟩
  · have hone : readsLeft s.fsm ≤ 1 := by
      unfold readsLeft
      split <;> decide
    omega
  · have hnone : readsLeft s.fsm = 0 := if_neg hs
    refine ⟨by omega, fun hw => ?_⟩
    have hopen : readsLeft t.fsm = 1 := if_pos hw
    omega

end Sys2Proof.Proofs.CancelledLoop
end

section
/-! 42_control.md R104, R119, R121: where an instruction has no step. Each control step but `CANCEL` has one `From` state
(`fromState`), and each element one form of the working registers; outside them it is not enabled. A receive result that breaks the
socket's duty is refused by name (log 9). -/

namespace Sys2Proof.Proofs.Enabling

open Sys2Proof.Machine

variable {s t : State}

/-! ### The `From` state of a control step (R104) -/

/-- The `From` column of R104; `CANCEL` and the elements have none. -/
def fromState : Instr → Option Fsm
  | .initReq => some .init
  | .initOk => some .initWait
  | .initFail => some .initWait
  | .rxData _ _ => some .waitingForPacket
  | .rxShort _ _ => some .waitingForPacket
  | .rxError _ => some .waitingForPacket
  | .decode => some .decoding
  | .dispatch => some .dispatching
  | .renderOk => some .rendering
  | .renderFail => some .rendering
  | .pace => some .pacedIdle
  | .finalize => some .shutdown
  | _ => none

theorem enabledIn_other {f : Fsm} {body : StepOutcome} (h : s.fsm ≠ f) : enabledIn f s body = .refused .notEnabled :=
  if_neg h

/-- Outside its `From` state a control step is not enabled (R119). -/
theorem exec_outside {i : Instr} {f : Fsm} (hi : fromState i = some f) (hf : s.fsm ≠ f) :
    exec i s = .refused .notEnabled := by
  cases i with
  | len | termL | termH | pix | tail | dispatchCh | copyPx | cancel => exact absurd hi nofun
  | initReq | initOk | initFail | rxData | rxShort | rxError | decode | dispatch | renderOk | renderFail | pace | finalize =>
    cases hi
    exact enabledIn_other hf

/-! ### The working registers of an element (log 6, log 8) -/

/-- Where no scan is open a header element is not enabled. -/
theorem inScan_closed (h : ∀ r, s.work = .scan r → r.terminated = true) (f : ScanRegs → ScanRegs) :
    inScan s f = .refused .notEnabled := by
  unfold inScan
  cases hw : s.work with
  | scan r => exact if_pos (h r hw)
  | idle => rfl
  | demux c cursor => rfl
  | copy k => rfl

theorem execPix_outside (h : ∀ k, s.work ≠ .copy k) (r g b : Byte) : execPix r g b s = .refused .notEnabled := by
  unfold execPix
  cases hw : s.work with
  | copy k => exact absurd hw (h k)
  | idle => rfl
  | scan r => rfl
  | demux c cursor => rfl

theorem execCopyPx_outside (h : ∀ k, s.work ≠ .copy k) (c i q : Nat) : execCopyPx c i q s = .refused .notEnabled := by
  unfold execCopyPx
  cases hw : s.work with
  | copy k => exact absurd hw (h k)
  | idle => rfl
  | scan r => rfl
  | demux c cursor => rfl

theorem execDispatchCh_outside (hd : ∀ c cursor, s.work ≠ .demux c cursor) (hk : ∀ k, s.work ≠ .copy k) (c : Nat)
    (declared : HalfWord) : execDispatchCh c declared s = .refused .notEnabled := by
  unfold execDispatchCh
  cases hw : s.work with
  | demux c cursor => exact absurd hw (hd c cursor)
  | copy k => exact absurd hw (hk k)
  | idle => rfl
  | scan r => rfl

theorem execDecode_outside_scan (hs : ∀ r, s.work ≠ .scan r) (hi : s.work ≠ .idle) :
    execDecode s = .refused .notEnabled := by
  by_cases hf : s.fsm = .decoding
  · rw [execDecode, enabledIn_self hf]
    cases hw : s.work with
    | idle => exact absurd hw hi
    | scan r => exact absurd hw (hs r)
    | demux c cursor => rfl
    | copy k => rfl
  · exact enabledIn_other hf

theorem execDispatch_inside_scan {r : ScanRegs} (hw : s.work = .scan r) : execDispatch s = .refused .notEnabled := by
  by_cases hf : s.fsm = .dispatching
  · rw [execDispatch, enabledIn_self hf, hw]
  · exact enabledIn_other hf

/-! ### The operands of a micro-operation (R94, R95) -/

theorem execDispatchCh_other_channel {c cursor m : Nat} {v : HalfWord} (hw : s.work = .demux c cursor)
    (h : ¬ (m = c ∧ m < s.dec.nchan ∧ v = s.dec.lengthAt m)) : execDispatchCh m v s = .refused .notEnabled := by
  rw [execDispatchCh, hw]
  exact if_neg fun ⟨hm, hch⟩ => h ⟨hm, isChannel_iff.mp hch⟩

theorem execDispatchCh_other_copy {k : CopyRegs} {m : Nat} {v : HalfWord} (hw : s.work = .copy k)
    (h : ¬ (m = k.c ∧ v = k.declared)) : execDispatchCh m v s = .refused .notEnabled := by
  rw [execDispatchCh, hw]
  exact if_neg h

theorem execCopyPx_other {k : CopyRegs} {m i q : Nat} (hw : s.work = .copy k)
    (h : ¬ (m = k.c ∧ i = k.i ∧ i < k.m ∧ q = k.cursor + k.i)) : execCopyPx m i q s = .refused .notEnabled := by
  rw [execCopyPx, hw]
  exact if_neg h

/-- Settles O40: the control steps by their `From` states, the elements by the working registers and the operands. -/
theorem stepsOnlyWhereEnabled : Obligations.StepsOnlyWhereEnabled := by
  refine ⟨fun s x hx hf => exec_outside ?listed hf,
    fun s r bytes hf => ⟨exec_outside rfl hf, exec_outside rfl hf, exec_outside rfl hf⟩,
    fun s => execDecode_outside_scan, fun s r => execDispatch_inside_scan,
    fun s a b h => ⟨inScan_closed h _, inScan_closed h _, inScan_closed h _⟩,
    fun s a b c m i q h => ⟨execPix_outside h a b c, execCopyPx_outside h m i q⟩,
    fun s m v hd hk => execDispatchCh_outside hd hk m v,
    fun s c cursor m v hw h => execDispatchCh_other_channel hw ?channel,
    fun s k m v hw h => execDispatchCh_other_copy hw ?copy, fun s k m i q hw h => execCopyPx_other hw ?slot⟩
  case listed =>
    clear hf
    revert x
    decide
  case channel =>
    rintro ⟨hm, hc, hv⟩
    exact h.elim (· hm) fun h => h.elim (Nat.not_le.mpr hc) (· hv)
  case copy =>
    rintro ⟨hm, hv⟩
    exact h.elim (· hm) (· hv)
  case slot =>
    rintro ⟨hm, hi, hlt, hq⟩
    omega

/-- Between control steps an instruction that has a next state is `CANCEL`, a tail, or a control step in its `From` state. -/
theorem exec_between {i : Instr} (hw : s.work = .idle) (h : exec i s = .next t) :
    i = .cancel ∨ (∃ bytes, i = .tail bytes) ∨ fromState i = some s.fsm := by
  have refuses {o : StepOutcome} (ho : o = .refused .notEnabled) : o ≠ .next t := ho ▸ nofun
  cases i with
  | cancel => exact .inl rfl
  | tail bytes => exact .inr (.inl ⟨bytes, rfl⟩)
  | len lo hi => exact absurd h (refuses (inScan_closed (by simp [hw]) _))
  | termL hi => exact absurd h (refuses (inScan_closed (by simp [hw]) _))
  | termH lo => exact absurd h (refuses (inScan_closed (by simp [hw]) _))
  | pix r g b => exact absurd h (refuses (execPix_outside (by simp [hw]) r g b))
  | dispatchCh c v => exact absurd h (refuses (execDispatchCh_outside (by simp [hw]) (by simp [hw]) c v))
  | copyPx c j q => exact absurd h (refuses (execCopyPx_outside (by simp [hw]) c j q))
  | initReq | initOk | initFail | rxData | rxShort | rxError | decode | dispatch | renderOk | renderFail | pace | finalize =>
    refine .inr (.inr ?_)
    by_contra hf
    exact refuses (exec_outside rfl fun he => hf (congrArg some he.symm)) h

/-! ### The duty of the socket (R121, log 9) -/

theorem onDuty_broken {p : Params} {r : Int} {bytes : List Byte} {body : StepOutcome}
    (h : ¬ (bytes.length = r.toNat ∧ r.toNat ≤ p.messageSize)) : onDuty p r bytes body = .refused .hostDuty :=
  if_neg (mt dutyKept_iff.mp h)

/-- Settles O41: a result of another class is refused before its duty is looked at, one of the class by its duty. -/
theorem brokenDutyRefused : Obligations.BrokenDutyRefused := by
  refine fun s r bytes hf => ⟨fun h => (enabledIn_self hf).trans ?_, fun h => (enabledIn_self hf).trans ?_,
    fun h => (enabledIn_self hf).trans (if_neg (Int.not_lt.mpr h))⟩
  · by_cases hclass : 4 ≤ r
    · rw [if_pos hclass]
      exact onDuty_broken (by omega)
    · rw [if_neg hclass]
  · by_cases hclass : 0 ≤ r ∧ r ≤ 3
    · rw [if_pos hclass]
      exact onDuty_broken (by omega)
    · rw [if_neg hclass]

end Sys2Proof.Proofs.Enabling
end

section
/-! 42_control.md R105 to R118: the next state of each control step. The steps that end in the loop head go through `loopHead_eq`. -/

namespace Sys2Proof.Proofs.ControlSteps

open Sys2Proof.Machine

variable {s t : State}

/-! ### The loop head (R105) -/

theorem loopHead_eq (h : s.continueLooping = false → s.exitStatus = .none) : loopHead s = .next s.atLoopHead := by
  rw [State.atLoopHead]
  split
  · next hl => exact loopHead_next.mpr (.inl ⟨hl, rfl⟩)
  · next hl =>
    have hl : s.continueLooping = false := Bool.eq_false_iff.mpr hl
    exact loopHead_next.mpr (.inr ⟨hl, h hl, rfl⟩)

/-- Where the loop head leads does not depend on where the block stood. -/
theorem atLoopHead_setFsm (s : State) (f : Fsm) : (s.setFsm f).atLoopHead = s.atLoopHead := by
  unfold State.atLoopHead
  rfl

/-! ### The start (R106 to R108) -/

/-- Settles O29: `INIT` is the `From` state of `INIT_REQ`. -/
theorem initReqResult : Obligations.InitReqResult := fun _ hf => execInitReq_next.mpr ⟨hf, rfl⟩

/-- Settles O30: the answer is recorded, then the loop head runs. -/
theorem initOkResult : Obligations.InitOkResult := fun s hf h =>
  (enabledIn_self hf).trans (loopHead_eq (s := s.record (.input (.initResp true))) h)

/-- Settles O31: the fatal error finds `exit_status` unset. -/
theorem initFailResult : Obligations.InitFailResult := fun _ hf hx => execInitFail_next.mpr ⟨hf, hx, rfl⟩

/-! ### The receive results (R109 to R111) -/

/-- Settles O32: the result is on duty and of its class. -/
theorem rxDataResult : Obligations.RxDataResult := fun _ _ hf hmin hmax => Delivery.exec_rxData hf hmin hmax

/-- Settles O33: the bytes are received, then the loop head runs. -/
theorem rxShortResult : Obligations.RxShortResult := fun s bytes hf hmax hsize h =>
  (Registers.execRxShort_onDuty hf hmax hsize).trans
    (loopHead_eq (s := (receive bytes s).record (.input (.rx bytes.length bytes))) h)

/-- Settles O34: nothing is received, and the loop head runs. -/
theorem rxErrorResult : Obligations.RxErrorResult := fun s r hf hr h =>
  (Registers.execRxError_negative hf hr).trans (loopHead_eq (s := s.record (.input (.rx r []))) h)

/-! ### The dead branch of `DECODE` (R112, R125, R126) -/

/-- Settles O18: too few bytes are a drop, which is the loop head with nothing recorded. -/
theorem decodeDropsShort : Obligations.DecodeDropsShort := by
  refine ⟨fun maxCh buf n => decodeFrame_short maxCh buf, rfl, rfl, fun s hf hw hn h => ?_⟩
  calc exec .decode s = loopHead (s.setWork .idle) := Registers.execDecode_short hf hw hn
    _ = loopHead s := by rw [HeaderScan.setWork_idle_eq hw]
    _ = .next s.atLoopHead := loopHead_eq h

/-! ### The render and the pace (R114 to R116) -/

/-- Settles O35: `RENDERING` is the `From` state of `RENDER_OK`. -/
theorem renderOkResult : Obligations.RenderOkResult := fun _ hf => execRenderOk_next.mpr ⟨hf, rfl⟩

/-- Settles O36: the fatal error finds `exit_status` unset and never looks at the flag. -/
theorem renderFailResult : Obligations.RenderFailResult := fun _ hf hx => execRenderFail_next.mpr ⟨hf, hx, rfl⟩

/-- Settles O37: `PACE` is the loop head. -/
theorem paceResult : Obligations.PaceResult := fun _ hf h => (enabledIn_self hf).trans (loopHead_eq h)

/-! ### `CANCEL` and `FINALIZE` (R117, R118) -/

/-- The flag after a `CANCEL`: kept once the loop has ended, else 0 (R117). -/
theorem loopingAfterCancel_eq (s : State) :
    loopingAfterCancel s = if s.fsm = .shutdown ∨ s.fsm = .halted then s.continueLooping else false := by
  rw [loopingAfterCancel]
  by_cases h : s.fsm.loopEnded = true
  · rw [h, if_pos (Registers.loopEnded_iff.mp h), Bool.true_and]
  · rw [Bool.eq_false_iff.mpr h, if_neg (mt Registers.loopEnded_iff.mpr h), Bool.false_and]

/-- Settles O38: `loopingAfterCancel_eq` for the flag, and the input recorded. -/
theorem cancelResult : Obligations.CancelResult := fun s => by
  rw [← loopingAfterCancel_eq s]
  rfl

/-- Settles O39: enabled exactly while `finalized` is 0. -/
theorem finalizeResult : Obligations.FinalizeResult := fun _ hf =>
  ⟨fun hunset => execFinalize_next.mpr ⟨hf, hunset, rfl⟩, fun hset => (enabledIn_self hf).trans (if_pos hset)⟩

/-! ### Who writes the channel buffers (R124(f), R149) -/

/-- The loop head leaves the buffers, whatever was recorded or received before it. -/
theorem loopHead_chbuf {u : State} (h : loopHead u = .next t) (hu : u.chbuf = s.chbuf) : t.chbuf = s.chbuf := by
  rcases loopHead_next.mp h with ⟨-, rfl⟩ | ⟨-, -, rfl⟩
  · exact hu
  · exact hu

theorem runDecode_chbuf {r : ScanRegs} (h : runDecode r s = .next t) : t.chbuf = s.chbuf := by
  rcases runDecode_next.mp h with ⟨-, hl⟩ | ⟨frame, -, rfl⟩
  · exact loopHead_chbuf hl rfl
  · rfl

/-- A control step but `DISPATCH` leaves the channel buffers. -/
theorem controlStep_chbuf {i : Instr} {f : Fsm} (hi : Enabling.fromState i = some f) (hne : i ≠ .dispatch)
    (h : exec i s = .next t) : t.chbuf = s.chbuf := by
  cases i with
  | len | termL | termH | pix | tail | dispatchCh | copyPx | cancel => exact absurd hi nofun
  | initReq => obtain ⟨-, rfl⟩ := execInitReq_next.mp h; rfl
  | initOk => exact loopHead_chbuf (execInitOk_next.mp h).2 rfl
  | initFail => obtain ⟨-, -, rfl⟩ := execInitFail_next.mp h; rfl
  | rxData r bytes => obtain ⟨-, -, -, rfl⟩ := execRxData_next.mp h; rfl
  | rxShort r bytes => obtain ⟨-, -, -, hl⟩ := execRxShort_next.mp h; exact loopHead_chbuf hl rfl
  | rxError r => obtain ⟨-, -, hl⟩ := execRxError_next.mp h; exact loopHead_chbuf hl rfl
  | decode =>
    obtain ⟨-, ⟨-, hr⟩ | ⟨r, -, hr⟩⟩ := execDecode_next.mp h
    · exact runDecode_chbuf hr
    · exact runDecode_chbuf hr
  | dispatch => exact absurd rfl hne
  | renderOk => obtain ⟨-, rfl⟩ := execRenderOk_next.mp h; rfl
  | renderFail => obtain ⟨-, -, rfl⟩ := execRenderFail_next.mp h; rfl
  | pace => exact loopHead_chbuf (execPace_next.mp h).2 rfl
  | finalize => obtain ⟨-, -, rfl⟩ := execFinalize_next.mp h; rfl

/-- Settles O48: between control steps there is only `CANCEL`, a tail or a control step to run, and of those only `DISPATCH`
writes a buffer. -/
theorem bufferWriters : Obligations.BufferWriters := by
  intro i s t hw h hne
  by_cases hd : i = .dispatch
  · subst hd
    obtain ⟨hf, -, chb, -, rfl⟩ := execDispatch_next.mp h
    exact ⟨rfl, hf, rfl⟩
  · refine absurd ?_ hne
    rcases Enabling.exec_between hw h with rfl | ⟨bytes, rfl⟩ | hfrom
    · obtain rfl := execCancel_next.mp h
      rfl
    · obtain rfl := next_iff.mp h
      rfl
    · exact controlStep_chbuf hfrom hd h

/-! ### `HALTED` is the end (R120) -/

theorem fromState_ne_halted (i : Instr) : Enabling.fromState i ≠ some .halted := by
  cases i <;> exact nofun

/-- In `HALTED` a `CANCEL` only adds itself to the trace (log 7). -/
theorem exec_cancel_halted (hf : s.fsm = .halted) :
    exec .cancel s = .next { s with trace := s.trace ++ [.input .cancel] } := by
  rw [cancelResult s, if_pos (.inr hf)]

/-- Where the loop has not come to `HALTED`, a control step of the state where the block stands has a next state. -/
theorem exists_step (h : s.Inv) (hw : s.work = .idle) (hf : s.fsm ≠ .halted) :
    ∃ i t, exec i s = .next t ∧ Enabling.fromState i = some s.fsm := by
  have unset (hrun : s.fsm.loopEnded = false) : s.continueLooping = false → s.exitStatus = .none :=
    fun _ => h.exitMatches.mpr hrun
  cases hfsm : s.fsm with
  | init => exact ⟨.initReq, _, initReqResult s hfsm, rfl⟩
  | initWait => exact ⟨.initOk, _, initOkResult s hfsm (unset (by rw [hfsm]; rfl)), rfl⟩
  | waitingForPacket => exact ⟨.rxError (-1), _, rxErrorResult s (-1) hfsm (by decide) (unset (by rw [hfsm]; rfl)), rfl⟩
  | decoding =>
    obtain ⟨last, hd, -⟩ := decodeFrame_ok s.cfg.maxChannels s.rxBuf (h.decodingLong hfsm)
    exact ⟨.decode, _, Delivery.exec_decode hfsm hw hd, rfl⟩
  | dispatching =>
    obtain ⟨chb, hd⟩ := NoFault.dispatchBuffers_answers h hfsm
    exact ⟨.dispatch, _, Dispatch.exec_dispatch_idle hfsm hw hd, rfl⟩
  | rendering => exact ⟨.renderOk, _, renderOkResult s hfsm, rfl⟩
  | pacedIdle => exact ⟨.pace, _, paceResult s hfsm (unset (by rw [hfsm]; rfl)), rfl⟩
  | shutdown => exact ⟨.finalize, _, (finalizeResult s hfsm).1 (h.finalizedLate hf), rfl⟩
  | halted => exact absurd hfsm hf

/-- Settles O49: no control step has `HALTED` as its `From` state, and every other state is the `From` state of one that runs. -/
theorem haltedIsTerminal : Obligations.HaltedIsTerminal := by
  refine ⟨fun i s t hf hw h => ?_, fun s => exec_cancel_halted, fun s h hw hf => ?_⟩
  · rcases Enabling.exec_between hw h with rfl | ⟨bytes, rfl⟩ | hfrom
    · obtain rfl := next_iff.mp ((exec_cancel_halted hf).symm.trans h)
      exact ⟨.inl rfl, rfl⟩
    · obtain rfl := next_iff.mp h
      exact ⟨.inr ⟨bytes, rfl⟩, rfl⟩
    · exact absurd (hf ▸ hfrom) (fromState_ne_halted i)
  · obtain ⟨i, t, hexec, hfrom⟩ := exists_step h hw hf
    exact ⟨i, t, hexec, fun he => by simp [he, Enabling.fromState] at hfrom,
      fun bytes he => by simp [he, Enabling.fromState] at hfrom⟩

end Sys2Proof.Proofs.ControlSteps
end

section
/-! 42_control.md R104, R119, R123: what a step runs (logs 5, 6, 9), and where there is none (log 10). Between control steps it is the
internal step or the environment's next move; inside a `DECODE` or a `DISPATCH` the element that the working registers stand at. -/

namespace Sys2Proof.Proofs.StepFetch

open Sys2Proof.Machine

variable {s : State}

/-! ### Between control steps (R104, R119) -/

/-- The block has no internal step where it waits for its environment, nor once it has ended. -/
theorem internalStep_none
    (h : s.fsm ∈ [Fsm.initWait, .waitingForPacket, .rendering, .halted] ∨ s.fsm = .shutdown ∧ s.finalized = true) :
    internalStep s = none := by
  unfold internalStep
  rcases h with h | ⟨hf, hset⟩
  · simp only [List.mem_cons, List.not_mem_nil, or_false] at h
    rcases h with hf | hf | hf | hf <;> rw [hf]
  · rw [hf]
    exact if_pos hset

/-- The internal steps with their `From` states. -/
theorem internalStep_some {x : Fsm × Instr}
    (hx : x ∈ [(Fsm.init, Instr.initReq), (.decoding, .decode), (.dispatching, .dispatch), (.pacedIdle, .pace),
      (.shutdown, .finalize)])
    (hf : s.fsm = x.1) (hunset : s.fsm = .shutdown → s.finalized = false) : internalStep s = some x.2 := by
  unfold internalStep
  simp only [List.mem_cons, List.not_mem_nil, or_false] at hx
  rcases hx with rfl | rfl | rfl | rfl | rfl
  · rw [hf]
  · rw [hf]
  · rw [hf]
  · rw [hf]
  · simp [hf, hunset hf]

/-- A move that breaks the socket's duty is refused when its turn has come (R121). -/
theorem step_offer_broken (hw : s.work = .idle) {o : Offer} {rest : List Offer} (hin : s.inputs = o :: rest)
    (h : o.before = some s.fsm ∨ internalStep s = none) (hd : inputOnDuty s.cfg o.input = false) :
    step s = .refused .hostDuty := by
  have hfetch : fetch s = .stop .hostDuty := by
    rw [fetch_idle hw, fetchControl_offer hin h, fetchOffer, if_neg (Bool.eq_false_iff.mp hd)]
  rw [step, hfetch]

/-- With no move pending and no internal step there is no step (R123). -/
theorem step_nothing (hw : s.work = .idle) (hin : s.inputs = []) (hi : internalStep s = none) :
    step s = .refused (nothingEnabled s) := by
  have hfetch : fetch s = .stop (nothingEnabled s) := by
    rw [fetch_idle hw, fetchControl, hin, hi]
  rw [step, hfetch]

/-! ### Inside a scan (40_decoder.md R78) -/

theorem fetch_scan_element {r : ScanRegs} (hw : s.work = .scan r) (ht : r.terminated = false) (hin : 2 * r.c + 2 ≤ s.rxLen) :
    fetch s = .run (classifyPair (s.rxBuf.read (2 * r.c)) (s.rxBuf.read (2 * r.c + 1))) s := by
  have hopen : ¬ scanOver s.rxLen r = true := fun ho =>
    (scanOver_iff.mp ho).elim (by simp [ht]) (Nat.not_lt.mpr hin)
  rw [fetch_scan hw, fetchScan_eq, if_neg hopen]

theorem fetch_scan_end {r : ScanRegs} (hw : s.work = .scan r) (h : r.terminated = true ∨ s.rxLen < 2 * r.c + 2) :
    fetch s = .run .decode s := by
  rw [fetch_scan hw, fetchScan_eq, if_pos (scanOver_iff.mpr h)]

/-! ### Inside a copy (41_dispatch.md R95) -/

section Copy

variable {k : CopyRegs} (hw : s.work = .copy k)
include hw

theorem fetch_copy_triple (hi : k.i < k.m) (hpx : k.pixel = none) {p : Nat} (hp : p = s.dec.offset + 3 * (k.cursor + k.i))
    (hin : p + 3 ≤ s.rxLen) : fetch s = .run (.pix (s.rxBuf.read p) (s.rxBuf.read (p + 1)) (s.rxBuf.read (p + 2))) s := by
  rw [fetch_copy hw, fetchCopy, if_pos hi, hpx, tripleOffset, ← hp, readTriple_inside hin]

theorem fetch_copy_outside (hi : k.i < k.m) (hpx : k.pixel = none)
    (hout : s.rxLen < s.dec.offset + 3 * (k.cursor + k.i) + 3) : fetch s = .fault .rxOob := by
  rw [fetch_copy hw, fetchCopy, if_pos hi, hpx, tripleOffset, readTriple_outside hout]

theorem fetch_copy_word (hi : k.i < k.m) (hpx : k.pixel ≠ none) : fetch s = .run (.copyPx k.c k.i (k.cursor + k.i)) s := by
  obtain ⟨w, hword⟩ := Option.ne_none_iff_exists'.mp hpx
  rw [fetch_copy hw, fetchCopy, if_pos hi, hword]

theorem fetch_copy_end (hi : k.m ≤ k.i) : fetch s = .run (.dispatchCh k.c k.declared) s := by
  rw [fetch_copy hw, fetchCopy, if_neg (Nat.not_lt.mpr hi)]

end Copy

/-- The element that bytes decode to is the one the decoder names. -/
theorem decoded_eq {i j : Instr} {rest : List Byte} {x : Except Reject (Instr × List Byte)} (hx : x = .ok (i, rest))
    (h : x = .ok (j, rest)) : i = j :=
  (Prod.mk.inj (Except.ok.inj (hx.symm.trans h))).1

/-- Settles O50: each clause by what the fetch answers there. -/
theorem stepRunsDecoded : Obligations.StepRunsDecoded := by
  refine ⟨fun s x hx hf hw hunset hhead => CancelPlace.step_internal hw (internalStep_some hx hf hunset) hhead,
    fun s o rest hw hin hnow => ?_, fun s r hw => ⟨fun i ht hin hdec => ?_, fun h => step_run (fetch_scan_end hw h)⟩,
    fun s c cursor hw => ⟨fun hc => ?_, fun hc => ?_⟩,
    fun s k hw => ⟨fun i p hi hpx hp hin hdec => ?_, fun hi hpx => step_run (fetch_copy_word hw hi hpx),
      fun hi => step_run (fetch_copy_end hw hi), fun hi hpx hout => ?_⟩⟩
  · have hnow : o.before = some s.fsm ∨ internalStep s = none := hnow.imp_right internalStep_none
    exact ⟨CancelPlace.step_offer hw hin hnow, step_offer_broken hw hin hnow⟩
  · obtain rfl := decoded_eq hdec rfl
    exact step_run (fetch_scan_element hw ht hin)
  · exact step_run ((fetch_demux hw).trans (if_pos hc))
  · exact step_run ((fetch_demux hw).trans (if_neg (Nat.not_lt.mpr hc)))
  · obtain rfl := decoded_eq hdec rfl
    exact step_run (fetch_copy_triple hw hi hpx hp hin)
  · rw [step, fetch_copy_outside hw hi hpx hout]

/-- Settles O51: `step_nothing`, and what it refuses with. -/
theorem noStepWithoutInput : Obligations.NoStepWithoutInput := by
  refine ⟨fun s hw hin hf => ?_, fun s hw hin hf hset => ?_, fun s hw hin hf => ?_⟩
  · have hne : s.fsm ≠ .halted := fun he => by simp [he] at hf
    rw [step_nothing hw hin (internalStep_none (.inl (List.mem_append_left [Fsm.halted] hf))), nothingEnabled, if_neg hne]
  · have hne : s.fsm ≠ .halted := by simp [hf]
    rw [step_nothing hw hin (internalStep_none (.inr ⟨hf, hset⟩)), nothingEnabled, if_neg hne]
  · rw [step_nothing hw hin (internalStep_none (.inl (by simp [hf]))), nothingEnabled, if_pos hf]

end Sys2Proof.Proofs.StepFetch
end

section
/-! 42_control.md R104, R124(a): one whole cycle of the loop, from a wait through `DECODE`, `DISPATCH` and the render to the loop head.
Each of its five steps is said once, for any state between control steps; the cycle puts them one after another. -/

namespace Sys2Proof.Proofs.Cycle

open Sys2Proof.Machine

variable {s : State}

/-- A move that names no state is not due before any internal step. -/
theorem unnamed_not_due (e : PortInput) (rest : List Offer) (f : Fsm) :
    ∀ o ∈ ((⟨e, none⟩ : Offer) :: rest).head?, o.before ≠ some f := by
  simp

/-! ### The five steps (R109, R112 to R114, R116) -/

/-- The state after `DISPATCH` with given buffers (R113). -/
def requested (chb : ChannelBuffers) (s : State) : State := ((s.setChbuf chb).record (.renderReq chb)).setFsm .rendering

/-- The state after `RENDER_OK` (R114). -/
def rendered (s : State) : State := (s.record (.input (.renderResp true))).setFsm .pacedIdle

theorem classifyInput_data {bytes : List Byte} (hmin : 4 ≤ bytes.length) :
    classifyInput (.rx bytes.length bytes) = .rxData bytes.length bytes := by
  have hneg : ¬ (bytes.length : Int) < 0 := by omega
  have hshort : ¬ (bytes.length : Int) < 4 := by omega
  rw [classifyInput, if_neg hneg, if_neg hshort]

theorem step_receive {bytes : List Byte} {rest : List Offer} (hf : s.fsm = .waitingForPacket) (hw : s.work = .idle)
    (hmin : 4 ≤ bytes.length) (hmax : bytes.length ≤ s.cfg.messageSize)
    (hin : s.inputs = ⟨.rx bytes.length bytes, none⟩ :: rest) :
    step s = .next (Delivery.received bytes (s.setInputs rest)) := by
  have hnone : internalStep s = none := StepFetch.internalStep_none (.inl (by simp [hf]))
  have hduty : inputOnDuty s.cfg (.rx bytes.length bytes) = true := dutyKept_iff.mpr ⟨rfl, hmax⟩
  rw [CancelPlace.step_offer hw hin (.inr hnone) hduty, classifyInput_data hmin]
  exact Delivery.exec_rxData (s := s.setInputs rest) hf hmin hmax

theorem step_decode {d : DecodedFrame} (hf : s.fsm = .decoding) (hw : s.work = .idle)
    (hhead : ∀ o ∈ s.inputs.head?, o.before ≠ some .decoding)
    (hd : decodeFrame s.cfg.maxChannels s.rxBuf s.rxLen = .ok (.ok d)) : step s = .next (Delivery.decodedAs d s) := by
  have hi : internalStep s = some .decode := by rw [internalStep, hf]
  rw [CancelPlace.step_internal hw hi (hf ▸ hhead)]
  exact Delivery.exec_decode hf hw hd

theorem step_dispatch {chb : ChannelBuffers} (hf : s.fsm = .dispatching) (hw : s.work = .idle)
    (hhead : ∀ o ∈ s.inputs.head?, o.before ≠ some .dispatching) (h : dispatchBuffers s = .ok chb) :
    step s = .next (requested chb s) := by
  have hi : internalStep s = some .dispatch := by rw [internalStep, hf]
  rw [CancelPlace.step_internal hw hi (hf ▸ hhead)]
  exact Dispatch.exec_dispatch_idle hf hw h

theorem step_renderOk {rest : List Offer} (hf : s.fsm = .rendering) (hw : s.work = .idle)
    (hin : s.inputs = ⟨.renderResp true, none⟩ :: rest) : step s = .next (rendered (s.setInputs rest)) := by
  have hnone : internalStep s = none := StepFetch.internalStep_none (.inl (by simp [hf]))
  rw [CancelPlace.step_offer hw hin (.inr hnone) rfl]
  exact ControlSteps.renderOkResult (s.setInputs rest) hf

theorem step_pace (hf : s.fsm = .pacedIdle) (hw : s.work = .idle)
    (hhead : ∀ o ∈ s.inputs.head?, o.before ≠ some .pacedIdle) (hx : s.exitStatus = .none) :
    step s = .next s.atLoopHead := by
  have hi : internalStep s = some .pace := by rw [internalStep, hf]
  rw [CancelPlace.step_internal hw hi (hf ▸ hhead)]
  exact ControlSteps.paceResult s hf fun _ => hx

/-! ### The cycle (R104, R124(a)) -/

/-- The block still waiting, but with a datagram in its buffer and that datagram's frame decoded. -/
def holding (bytes : List Byte) (d : DecodedFrame) (s : State) : State := (receive bytes s).setDec d

/-- The trace of the cycle's receive, render request and answer. -/
def cycleEvents (bytes : List Byte) (chb : ChannelBuffers) : List Event :=
  [.input (.rx bytes.length bytes), .renderReq chb, .input (.renderResp true)]

/-- The state before the loop head, but for `fsm`: the block has taken the datagram and rendered it. -/
def cycled (bytes : List Byte) (d : DecodedFrame) (chb : ChannelBuffers) (rest : List Offer) (s : State) : State :=
  { holding bytes d s with chbuf := chb, inputs := rest, trace := s.trace ++ cycleEvents bytes chb }

/-- The datagram has been received, and the render's answer is pending. -/
def taken (bytes : List Byte) (rest : List Offer) (s : State) : State :=
  Delivery.received bytes (s.setInputs (⟨.renderResp true, none⟩ :: rest))

/-- The states that the first four steps lead through end in `cycled`. -/
theorem rendered_cycled (hw : s.work = .idle) (bytes : List Byte) (d : DecodedFrame) (chb : ChannelBuffers)
    (rest : List Offer) :
    rendered ((requested chb (Delivery.decodedAs d (taken bytes rest s))).setInputs rest) =
      (cycled bytes d chb rest s).setFsm .pacedIdle := by
  have htrace : s.trace ++ [.input (.rx bytes.length bytes)] ++ [.renderReq chb] ++ [.input (.renderResp true)] =
      s.trace ++ cycleEvents bytes chb := by simp [cycleEvents]
  rw [cycled, ← htrace, ← HeaderScan.setWork_idle_eq hw]
  rfl

/-- What is dispatched is the frame of the datagram taken. -/
theorem dispatchBuffers_taken (hw : s.work = .idle) (bytes : List Byte) (d : DecodedFrame) (rest : List Offer) :
    dispatchBuffers (Delivery.decodedAs d (taken bytes rest s)) = dispatchBuffers (holding bytes d s) :=
  Dispatch.dispatchBuffers_congr (s := holding bytes d s) (t := Delivery.decodedAs d (taken bytes rest s)) hw
    rfl rfl rfl rfl rfl rfl

/-- The cycle's five steps, with the buffers that the dispatch function answers. -/
theorem run_cycle {bytes : List Byte} {rest : List Offer} {d : DecodedFrame} {chb : ChannelBuffers}
    (hf : s.fsm = .waitingForPacket) (hw : s.work = .idle) (hx : s.exitStatus = .none) (hmin : 4 ≤ bytes.length)
    (hmax : bytes.length ≤ s.cfg.messageSize)
    (hin : s.inputs = ⟨.rx bytes.length bytes, none⟩ :: ⟨.renderResp true, none⟩ :: rest)
    (hhead : ∀ o ∈ rest.head?, o.before ≠ some .pacedIdle)
    (hd : decodeFrame s.cfg.maxChannels (s.rxBuf.writeBytes 0 bytes) bytes.length = .ok (.ok d))
    (hchb : dispatchBuffers (holding bytes d s) = .ok chb) :
    runSteps 5 s = .next (cycled bytes d chb rest s).atLoopHead := by
  have hreceive : step s = .next (taken bytes rest s) := step_receive hf hw hmin hmax hin
  have hdecode := step_decode (s := taken bytes rest s) rfl hw (unnamed_not_due _ _ _) hd
  have hdispatch := step_dispatch rfl rfl (unnamed_not_due _ _ _) ((dispatchBuffers_taken hw bytes d rest).trans hchb)
  have hrender := step_renderOk (s := requested chb (Delivery.decodedAs d (taken bytes rest s))) rfl rfl rfl
  have hpace := step_pace (s := (cycled bytes d chb rest s).setFsm .pacedIdle) rfl hw hhead hx
  rw [runSteps_next 4 hreceive, runSteps_next 3 hdecode, runSteps_next 2 hdispatch, runSteps_next 1 hrender,
    rendered_cycled hw, HeaderScan.runSteps_one, hpace, ControlSteps.atLoopHead_setFsm]

/-- Settles O59: `run_cycle` with the frame that the decode function answers; `dispatchBuffers_read` says what each slot holds. -/
theorem fullCycle : Obligations.FullCycle := by
  intro s bytes rest hinv hf hw hmin hmax hin hhead
  obtain ⟨d, hd⟩ : ∃ d, decodeFrame s.cfg.maxChannels (s.rxBuf.writeBytes 0 bytes) bytes.length = .ok (.ok d) :=
    have ⟨_, hd, _⟩ := decodeFrame_ok s.cfg.maxChannels (s.rxBuf.writeBytes 0 bytes) hmin
    ⟨_, hd⟩
  have hcurrent : (holding bytes d s).frameCurrent := hd
  obtain ⟨chb, hchb⟩ := Dispatch.dispatchBuffers_answers (s := holding bytes d s) hw (State.frameCurrent_fits hcurrent)
  have hx : s.exitStatus = .none := NoFault.exitStatus_none hinv hf rfl
  exact ⟨d, holding bytes d s, chb, hd, rfl, hchb,
    Dispatch.dispatchBuffers_read (s := holding bytes d s) hw hinv.cfgLegal hinv.chbShaped hchb,
    run_cycle hf hw hx hmin hmax hin hhead hd hchb⟩

end Sys2Proof.Proofs.Cycle
end

section
/-! 60_exceptions.md R133(b): a `CANCEL` and a receive result in either order. A result on duty is first taken (`consumed`), which never
looks at the flag, and `CANCEL` never looks at the receive buffer; so the two commute but for the trace (`consumed_cancelled`). What
follows differs by the class of the result: an `RX_DATA` goes on to `DECODING` whatever the flag, a drop is the loop head, which reads
it. -/

namespace Sys2Proof.Proofs.CancelOrder

open Sys2Proof.Machine

variable {s : State} {r : Int} {bytes : List Byte}

/-! ### `CANCEL` while the loop runs (R117) -/

/-- The state after a `CANCEL` while the loop runs. -/
def cancelled (s : State) : State := (s.setLooping false).record (.input .cancel)

theorem exec_cancel_running (hrun : s.fsm.loopEnded = false) : exec .cancel s = .next (cancelled s) := by
  have hclear : loopingAfterCancel s = false := by rw [loopingAfterCancel, hrun, Bool.false_and]
  exact execCancel_next.mpr (by rw [hclear, cancelled])

/-! ### A receive result on duty (R109 to R111, R121) -/

/-- The state in which a receive result has been taken, but the block still stands where it was: the bytes are held, unless the
result is an error, and the input is recorded. -/
def consumed (r : Int) (bytes : List Byte) (s : State) : State :=
  (if r < 0 then s else receive bytes s).record (.input (.rx r bytes))

theorem consumed_error (h : r < 0) : consumed r bytes s = s.record (.input (.rx r bytes)) := by
  rw [consumed, if_pos h]

theorem consumed_bytes (h : 0 ≤ r) : consumed r bytes s = (receive bytes s).record (.input (.rx r bytes)) := by
  rw [consumed, if_neg (by omega)]

@[simp] theorem consumed_continueLooping : (consumed r bytes s).continueLooping = s.continueLooping := by
  unfold consumed
  split <;> rfl

@[simp] theorem consumed_exitStatus : (consumed r bytes s).exitStatus = s.exitStatus := by
  unfold consumed
  split <;> rfl

@[simp] theorem consumed_trace : (consumed r bytes s).trace = s.trace ++ [.input (.rx r bytes)] := by
  unfold consumed
  split <;> rfl

/-- A result and a `CANCEL` taken in either order give the same state but for the trace. -/
theorem consumed_cancelled (r : Int) (bytes : List Byte) (s : State) :
    consumed r bytes (cancelled s) =
      { cancelled (consumed r bytes s) with trace := s.trace ++ [.input .cancel, .input (.rx r bytes)] } := by
  rw [List.append_cons s.trace]
  unfold consumed
  split <;> rfl

/-- `RX_DATA` takes its result and leaves for `DECODING` whatever the flag (R109). -/
theorem exec_rxData_consumed (hf : s.fsm = .waitingForPacket) (hd : dutyKept s.cfg r bytes = true) (hmin : 4 ≤ r) :
    exec (.rxData r bytes) s = .next ((consumed r bytes s).setFsm .decoding) :=
  execRxData_next.mpr ⟨hf, hmin, hd, by rw [consumed_bytes (by omega)]⟩

/-- A drop takes its result, and then the loop head runs (R110, R111, R126). -/
theorem exec_drop (hf : s.fsm = .waitingForPacket) (hd : dutyKept s.cfg r bytes = true) (hmax : r < 4) :
    exec (classifyInput (.rx r bytes)) s = loopHead (consumed r bytes s) := by
  obtain ⟨hlen, hsize⟩ := dutyKept_iff.mp hd
  by_cases hneg : r < 0
  · obtain rfl : bytes = [] := List.eq_nil_of_length_eq_zero (by omega)
    rw [Encoding.classifyInput_rxError hneg, consumed_error hneg]
    exact Registers.execRxError_negative hf hneg
  · obtain rfl : r = bytes.length := by omega
    rw [Encoding.classifyInput_rxShort (by omega) (by omega), consumed_bytes (by omega)]
    exact Registers.execRxShort_onDuty hf (by omega) (by omega)

/-- Settles O57: the two orders commute by `consumed_cancelled`. A drop ends in the loop head, where the flag is 1 after the drop
alone and 0 once the `CANCEL` has come. -/
theorem cancelAgainstReceive : Obligations.CancelAgainstReceive := by
  intro s r bytes hf hd
  have hrun : s.fsm.loopEnded = false := by rw [hf]; rfl
  have htrace : (cancelled (consumed r bytes s)).trace = s.trace ++ [.input (.rx r bytes), .input .cancel] := by
    simp [cancelled]
  refine ⟨fun hmin => ?_, fun hmax hl hx => ?_⟩
  · refine ⟨_, _, _, _, exec_rxData_consumed hf hd hmin, exec_cancel_running rfl, exec_cancel_running hrun,
      exec_rxData_consumed (s := cancelled s) hf hd hmin, htrace, ?_⟩
    rw [consumed_cancelled]
    rfl
  · have hwait : loopHead (consumed r bytes s) = .next ((consumed r bytes s).setFsm .waitingForPacket) :=
      loopHead_next.mpr (.inl ⟨consumed_continueLooping.trans hl, rfl⟩)
    have hend : loopHead (consumed r bytes (cancelled s)) =
        .next (((consumed r bytes (cancelled s)).setExit .clean).setFsm .shutdown) :=
      loopHead_next.mpr (.inr ⟨consumed_continueLooping, consumed_exitStatus.trans hx, rfl⟩)
    refine ⟨_, _, _, _, (exec_drop hf hd hmax).trans hwait, exec_cancel_running rfl, rfl, rfl,
      consumed_exitStatus.trans hx, htrace, exec_cancel_running hrun,
      (exec_drop (s := cancelled s) hf hd hmax).trans hend, ?_⟩
    rw [consumed_cancelled]
    rfl

end Sys2Proof.Proofs.CancelOrder
end

section
/-! 70_reset_and_hazards.md R143: what reset leaves, and that the parameters stay. Each slot of the channel buffers is a word of the
initial pixels, which have the machine's shape; the parameters stay because no instruction writes one (`configurationReadOnly`) and
fetching takes a move of the environment at most (`fetch_run`). -/

namespace Sys2Proof.Proofs.Reset

open Sys2Proof.Machine

variable {s t : State}

/-- Every slot that exists reads as its word in the buffers' data (10_state.md R28). -/
theorem memReadChb_word {p : Params} (hp : p.wf) {chb : ChannelBuffers} (hf : p.fits chb) {c i : Nat}
    (hc : c < p.maxChannels) (hi : i < p.capOf c) :
    ∃ row w, chb[c]? = some row ∧ row[i]? = some w ∧ memReadChb p chb c i = .ok w := by
  have hc' : c < chb.length := Params.rows hp hf ▸ hc
  have hrow : chb[c]? = some chb[c] := List.getElem?_eq_getElem hc'
  have hi' : i < chb[c].length := Params.row_length hf hrow ▸ hi
  exact ⟨chb[c], chb[c][i], hrow, List.getElem?_eq_getElem hi', Dispatch.memReadChb_getElem hp hf hc' hi'⟩

/-- No step writes a parameter (10_state.md R31, 00_scope.md R8). -/
theorem step_cfg (h : step s = .next t) : t.cfg = s.cfg := by
  obtain ⟨i, u, hfetch, hexec⟩ := step_next h
  obtain ⟨os, rfl⟩ := fetch_run hfetch
  exact Registers.configurationReadOnly i (s.setInputs os) t hexec

theorem runSteps_cfg {n : Nat} (h : runSteps n s = .next t) : t.cfg = s.cfg :=
  runSteps_keeps (P := fun u => u.cfg = s.cfg) (fun _ _ hu hstep => (step_cfg hstep).trans hu) n rfl h

/-- Settles O11: the registers are those of `State.resetWith`, the slots are the initial pixels, and `step_cfg` carries the
parameters along every run. -/
theorem resetState : Obligations.ResetState := fun _ _ hp hf =>
  ⟨rfl, rfl, rfl, rfl, rfl, rfl, fun _ _ => memReadChb_word hp hf, fun _ _ => step_cfg, fun _ _ _ => runSteps_cfg⟩

end Sys2Proof.Proofs.Reset
end
